-- ==== Sys2Proof/Word.lean ====
section
/-! DEFINITION. The widths of the machine: bytes, words, blocks, byte sequences (spec 00_scope R9 to R11). -/

namespace Sys2Proof

/-- A byte is 8 bits (R10). -/
abbrev Byte := BitVec 8

/-- A host-port register, a matrix word or a limb container: 32 bits, unsigned (R9, R21). -/
abbrev Word := BitVec 32

/-- A byte sequence, first byte first (R10). -/
abbrev Bytes := List Byte

/-- A Block is a byte sequence of length 16, index 0 first (R10, R32). -/
abbrev Block := Vector Byte 16

/-- The 4-byte nonce of engine A (R33). -/
abbrev Nonce := Vector Byte 4

/-- The 8-byte IV of engine A (R90). -/
abbrev CtrIv := Vector Byte 8

/-- The key schedule: fifteen Blocks (R32). -/
abbrev Schedule := Vector Block 15

/-- Four independent Blocks, the lanes of a four-block group (R103, R107). -/
abbrev Lanes := Vector Block 4

/-- The keystream generator's 4 by 4 matrix of words, row i being words 4i to 4i+3 (R35, R160). -/
abbrev Matrix := Vector Word 16

/-- The finalization mask: four words (R39). -/
abbrev Mask := Vector Word 4

/-- Sixteen zero bytes. -/
def Block.zero : Block := Vector.replicate 16 0

/-- Addition of words modulo 2^32 (R11). -/
def add32 (x y : Word) : Word := x + y

end Sys2Proof
end

