-- ==== Sys2Proof/Syntax.lean ====
section
/-! DEFINITION. The twenty-one commands of spec 30_encoding R74, one constructor each. -/

namespace Sys2Proof

/-- A command. The command word carries one operand, the in-place bit `IP` of `A_ENCRYPT` and `A_DECRYPT`;
every other operand stands in the `ARG_*` registers (R72). -/
inductive Instr where
  /-- 0x10 `A_CONSTRUCT` (R262). -/
  | aConstruct
  /-- 0x11 `A_SET_KEY` (R131). -/
  | aSetKey
  /-- 0x12 `A_ENCRYPT` (R133). -/
  | aEncrypt (inPlace : Bool)
  /-- 0x13 `A_DECRYPT` (R139). -/
  | aDecrypt (inPlace : Bool)
  /-- 0x14 `A_GET_BLOCK_SIZE` (R140). -/
  | aGetBlockSize
  /-- 0x15 `A_GET_IV_SIZE` (R141). -/
  | aGetIvSize
  /-- 0x16 `A_GET_KEY_SIZE` (R142). -/
  | aGetKeySize
  /-- 0x1F `A_DESTROY` (R143). -/
  | aDestroy
  /-- 0x20 `B_CONSTRUCT` (R263). -/
  | bConstruct
  /-- 0x21 `B_SET_KEY` (R222). -/
  | bSetKey
  /-- 0x22 `B_INIT` (R224). -/
  | bInit
  /-- 0x23 `B_MAC_UPDATE` (R200). -/
  | bMacUpdate
  /-- 0x24 `B_CHACHA_BLOCK` (R166). -/
  | bChachaBlock
  /-- 0x25 `B_CHACHA_4BLOCK` (R168). -/
  | bChacha4Block
  /-- 0x26 `B_ENCRYPT` (R228). -/
  | bEncrypt
  /-- 0x27 `B_DECRYPT` (R230). -/
  | bDecrypt
  /-- 0x28 `B_FINISH` (R232). -/
  | bFinish
  /-- 0x29 `B_GET_IV_SIZE` (R234). -/
  | bGetIvSize
  /-- 0x2A `B_GET_BLOCK_SIZE` (R235). -/
  | bGetBlockSize
  /-- 0x2B `B_GET_ICV_SIZE` (R236). -/
  | bGetIcvSize
  /-- 0x2F `B_DESTROY` (R237). -/
  | bDestroy
  deriving DecidableEq, Repr

end Sys2Proof
end

