-- ==== Sys2Proof/WellFormed.lean ====
section
/-! DEFINITION. Format C of the command word (spec 30_encoding R71) and the checks a legal word passes (R73, R76). -/

namespace Sys2Proof

/-- The three fields of format C (R71): `OPC` in bits 7:0, `IP` in bit 8, `RSV` in bits 31:9. -/
structure FormatC where
  opc : BitVec 8
  ip : BitVec 1
  rsv : BitVec 23
  deriving DecidableEq, Repr

/-- The assigned opcodes (R74). -/
def assignedOpcodes : List (BitVec 8) :=
  [0x10, 0x11, 0x12, 0x13, 0x14, 0x15, 0x16, 0x1F] ++
  [0x20, 0x21, 0x22, 0x23, 0x24, 0x25, 0x26, 0x27, 0x28, 0x29, 0x2A, 0x2B, 0x2F]

/-- The opcodes with which `IP` = 1 is legal: `A_ENCRYPT` and `A_DECRYPT` (R71). -/
def inPlaceOpcodes : List (BitVec 8) := [0x12, 0x13]

/-- `RSV` must be 0 (R71). -/
def FormatC.reservedZero (f : FormatC) : Bool := f.rsv == 0

/-- `OPC` must be assigned (R76). -/
def FormatC.opcodeAssigned (f : FormatC) : Bool := assignedOpcodes.contains f.opc

/-- `IP` = 1 only with an opcode that has an output operand (R71). -/
def FormatC.inPlaceLegal (f : FormatC) : Bool := f.ip == 0 || inPlaceOpcodes.contains f.opc

/-- A legal command word (R73, R76). -/
def FormatC.wf (f : FormatC) : Bool := f.reservedZero && f.opcodeAssigned && f.inPlaceLegal

/-- The opcode of a command (R74). -/
def Instr.opcode : Instr → BitVec 8
  | .aConstruct => 0x10
  | .aSetKey => 0x11
  | .aEncrypt _ => 0x12
  | .aDecrypt _ => 0x13
  | .aGetBlockSize => 0x14
  | .aGetIvSize => 0x15
  | .aGetKeySize => 0x16
  | .aDestroy => 0x1F
  | .bConstruct => 0x20
  | .bSetKey => 0x21
  | .bInit => 0x22
  | .bMacUpdate => 0x23
  | .bChachaBlock => 0x24
  | .bChacha4Block => 0x25
  | .bEncrypt => 0x26
  | .bDecrypt => 0x27
  | .bFinish => 0x28
  | .bGetIvSize => 0x29
  | .bGetBlockSize => 0x2A
  | .bGetIcvSize => 0x2B
  | .bDestroy => 0x2F

/-- The in-place bit of a command, 0 where the command has none (R71). -/
def Instr.inPlaceBit : Instr → Bool
  | .aEncrypt ip => ip
  | .aDecrypt ip => ip
  | .aConstruct | .aSetKey | .aGetBlockSize | .aGetIvSize | .aGetKeySize | .aDestroy => false
  | .bConstruct | .bSetKey | .bInit | .bMacUpdate | .bChachaBlock | .bChacha4Block => false
  | .bEncrypt | .bDecrypt | .bFinish | .bGetIvSize | .bGetBlockSize | .bGetIcvSize | .bDestroy => false

/-- The fields of a command's word (R71, R74). -/
def Instr.format (i : Instr) : FormatC :=
  { opc := i.opcode, ip := BitVec.ofBool i.inPlaceBit, rsv := 0 }

/-- A command is well formed when its word is legal. The type `Instr` admits no other command
(`Sys2Proof.Laws.instr_wf`); the checks bite on the words themselves (`FormatC.wf`). -/
def Instr.wf (i : Instr) : Bool := i.format.wf

end Sys2Proof
end

