-- ==== Sys2Proof/Decode.lean ====
section
/-! DEFINITION. Decoding and encoding of the command word (spec 30_encoding R70 to R76). -/

namespace Sys2Proof

/-- Why a command word is illegal (R76); the core reports all three as `IllegalCommand` (R284). -/
inductive Reject where
  /-- A non-zero bit in 31:9. -/
  | reservedBits
  /-- `OPC` is not in the opcode map. -/
  | unassignedOpcode
  /-- `IP` = 1 with an opcode other than 0x12 and 0x13. -/
  | inPlaceNotAllowed
  deriving DecidableEq, Repr

/-- The fields of a command word (R71). -/
def FormatC.ofWord (w : Word) : FormatC :=
  { opc := w.extractLsb' 0 8, ip := w.extractLsb' 8 1, rsv := w.extractLsb' 9 23 }

/-- The command word of three fields (R71). -/
def FormatC.toWord (f : FormatC) : Word := f.rsv ++ f.ip ++ f.opc

/-- The opcode map (R74), with the in-place bit handed to the two commands that have one. -/
def commandOf (opc : BitVec 8) (inPlace : Bool) : Option Instr :=
  match opc.toNat with
  | 0x10 => some .aConstruct
  | 0x11 => some .aSetKey
  | 0x12 => some (.aEncrypt inPlace)
  | 0x13 => some (.aDecrypt inPlace)
  | 0x14 => some .aGetBlockSize
  | 0x15 => some .aGetIvSize
  | 0x16 => some .aGetKeySize
  | 0x1F => some .aDestroy
  | 0x20 => some .bConstruct
  | 0x21 => some .bSetKey
  | 0x22 => some .bInit
  | 0x23 => some .bMacUpdate
  | 0x24 => some .bChachaBlock
  | 0x25 => some .bChacha4Block
  | 0x26 => some .bEncrypt
  | 0x27 => some .bDecrypt
  | 0x28 => some .bFinish
  | 0x29 => some .bGetIvSize
  | 0x2A => some .bGetBlockSize
  | 0x2B => some .bGetIcvSize
  | 0x2F => some .bDestroy
  | _ => none

/-- Decoding, in the order of R73: reserved bits, opcode, in-place bit. Total on every 32-bit word. -/
def decode (w : Word) : Except Reject Instr :=
  let f := FormatC.ofWord w
  if f.rsv ≠ 0 then .error .reservedBits
  else
    match commandOf f.opc (f.ip == 1) with
    | none => .error .unassignedOpcode
    | some i => if f.ip = 1 ∧ f.opc ≠ 0x12 ∧ f.opc ≠ 0x13 then .error .inPlaceNotAllowed else .ok i

/-- The command word of a command (R71, R74). -/
def encode (i : Instr) : Word := i.format.toWord

/-- The command the decoder reads from the low `nbits` bits of `w`; a command is one 32-bit word (R70), so
bits above `nbits` are 0 and a number that needs more than 32 bits is no command word. -/
def decodeTableWord (nbits w : Nat) : Option Instr :=
  let v := w % 2 ^ nbits
  if v < 2 ^ 32 then
    match decode (BitVec.ofNat 32 v) with
    | .ok i => some i
    | .error _ => none
  else none

end Sys2Proof
end

