-- ==== Sys2Proof/Config.lean ====
section
/-! DEFINITION. What is fixed for the machine and is not state: the parameters of spec 00_scope R7 and R8. -/

namespace Sys2Proof.Config

/-- Buffer memory has byte addresses below 2^32 (`AW` = 32: R8, R50). -/
def addressLimit : Nat := 2 ^ 32

/-- `NONCE_LEN` (R7). -/
def nonceLen : Nat := 4

/-- `A_IV_LEN` (R7). -/
def ctrIvLen : Nat := 8

/-- `CTR_INIT`: the block counter at the start of every engine-A call (R7, R93). -/
def ctrInit : Word := 1

/-- `A_BLOCK_SIZE` (R7, R140). -/
def ctrBlockSize : Word := 1

/-- `B_KEY_LEN` (R8, R222). -/
def aeadKeyLen : Nat := 32

/-- `B_IV_LEN` (R8, R227). -/
def aeadIvLen : Nat := 12

/-- `B_BLOCK_SIZE` (R8, R235). -/
def aeadBlockSize : Word := 1

/-- `ICV_LEN` (R7, R236). -/
def icvLen : Nat := 16

/-- `KS_BLK`: bytes of one keystream block (R7). -/
def ksBlockLen : Nat := 64

/-- `BLK`: bytes of a cipher block and of a MAC message block (R7). -/
def blockLen : Nat := 16

/-- `DOUBLE_ROUNDS` (R7). -/
def doubleRounds : Nat := 10

/-- `ALG_CTR`, the identifier `A_CONSTRUCT` accepts (R8, R262). -/
def algCtr : Word := 1

/-- `ALG_AEAD`, the identifier `B_CONSTRUCT` accepts (R8, R263). -/
def algAead : Word := 2

/-- `SIGMA[0..3]`, the matrix's fixed row (R8, R160). -/
def sigma : Vector Word 4 := #v[0x61707865, 0x3320646E, 0x79622D32, 0x6B206574]

/-- `P` = 2^130 - 5, the MAC's prime (R7). -/
def prime : Nat := 2 ^ 130 - 5

/-- `CLAMP`, the mask of the MAC key (R8, R193). -/
def clamp : Nat := 0x0FFFFFFC0FFFFFFC0FFFFFFC0FFFFFFF

/-- The block cipher as the spec leaves it: two round functions and a key expansion (R8, decision D25).
Everything the round engine and the counter-mode driver do is written for any such cipher;
`Sys2Proof.Machine.aes` is the one the machine runs (PRESUMED, log entry 1). -/
structure Cipher where
  /-- `SPRound`: one substitution-permutation round (R101). -/
  spRound : Block → Block → Block
  /-- `SPFinal`: the final distinguished round (R101). -/
  spFinal : Block → Block → Block
  /-- `KeyExpand`: key bytes to sub-keys (R8, R131). -/
  keyExpand : Bytes → List Block

end Sys2Proof.Config
end

