-- ==== Sys2Proof/Machine/State.lean ====
section
/-! DEFINITION. The state of the machine as plain data (spec 10_state), its reset value (R43), and the reasons a step can stop. -/

namespace Sys2Proof.Machine

/-- The core has no fault: every `CMD` write ends in success or in a failure recorded in `LAST`, there is no
third outcome (R280), no access fault (R288) and no arithmetic exception (R289). So no constructor: nothing
in the model answers with a fault. Safe. -/
inductive Fault
  deriving DecidableEq, Repr

/-- Where the model stops without a meaning. -/
inductive Refusal where
  /-- A command that has no meaning in the model yet; raised by no arm of `exec`. Safe. -/
  | notModelled (mnemonic : String)
  /-- A range of a command whose checks have all passed would pass address 2^32 - 1 (R51, U3): raised by every
  command that accesses buffer memory. The spec gives no meaning and says the model must refuse. Safe. -/
  | rangePastTop
  /-- `A_ENCRYPT` or `A_DECRYPT` with `IP` = 0 whose source and destination ranges overlap without being
  identical (R57, U4). The spec gives no result and says the model must refuse. Safe. -/
  | partialOverlap
  deriving DecidableEq, Repr

/-- The eleven errors a command can raise, in the order of their codes (R281). -/
inductive CmdError where
  | illegalCommand
  | absent
  | present
  | alg
  | keySize
  | capability
  | keyLength
  | ivLength
  | noKey
  | notInit
  | finished
  deriving DecidableEq, Repr

/-- `a_variant` (R27, R31). -/
inductive Variant where
  /-- 0: no instance. -/
  | none
  /-- 1: 16-byte key, 11 sub-keys. -/
  | key16
  /-- 2: 24-byte key, 13 sub-keys. -/
  | key24
  /-- 3: 32-byte key, 15 sub-keys. -/
  | key32
  deriving DecidableEq, Repr

/-- `b_phase` (R28, R220). -/
inductive Phase where
  | noKey
  | keyed
  | active
  | finished
  deriving DecidableEq, Repr

/-- Five limb registers, each 32 bits wide (R36 to R38). -/
structure Limbs where
  l0 : Word
  l1 : Word
  l2 : Word
  l3 : Word
  l4 : Word
  deriving DecidableEq, Repr

/-- All limbs 0. -/
def Limbs.zero : Limbs := { l0 := 0, l1 := 0, l2 := 0, l3 := 0, l4 := 0 }

/-- Engine A's instance state (R30 to R34). -/
structure EngineA where
  /-- `a_present` (R30). -/
  present : Bool
  /-- `a_key_valid` (R30). -/
  keyValid : Bool
  /-- `a_variant` (R31). -/
  variant : Variant
  /-- `rk[0..14]` (R32). -/
  rk : Schedule
  /-- `a_nonce` (R33). -/
  nonce : Nonce
  /-- `cs`, the counter state (R34). -/
  cs : Block
  deriving DecidableEq, Repr

/-- Engine A absent, every register zero (R43, R44). -/
def EngineA.reset : EngineA :=
  { present := false, keyValid := false, variant := .none
    rk := Vector.replicate 15 Block.zero, nonce := Vector.replicate 4 0, cs := Block.zero }

/-- Engine B's instance state (R30, R35 to R39). -/
structure EngineB where
  /-- `b_present` (R30). -/
  present : Bool
  /-- `b_phase` (R30, R220). -/
  phase : Phase
  /-- `b_wrap`, sticky (R30, R169). -/
  wrap : Bool
  /-- `m[0..15]` (R35). -/
  m : Matrix
  /-- `r[0..4]`, the update key (R36). -/
  r : Limbs
  /-- `u[0..4]`, its square (R37). -/
  u : Limbs
  /-- `h[0..4]`, the running hash (R38). -/
  h : Limbs
  /-- `s[0..3]`, the finalization mask (R39). -/
  s : Mask
  deriving DecidableEq, Repr

/-- Engine B absent, every register zero (R43, R44). -/
def EngineB.reset : EngineB :=
  { present := false, phase := .noKey, wrap := false, m := Vector.replicate 16 0
    r := Limbs.zero, u := Limbs.zero, h := Limbs.zero, s := Vector.replicate 4 0 }

/-- Buffer memory as address and byte pairs, addresses rising (R50, R51; the form is `Memory.wf`). -/
abbrev Memory := List Host.Cell

/-- One action of the host (R13) between two commands, or the change of an input of the core.
The model's own type: the spec's host is an agent, here its coming actions are a list in the state. -/
inductive HostAction where
  /-- `HostWrite(n, v)`; with n = 0 it executes the command word v (R13, R24). -/
  | write (n : Nat) (v : Word)
  /-- `HostRead(n)` (R13). -/
  | read (n : Nat)
  /-- The host stores a byte in buffer memory (R13, R50). -/
  | store (addr : Word) (b : Byte)
  /-- The host reads a byte of buffer memory (R13, R50). -/
  | load (addr : Word)
  /-- The capability input `CAP_A` changes (R261, R326). -/
  | setCapA (v : Bool)
  /-- The capability input `CAP_B` changes (R261, R326). -/
  | setCapB (v : Bool)
  /-- The core is reset, between two commands (R310, R312). -/
  | reset
  deriving DecidableEq, Repr

/-- What a host action returned to the host. The model's own type. -/
inductive Observation where
  /-- The value of `HostRead(n)`. -/
  | port (n : Nat) (v : Word)
  /-- The byte the host read from buffer memory. -/
  | byte (addr : Word) (b : Byte)
  deriving DecidableEq, Repr

/-- The state of core, buffer memory and host (R20). `CMD`, `STATE_A` and `STATE_B` are no storage (R24, R27, R28). -/
structure State where
  /-- `LAST` (R25). -/
  last : Word
  /-- `RESULT` (R26). -/
  result : Word
  /-- `ARG_SRC` (R21). -/
  argSrc : Word
  /-- `ARG_DST` (R21). -/
  argDst : Word
  /-- `ARG_LEN` (R21). -/
  argLen : Word
  /-- `ARG_AUX` (R21). -/
  argAux : Word
  /-- `ARG_AUXLEN` (R21). -/
  argAuxlen : Word
  /-- Engine A. -/
  engA : EngineA
  /-- Engine B. -/
  engB : EngineB
  /-- Buffer memory, the host's (R50). -/
  mem : Memory
  /-- The level of the input `CAP_A` (R261); an input, not a register (log entry 3). -/
  capA : Bool
  /-- The level of the input `CAP_B` (R261). -/
  capB : Bool
  /-- The host's coming actions, oldest first; the model's own field (log entry 2). -/
  pending : List HostAction
  /-- What the host has been returned, newest first; the model's own field (log entry 2). -/
  seen : List Observation
  deriving DecidableEq, Repr

/-- The machine right after reset (R43, R310): every register and flag 0, both instances absent, nothing listed in
memory. The capability inputs are 1 (DESIGN CHOICE, log entry 3: they are no state of the core and the spec's
programs start so); the host has no action waiting and has seen nothing. -/
def State.reset : State :=
  { last := 0, result := 0
    argSrc := 0, argDst := 0, argLen := 0, argAux := 0, argAuxlen := 0
    engA := EngineA.reset, engB := EngineB.reset
    mem := [], capA := true, capB := true, pending := [], seen := [] }

end Sys2Proof.Machine
end

