-- ==== Sys2Proof/Machine/Flags.lean ====
section
/-! DEFINITION. The flags, their views `STATE_A` and `STATE_B`, the outcome register `LAST` and the numbers a
variant stands for (spec 10_state R25 to R31, 60_exceptions R281 to R283). -/

namespace Sys2Proof.Machine

/-- `ERR`: the code of an error (R281). -/
def CmdError.code : CmdError → Word
  | .illegalCommand => 1
  | .absent => 2
  | .present => 3
  | .alg => 4
  | .keySize => 5
  | .capability => 6
  | .keyLength => 7
  | .ivLength => 8
  | .noKey => 9
  | .notInit => 10
  | .finished => 11

/-- `CLASS`: 2 for a missing capability, 1 for every other error (R281). -/
def CmdError.cls : CmdError → Word
  | .capability => 2
  | .illegalCommand | .absent | .present | .alg | .keySize | .keyLength => 1
  | .ivLength | .noKey | .notInit | .finished => 1

/-- `LAST` after success (R282). -/
def lastOk : Word := 0x80000000

/-- `LAST` after a failure: `zext_32(ERR) | (CLASS << 8)` with `OK` = 0 (R283). -/
def lastErr (e : CmdError) : Word := e.code ||| (e.cls <<< 8)

/-- `LAST.ERR` (R25). -/
def lastField_err (w : Word) : BitVec 8 := w.extractLsb' 0 8

/-- `LAST.CLASS` (R25). -/
def lastField_class (w : Word) : BitVec 2 := w.extractLsb' 8 2

/-- The reserved bits 30:10 of `LAST` (R25). -/
def lastField_reserved (w : Word) : BitVec 21 := w.extractLsb' 10 21

/-- `LAST.OK` (R25). -/
def lastField_ok (w : Word) : Bool := w.getLsbD 31

/-- The value of `a_variant` (R27). -/
def Variant.code : Variant → Word
  | .none => 0
  | .key16 => 1
  | .key24 => 2
  | .key32 => 3

/-- `KS`: the data key size in bytes (R31). The spec gives none without an instance; 0 there (log entry 6). -/
def Variant.ks : Variant → Nat
  | .none => 0
  | .key16 => 16
  | .key24 => 24
  | .key32 => 32

/-- `L`: the schedule length (R31). The spec gives none without an instance; 0 there (log entry 6). -/
def Variant.len : Variant → Nat
  | .none => 0
  | .key16 => 11
  | .key24 => 13
  | .key32 => 15

/-- The variant a key size in bytes selects (R262). -/
def Variant.ofKeySize (n : Word) : Variant :=
  if n = 16 then .key16 else if n = 24 then .key24 else if n = 32 then .key32 else .none

/-- The value of `b_phase` (R28). -/
def Phase.code : Phase → Word
  | .noKey => 0
  | .keyed => 1
  | .active => 2
  | .finished => 3

/-- A flag as a number. -/
def flagBit (b : Bool) : Word := if b then 1 else 0

/-- `STATE_A`: a view of engine A's flags (R27). -/
def stateA (a : EngineA) : Word :=
  flagBit a.present ||| (flagBit a.keyValid <<< 1) ||| (a.variant.code <<< 2)

/-- `STATE_B`: a view of engine B's flags (R28). -/
def stateB (b : EngineB) : Word :=
  flagBit b.present ||| (b.phase.code <<< 1) ||| (flagBit b.wrap <<< 3)

/-- Whether adding k takes a block counter past 2^32 - 1 (R169). -/
def counterWraps (c : Word) (k : Nat) : Bool := decide (2 ^ 32 ≤ c.toNat + k)

end Sys2Proof.Machine
end

