-- ==== Sys2Proof/Machine/Bytes.lean ====
section
/-! DEFINITION. Byte sequences and their conversions to numbers (spec 00_scope R10, 20_memory R52, R53). -/

namespace Sys2Proof.Machine

/-- `LE(b)`: the little-endian number of a byte sequence of any length (R10). -/
def leNat : Bytes → Nat
  | [] => 0
  | b :: bs => b.toNat + 256 * leNat bs

/-- `toLE(v, n)`: the n bytes of v, least significant first (R10). -/
def toLE (v : Nat) : Nat → Bytes
  | 0 => []
  | n + 1 => BitVec.ofNat 8 v :: toLE (v / 256) n

/-- `LE32` (R10). -/
def le32 (bs : Bytes) : Word := BitVec.ofNat 32 (leNat bs)

/-- `toLE32` (R10). -/
def toLE32 (w : Word) : Bytes := toLE w.toNat 4

/-- `BE32` (R10). -/
def be32 (bs : Bytes) : Word := BitVec.ofNat 32 (leNat bs.reverse)

/-- `toBE32` (R10). -/
def toBE32 (w : Word) : Bytes := (toLE w.toNat 4).reverse

/-- `b[i .. i+n-1]` (R10). -/
def slice (bs : Bytes) (i n : Nat) : Bytes := (bs.drop i).take n

/-- `zeros(n)` (R10). -/
def zeros (n : Nat) : Bytes := List.replicate n 0

/-- Bytewise exclusive-or of byte sequences (R10); the rules apply it to equal lengths. -/
def xorBytes (x y : Bytes) : Bytes := List.zipWith (· ^^^ ·) x y

/-- A byte sequence of length n as a register of n bytes. The rules apply it to sequences of that length. -/
def toVec (n : Nat) (bs : Bytes) : Vector Byte n := Vector.ofFn fun i => bs.getD i.val 0

/-- Bytewise exclusive-or of two Blocks (R10). -/
def xorBlock (x y : Block) : Block := Vector.ofFn fun i => x[i] ^^^ y[i]

/-- Word j of a byte string: `LE32` of its bytes 4j to 4j+3 (R53). -/
def wordAt (bs : Bytes) (j : Nat) : Word := le32 (slice bs (4 * j) 4)

end Sys2Proof.Machine
end

