-- ==== Sys2Proof/Machine/Operands.lean ====
section
/-! DEFINITION. The operands of a command: registers read as unsigned numbers and the byte ranges they form
(spec 30_encoding R72, 20_memory R51, R57, R66). -/

namespace Sys2Proof.Machine

/-- A range of buffer memory: a start address and a number of bytes (R66). -/
abbrev Range := Word × Nat

/-- A range has a meaning when it ends at or below 2^32; addresses never wrap (R51). -/
def fits (r : Range) : Bool := decide (r.1.toNat + r.2 ≤ Config.addressLimit)

/-- Two ranges are disjoint (R57); a range of no bytes is disjoint from every range. -/
def disjoint (x y : Range) : Bool :=
  x.2 == 0 || y.2 == 0 || decide (x.1.toNat + x.2 ≤ y.1.toNat) || decide (y.1.toNat + y.2 ≤ x.1.toNat)

/-- Two ranges are compatible when they are identical or disjoint (R57). -/
def compatible (x y : Range) : Bool := (x.1 == y.1 && x.2 == y.2) || disjoint x y

/-- The range at `ARG_SRC` of `ARG_LEN` units of `unit` bytes, the product taken over the naturals (R66, R72). -/
def State.srcRange (s : State) (unit : Nat) : Range := (s.argSrc, unit * s.argLen.toNat)

/-- The range at `ARG_DST` of `ARG_LEN` bytes (R66). -/
def State.dstRange (s : State) : Range := (s.argDst, s.argLen.toNat)

/-- The range at `ARG_AUX` of n bytes: a key or an IV (R66, R72). -/
def State.auxRange (s : State) (n : Nat) : Range := (s.argAux, n)

/-- Where `A_ENCRYPT` and `A_DECRYPT` put their output: the source range when `IP` = 1, else at `ARG_DST` (R71, R133). -/
def State.ctrOutRange (s : State) (inPlace : Bool) : Range :=
  if inPlace then s.srcRange 1 else s.dstRange

end Sys2Proof.Machine
end

