-- ==== Sys2Proof/Machine/Ops.lean ====
section
/-! DEFINITION. The shared operations: buffer memory (spec 20_memory R50, R51), the outcome of a command (R282, R283),
the checks and their order (R130, R221, R291), and the one shape every command has. -/

namespace Sys2Proof.Machine

/-- The answer of a step. -/
abbrev Answer := Host.Outcome State Fault Refusal

/-! ### Buffer memory -/

/-- What an address that nothing has written reads as. The spec leaves the initial contents to the host (R311);
0 here (DESIGN CHOICE, log entry 4). -/
def Memory.unlisted (_addr : Nat) : Byte := 0

/-- `Mem(a)` (R51). -/
def Memory.read : Memory → Nat → Byte
  | [], a => Memory.unlisted a
  | (k, v) :: m, a => if a = k then v else Memory.read m a

/-- `Mem(a) <- b` (R51), keeping the canonical form. -/
def Memory.write : Memory → Nat → Byte → Memory
  | [], a, b => if b = Memory.unlisted a then [] else [(a, b)]
  | (k, v) :: m, a, b =>
    if a < k then (if b = Memory.unlisted a then (k, v) :: m else (a, b) :: (k, v) :: m)
    else if a = k then (if b = Memory.unlisted a then m else (a, b) :: m)
    else (k, v) :: Memory.write m a b

/-- The addresses of a memory rise strictly, all above a bound, and no listed byte is what it would read as unlisted. -/
def Memory.wfFrom : Nat → Memory → Bool
  | _, [] => true
  | lo, (k, v) :: m => decide (lo ≤ k) && decide (v ≠ Memory.unlisted k) && Memory.wfFrom (k + 1) m

/-- The canonical form: addresses strictly rising and below 2^32 (R50), no entry equal to what it would read as unlisted. -/
def Memory.wf (m : Memory) : Bool :=
  Memory.wfFrom 0 m && m.all fun c => decide (c.1 < Config.addressLimit)

/-- `MemRead(addr, n)` on numbers (R51). -/
def Memory.readBytes (m : Memory) (a : Nat) : Nat → Bytes
  | 0 => []
  | n + 1 => m.read a :: Memory.readBytes m (a + 1) n

/-- `MemWrite(addr, len, v)` on numbers (R51). -/
def Memory.writeBytes (m : Memory) (a : Nat) : Bytes → Memory
  | [] => m
  | b :: bs => Memory.writeBytes (m.write a b) (a + 1) bs

/-- `MemRead` of a range (R51). -/
def memRead (s : State) (r : Range) : Bytes := s.mem.readBytes r.1.toNat r.2

/-- `MemWrite` at an address (R51). -/
def memWrite (a : Word) (bs : Bytes) (s : State) : State := { s with mem := s.mem.writeBytes a.toNat bs }

/-! ### The outcome of a command -/

/-- `succeed` (R282). -/
def succeed (s : State) : State := { s with last := lastOk }

/-- `raise`: the whole effect of a failure is a write to `LAST` (R283, R292). Nothing is saved, no mode changes and
no control is transferred, so there is nothing to return from (R293). -/
def raise (e : CmdError) (s : State) : State := { s with last := lastErr e }

/-! ### Checks -/

/-- One check: when the condition holds the command fails with the error. -/
abbrev Check := Bool × CmdError

/-- The error of the first failing check; nothing after it is tested (R291). -/
def firstError : List Check → Option CmdError
  | [] => none
  | (bad, e) :: cs => if bad then some e else firstError cs

/-- `require_present_A` (R130). -/
def requirePresentA (s : State) : List Check := [(!s.engA.present, .absent)]

/-- `require_present_B` (R221). -/
def requirePresentB (s : State) : List Check := [(!s.engB.present, .absent)]

/-- `require_keyed_B` (R221). -/
def requireKeyedB (s : State) : List Check := requirePresentB s ++ [(s.engB.phase == .noKey, .noKey)]

/-- `require_matrix_B` (R165, R221). -/
def requireMatrixB (s : State) : List Check := requireKeyedB s ++ [(s.engB.phase == .keyed, .notInit)]

/-- `require_active_B` (R221). -/
def requireActiveB (s : State) : List Check := requireMatrixB s ++ [(s.engB.phase == .finished, .finished)]

/-! ### Situations the spec refuses -/

/-- One situation without a meaning: when the condition holds the model refuses. -/
abbrev Bar := Bool × Refusal

/-- The first situation that holds. -/
def firstBar : List Bar → Option Refusal
  | [] => none
  | (bad, r) :: bs => if bad then some r else firstBar bs

/-- A range must fit below 2^32 (R51, U3). -/
def mustFit (r : Range) : Bar := (!fits r, .rangePastTop)

/-- Two ranges must be compatible (R57, U4). -/
def mustBeCompatible (x y : Range) : Bar := (!compatible x y, .partialOverlap)

/-! ### The shape of a command -/

/-- A command: its checks in order, each of which fails it without any other effect (R283); then, since buffer memory is
accessed only after all checks have passed (R66), the situations the spec refuses; then its effect and `succeed`. -/
def command (checks : List Check) (bars : List Bar) (effect : State → State) (s : State) : Answer :=
  match firstError checks with
  | some e => .next (raise e s)
  | none =>
    match firstBar bars with
    | some r => .refused r
    | none => .next (succeed (effect s))

/-- `RESULT <- v`, the effect of a query (R26). -/
def setResult (v : Word) (s : State) : State := { s with result := v }

end Sys2Proof.Machine
end

