-- ==== Sys2Proof/Machine/Keystream.lean ====
section
/-! DEFINITION. Component 4, the Keystream Generator, and its two commands (spec 43_keystream). -/

namespace Sys2Proof.Machine

/-- `rotl32(x, n)` for 0 < n < 32 (R11). -/
def rotl32 (x : Word) (n : Nat) : Word := (x <<< n) + (x >>> (32 - n))

/-- One line of the quarter-round: `x[a] <- add32(x[a], x[b]); x[d] <- rotl32(x[d] XOR x[a], n)` (R161). -/
def arx (a b d : Fin 16) (n : Nat) (x : Matrix) : Matrix :=
  let y := x.set a (add32 x[a] x[b])
  y.set d (rotl32 (y[d] ^^^ y[a]) n)

/-- `QR(x, a, b, c, d)`: rotations 16, 12, 8, 7 (R161). -/
def quarterRound (a b c d : Fin 16) (x : Matrix) : Matrix :=
  arx c d b 7 (arx a b d 8 (arx c d b 12 (arx a b d 16 x)))

/-- The four column quarter-rounds (R162). -/
def columnRound (x : Matrix) : Matrix :=
  quarterRound 3 7 11 15 (quarterRound 2 6 10 14 (quarterRound 1 5 9 13 (quarterRound 0 4 8 12 x)))

/-- The four diagonal quarter-rounds (R162). -/
def diagonalRound (x : Matrix) : Matrix :=
  quarterRound 3 4 9 14 (quarterRound 2 7 8 13 (quarterRound 1 6 11 12 (quarterRound 0 5 10 15 x)))

/-- `DoubleRound`: four columns, then four diagonals (R162, conflict C5). -/
def doubleRound (x : Matrix) : Matrix := diagonalRound (columnRound x)

/-- n double-rounds (R163). -/
def doubleRounds : Nat → Matrix → Matrix
  | 0, x => x
  | n + 1, x => doubleRounds n (doubleRound x)

/-- The words of a matrix as bytes: `toLE32` of each, in index order (R163). -/
def matrixBytes (x : Matrix) : Bytes := x.toList.flatMap toLE32

/-- `ChaChaCore(mm)`: ten double-rounds on a copy, the original added back, 64 bytes (R163). -/
def chachaCore (mm : Matrix) : Bytes :=
  let x := doubleRounds Config.doubleRounds mm
  matrixBytes (Vector.ofFn fun i => add32 x[i] mm[i])

/-- The matrix with block counter c: word 12 replaced (R35, R160). -/
def withCounter (m : Matrix) (c : Word) : Matrix := m.set 12 c

/-- `CtrAdd(k)`: the counter plus k modulo 2^32, the sticky `b_wrap` set when it passes 2^32 - 1 (R169). -/
def ctrAdd (k : Nat) (b : EngineB) : EngineB :=
  { b with
    wrap := b.wrap || counterWraps b.m[12] k
    m := withCounter b.m (add32 b.m[12] (BitVec.ofNat 32 k)) }

/-- `KsBlock()` (R164). -/
def ksBlock (b : EngineB) : Bytes × EngineB := (chachaCore b.m, ctrAdd 1 b)

/-- Lane i of the four-block path: its own matrix with counter base + i modulo 2^32 (R167). -/
def ksLane (m : Matrix) (i : Nat) : Bytes := chachaCore (withCounter m (add32 m[12] (BitVec.ofNat 32 i)))

/-- `KsBlock4()` (R167). -/
def ksBlock4 (b : EngineB) : Bytes × EngineB :=
  (ksLane b.m 0 ++ ksLane b.m 1 ++ ksLane b.m 2 ++ ksLane b.m 3, ctrAdd 4 b)

/-- The effect of a keystream command: n bytes at `ARG_SRC` are XORed in place with the keystream (R166, R168). -/
def keystreamEffect (n : Nat) (ks : EngineB → Bytes × EngineB) (s : State) : State :=
  let d := memRead s (s.argSrc, n)
  let k := ks s.engB
  memWrite s.argSrc (xorBytes d k.1) { s with engB := k.2 }

/-- `B_CHACHA_BLOCK` (R166). -/
def execBChachaBlock (s : State) : Answer :=
  command (requireMatrixB s) [mustFit (s.argSrc, 64)] (keystreamEffect 64 ksBlock) s

/-- `B_CHACHA_4BLOCK` (R168). -/
def execBChacha4Block (s : State) : Answer :=
  command (requireMatrixB s) [mustFit (s.argSrc, 256)] (keystreamEffect 256 ksBlock4) s

end Sys2Proof.Machine
end

