-- ==== Sys2Proof/Machine/Mac.lean ====
section
/-! DEFINITION. Component 5, the Polynomial MAC Accumulator, and `B_MAC_UPDATE` (spec 44_mac_accumulator). -/

namespace Sys2Proof.Machine

/-- `val(x)`: five limbs, radix 2^26 (R40). -/
def Limbs.val (x : Limbs) : Nat :=
  x.l0.toNat + 2 ^ 26 * x.l1.toNat + 2 ^ 52 * x.l2.toNat + 2 ^ 78 * x.l3.toNat + 2 ^ 104 * x.l4.toNat

/-- The limbs of a number below 2^130: limb i holds bits 26i to 26i+25 (R190). -/
def Limbs.ofVal (v : Nat) : Limbs :=
  { l0 := BitVec.ofNat 32 (v % 2 ^ 26)
    l1 := BitVec.ofNat 32 (v / 2 ^ 26 % 2 ^ 26)
    l2 := BitVec.ofNat 32 (v / 2 ^ 52 % 2 ^ 26)
    l3 := BitVec.ofNat 32 (v / 2 ^ 78 % 2 ^ 26)
    l4 := BitVec.ofNat 32 (v / 2 ^ 104) }

/-- Every limb is below 2^26 and the value below P (R40). -/
def Limbs.canonical (x : Limbs) : Bool :=
  decide (x.l0.toNat < 2 ^ 26) && decide (x.l1.toNat < 2 ^ 26) && decide (x.l2.toNat < 2 ^ 26) &&
    decide (x.l3.toNat < 2 ^ 26) && decide (x.l4.toNat < 2 ^ 26) && decide (x.val < Config.prime)

/-- `S`: the mask as a number (R39). -/
def maskVal (s : Mask) : Nat :=
  s[0].toNat + 2 ^ 32 * s[1].toNat + 2 ^ 64 * s[2].toNat + 2 ^ 96 * s[3].toNat

/-- `BlockVal(b)`: the little-endian number with the implicit bit 2^128 (R191). -/
def blockVal (b : Bytes) : Nat := 2 ^ 128 + leNat b

/-- `H <- v`: the canonical limbs of v mod P (R190). -/
def setHash (v : Nat) (b : EngineB) : EngineB := { b with h := Limbs.ofVal (v % Config.prime) }

/-- `MacInit(k)`: r from bytes 0 to 15, clamped; s from bytes 16 to 31; u = r^2 mod P; h zeroed (R193, R194). -/
def macInit (k : Bytes) (b : EngineB) : EngineB :=
  let r := leNat (slice k 0 16) &&& Config.clamp
  { b with
    r := Limbs.ofVal r
    s := Vector.ofFn fun j => wordAt (slice k 16 16) j.val
    u := Limbs.ofVal (r * r % Config.prime)
    h := Limbs.zero }

/-- `AbsorbOne(b)` (R195). -/
def absorbOne (blk : Bytes) (b : EngineB) : EngineB :=
  setHash ((b.h.val + blockVal blk) * b.r.val) b

/-- `AbsorbPair(b0, b1)` (R196). -/
def absorbPair (blk0 blk1 : Bytes) (b : EngineB) : EngineB :=
  setHash ((b.h.val + blockVal blk0) * b.u.val + blockVal blk1 * b.r.val) b

/-- n pairs of blocks, one pair after another (R198). -/
def macPairs : Nat → Bytes → EngineB → EngineB
  | 0, _, b => b
  | n + 1, d, b => macPairs n (d.drop 32) (absorbPair (d.take 16) (slice d 16 16) b)

/-- `MacUpdate(d, n)`: pairs, then an odd trailing block singly (R198). -/
def macUpdate (n : Nat) (d : Bytes) (b : EngineB) : EngineB :=
  let p := macPairs (n / 2) d b
  if n % 2 = 1 then absorbOne (slice d (32 * (n / 2)) 16) p else p

/-- `MacFinish()`: the tag, by value (R201). -/
def macFinish (b : EngineB) : Bytes :=
  toLE ((b.h.val % Config.prime % 2 ^ 128 + maskVal b.s) % 2 ^ 128) 16

/-- `B_MAC_UPDATE` (R200). -/
def execBMacUpdate (s : State) : Answer :=
  command (requireActiveB s) [mustFit (s.srcRange 16)]
    (fun s => { s with engB := macUpdate s.argLen.toNat (memRead s (s.srcRange 16)) s.engB }) s

/-! ### The limb-level finish of the source (R202) -/

/-- `M` = 0x3FFFFFF. -/
def limbMask : Word := 0x3FFFFFF

/-- A carry out of limb 4 comes back at limb 0 as five times itself, 2^130 being 5 modulo P (R202). -/
def timesFive (x : Word) : Word := (5 : Word) * x

/-- Step 1: carries propagated across all five limbs, the carry out of limb 4 folded in as 5 (R202). -/
def propagate (h : Limbs) : Limbs :=
  let l1 := h.l1 + (h.l0 >>> 26)
  let l2 := h.l2 + (l1 >>> 26)
  let l3 := h.l3 + (l2 >>> 26)
  let l4 := h.l4 + (l3 >>> 26)
  let k0 := (h.l0 &&& limbMask) + timesFive (l4 >>> 26)
  let k1 := (l1 &&& limbMask) + (k0 >>> 26)
  let k2 := (l2 &&& limbMask) + (k1 >>> 26)
  let k3 := (l3 &&& limbMask) + (k2 >>> 26)
  let k4 := (l4 &&& limbMask) + (k3 >>> 26)
  let j0 := (k0 &&& limbMask) + timesFive (k4 >>> 26)
  { l0 := j0 &&& limbMask
    l1 := (k1 &&& limbMask) + (j0 >>> 26)
    l2 := k2 &&& limbMask
    l3 := k3 &&& limbMask
    l4 := k4 &&& limbMask }

/-- Step 2: g = h + 5 - 2^130, limb by limb; limb 4 modulo 2^32 (R202). -/
def lessPrime (h : Limbs) : Limbs :=
  let g0 := h.l0 + (5 : Word)
  let g1 := h.l1 + (g0 >>> 26)
  let g2 := h.l2 + (g1 >>> 26)
  let g3 := h.l3 + (g2 >>> 26)
  { l0 := g0 &&& limbMask, l1 := g1 &&& limbMask, l2 := g2 &&& limbMask, l3 := g3 &&& limbMask
    l4 := h.l4 + (g3 >>> 26) - (0x4000000 : Word) }

/-- Step 3: a branchless select by the sign of g (R202, R329). -/
def selectReduced (h g : Limbs) : Limbs :=
  let mask := (g.l4 >>> 31) - (1 : Word)
  { l0 := (h.l0 &&& ~~~mask) ||| (g.l0 &&& mask)
    l1 := (h.l1 &&& ~~~mask) ||| (g.l1 &&& mask)
    l2 := (h.l2 &&& ~~~mask) ||| (g.l2 &&& mask)
    l3 := (h.l3 &&& ~~~mask) ||| (g.l3 &&& mask)
    l4 := (h.l4 &&& ~~~mask) ||| (g.l4 &&& mask) }

/-- The source's four stages on a copy of h, which may be lazily carried; the architectural h does not change (R201, R202). -/
def macFinishLimbs (h : Limbs) (s : Mask) : Bytes :=
  let p := propagate h
  toLE (((selectReduced p (lessPrime p)).val % 2 ^ 128 + maskVal s) % 2 ^ 128) 16

end Sys2Proof.Machine
end

