-- ==== Sys2Proof/Machine/Aead.lean ====
section
/-! DEFINITION. Component 6, the Combined AEAD Driver: engine B's commands but for its factory, the keystream commands
and `B_MAC_UPDATE` (spec 45_aead_driver). -/

namespace Sys2Proof.Machine

/-! ### B_SET_KEY -/

/-- The matrix of a key: the fixed row, the key in rows 1 and 2, row 3 zero (R160, R222). -/
def keyMatrix (k : Bytes) : Matrix :=
  Vector.ofFn fun j =>
    if j.val < 4 then Config.sigma.toList.getD j.val 0
    else if j.val < 12 then wordAt k (j.val - 4)
    else 0

/-- The effect of `B_SET_KEY` on engine B (R222). -/
def keyEngineB (k : Bytes) (b : EngineB) : EngineB :=
  { b with
    m := keyMatrix k
    r := Limbs.zero, u := Limbs.zero, h := Limbs.zero, s := Vector.replicate 4 0
    wrap := false, phase := .keyed }

/-- `B_SET_KEY` (R222). -/
def execBSetKey (s : State) : Answer :=
  command (requirePresentB s ++ [(s.argAuxlen.toNat != Config.aeadKeyLen, .keyLength)])
    [mustFit (s.auxRange Config.aeadKeyLen)]
    (fun s => { s with engB := keyEngineB (memRead s (s.auxRange Config.aeadKeyLen)) s.engB }) s

/-! ### B_INIT -/

/-- Row 3 for a new message: counter 0 and the three nonce words (R224, R225). -/
def nonceRow (iv : Bytes) (m : Matrix) : Matrix :=
  (((m.set 12 0).set 13 (wordAt iv 0)).set 14 (wordAt iv 1)).set 15 (wordAt iv 2)

/-- The effect of `B_INIT` on engine B: keystream block 0 gives the MAC key, bytes 32 to 63 are discarded (R224 to R226). -/
def initEngineB (iv : Bytes) (b : EngineB) : EngineB :=
  let k := ksBlock { b with m := nonceRow iv b.m, wrap := false }
  { macInit (slice k.1 0 32) k.2 with phase := .active }

/-- `B_INIT` (R224). -/
def execBInit (s : State) : Answer :=
  command (requireKeyedB s ++ [(s.argAuxlen.toNat != Config.aeadIvLen, .ivLength)])
    [mustFit (s.auxRange Config.aeadIvLen)]
    (fun s => { s with engB := initEngineB (memRead s (s.auxRange Config.aeadIvLen)) s.engB }) s

/-! ### B_ENCRYPT and B_DECRYPT -/

/-- One chunk of `B_ENCRYPT`: keystream in, then the ciphertext absorbed as n MAC blocks (generate, then absorb: R228). -/
def encChunk (ks : EngineB → Bytes × EngineB) (n : Nat) (d : Bytes) (b : EngineB) : Bytes × EngineB :=
  let k := ks b
  let c := xorBytes d k.1
  (c, macUpdate n c k.2)

/-- One chunk of `B_DECRYPT`: the ciphertext absorbed as n MAC blocks, then the keystream removed (absorb, then generate: R230). -/
def decChunk (ks : EngineB → Bytes × EngineB) (n : Nat) (d : Bytes) (b : EngineB) : Bytes × EngineB :=
  let k := ks (macUpdate n d b)
  (xorBytes d k.1, k.2)

/-- n chunks of `len` bytes one after another: the output, the engine after, and the input left (R228, R230). -/
def chunks (step : Bytes → EngineB → Bytes × EngineB) (len : Nat) : Nat → Bytes → EngineB → Bytes × EngineB × Bytes
  | 0, d, b => ([], b, d)
  | n + 1, d, b =>
    let c := step (d.take len) b
    let rest := chunks step len n (d.drop len) c.2
    (c.1 ++ rest.1, rest.2)

/-- Four-block groups as long as four blocks are left, then single blocks: output and engine after (R228, R230). -/
def aeadTransform (group single : Bytes → EngineB → Bytes × EngineB) (n : Nat) (d : Bytes) (b : EngineB) :
    Bytes × EngineB :=
  let g := chunks group 256 (n / 4) d b
  let t := chunks single 64 (n % 4) g.2.2 g.2.1
  (g.1 ++ t.1, t.2.1)

/-- The transform of `B_ENCRYPT` on n 64-byte blocks (R228). It XORs the keystream run that `decTransform` XORs and absorbs
its output, which `decTransform` takes as its input: so the two end in equal engine state (R231). -/
def encTransform (n : Nat) (d : Bytes) (b : EngineB) : Bytes × EngineB :=
  aeadTransform (encChunk ksBlock4 16) (encChunk ksBlock 4) n d b

/-- The transform of `B_DECRYPT` on n 64-byte blocks (R230). On the output of `encTransform`, from the same engine state, it
gives back the input and ends in the same engine state (R231). -/
def decTransform (n : Nat) (d : Bytes) (b : EngineB) : Bytes × EngineB :=
  aeadTransform (decChunk ksBlock4 16) (decChunk ksBlock 4) n d b

/-- The effect of `B_ENCRYPT` and `B_DECRYPT`: the input is taken as a snapshot, transformed and written back in place. -/
def aeadEffect (f : Nat → Bytes → EngineB → Bytes × EngineB) (s : State) : State :=
  let t := f s.argLen.toNat (memRead s (s.srcRange 64)) s.engB
  memWrite s.argSrc t.1 { s with engB := t.2 }

/-- `B_ENCRYPT` (R228, R231). -/
def execBEncrypt (s : State) : Answer :=
  command (requireActiveB s) [mustFit (s.srcRange 64)] (aeadEffect encTransform) s

/-- `B_DECRYPT` (R230, R231). -/
def execBDecrypt (s : State) : Answer :=
  command (requireActiveB s) [mustFit (s.srcRange 64)] (aeadEffect decTransform) s

/-! ### B_FINISH -/

/-- The effect of `B_FINISH`: the tag at `ARG_DST`, the phase `FINISHED`; h, r, u, s and m stay (R232). -/
def finishEffect (s : State) : State :=
  memWrite s.argDst (macFinish s.engB) { s with engB := { s.engB with phase := .finished } }

/-- `B_FINISH` (R232). -/
def execBFinish (s : State) : Answer :=
  command (requireActiveB s) [mustFit (s.argDst, Config.icvLen)] finishEffect s

/-! ### Queries and B_DESTROY -/

/-- `B_GET_IV_SIZE` (R234). -/
def execBGetIvSize (s : State) : Answer :=
  command (requirePresentB s) [] (setResult (BitVec.ofNat 32 Config.aeadIvLen)) s

/-- `B_GET_BLOCK_SIZE` (R235). -/
def execBGetBlockSize (s : State) : Answer :=
  command (requirePresentB s) [] (setResult Config.aeadBlockSize) s

/-- `B_GET_ICV_SIZE` (R236). -/
def execBGetIcvSize (s : State) : Answer :=
  command (requirePresentB s) [] (setResult (BitVec.ofNat 32 Config.icvLen)) s

/-- Engine B erased: matrix, limbs and mask zero, the flags and the phase 0 (R203, R237). -/
def EngineB.erased (b : EngineB) : EngineB :=
  { b with
    m := Vector.replicate 16 0
    r := Limbs.zero, u := Limbs.zero, h := Limbs.zero, s := Vector.replicate 4 0
    wrap := false, phase := .noKey, present := false }

/-- `B_DESTROY` (R237). -/
def execBDestroy (s : State) : Answer :=
  command (requirePresentB s) [] (fun s => { s with engB := s.engB.erased }) s

end Sys2Proof.Machine
end

