-- ==== Sys2Proof/Machine/Construct.lean ====
section
/-! DEFINITION. The construction commands and the feature gate (spec 46_construct_gate). -/

namespace Sys2Proof.Machine

/-- `RESULT` is 0 until every check of a factory has passed (R262, R263). -/
def clearResult (s : State) : State := { s with result := 0 }

/-- `A_CONSTRUCT`: a present instance fails with `Present` and leaves `RESULT`; otherwise `RESULT <- 0`, then identifier,
key size and capability in this order, the one sampling of `CAP_A` (R260, R262). -/
def execAConstruct (s : State) : Answer :=
  if s.engA.present then .next (raise .present s)
  else
    command
      [(s.argAux != Config.algCtr, .alg), (Variant.ofKeySize s.argAuxlen == .none, .keySize), (!s.capA, .capability)] []
      (fun s => setResult 1
        { s with engA :=
          { s.engA with present := true, keyValid := false, variant := Variant.ofKeySize s.argAuxlen } })
      (clearResult s)

/-- `B_CONSTRUCT` (R263), in the same order with the one sampling of `CAP_B`. -/
def execBConstruct (s : State) : Answer :=
  if s.engB.present then .next (raise .present s)
  else
    command
      [(s.argAux != Config.algAead, .alg), (s.argAuxlen.toNat != Config.aeadKeyLen, .keySize), (!s.capB, .capability)] []
      (fun s => setResult 1
        { s with engB := { s.engB with present := true, phase := .noKey, wrap := false } })
      (clearResult s)

end Sys2Proof.Machine
end

