-- ==== Sys2Proof/Machine/Aes.lean ====
section
/-! DEFINITION. The standard instantiation of the block cipher (spec 41_round_engine part 2, R110 to R117).
PRESUMED (log entry 1): the spec supplies it from general knowledge and leaves the three functions open. -/

namespace Sys2Proof.Machine

/-- The rows of `SBOX`, row v[7:4], its sixteen bytes from column 0 on the left (R111). -/
def sboxRows : List (BitVec 128) :=
  [0x637C777BF26B6FC53001672BFED7AB76, 0xCA82C97DFA5947F0ADD4A2AF9CA472C0,
   0xB7FD9326363FF7CC34A5E5F171D83115, 0x04C723C31896059A071280E2EB27B275] ++
  [0x09832C1A1B6E5AA0523BD6B329E32F84, 0x53D100ED20FCB15B6ACBBE394A4C58CF,
   0xD0EFAAFB434D338545F9027F503C9FA8, 0x51A3408F929D38F5BCB6DA2110FFF3D2] ++
  [0xCD0C13EC5F974417C4A77E3D645D1973, 0x60814FDC222A908846EEB814DE5E0BDB,
   0xE0323A0A4906245CC2D3AC629195E479, 0xE7C8376D8DD54EA96C56F4EA657AAE08] ++
  [0xBA78252E1CA6B4C6E8DD741F4BBD8B8A, 0x703EB5664803F60E613557B986C11D9E,
   0xE1F8981169D98E949B1E87E9CE5528DF, 0x8CA1890DBFE6426841992D0FB054BB16]

/-- `SBOX[v]`: row v[7:4], column v[3:0] (R111). -/
def sbox (v : Byte) : Byte :=
  (sboxRows.getD (v.toNat / 16) 0).extractLsb' (8 * (15 - v.toNat % 16)) 8

/-- `mul(a, 2)` in GF(2^8) (R114). -/
def mul2 (a : Byte) : Byte := if 0x80 ≤ a.toNat then (a <<< 1) ^^^ 0x1B else a <<< 1

/-- `mul(a, 3)` (R114). -/
def mul3 (a : Byte) : Byte := mul2 a ^^^ a

/-- `SubBytes` (R112). -/
def subBytes (t : Block) : Block := Vector.ofFn fun i => sbox t[i]

/-- `ShiftRows`: row rw of the column-major array is rotated left by rw places (R110, R113). -/
def shiftRows (t : Block) : Block :=
  Vector.ofFn fun i => t.toList.getD (i.val % 4 + 4 * ((i.val / 4 + i.val % 4) % 4)) 0

/-- One column of `MixColumns` (R114). -/
def mixColumn (a0 a1 a2 a3 : Byte) : Bytes :=
  [mul2 a0 ^^^ mul3 a1 ^^^ a2 ^^^ a3,
   a0 ^^^ mul2 a1 ^^^ mul3 a2 ^^^ a3,
   a0 ^^^ a1 ^^^ mul2 a2 ^^^ mul3 a3,
   mul3 a0 ^^^ a1 ^^^ a2 ^^^ mul2 a3]

/-- `MixColumns`: every column (R114). -/
def mixColumns (t : Block) : Block :=
  toVec 16 (mixColumn t[0] t[1] t[2] t[3] ++ mixColumn t[4] t[5] t[6] t[7] ++
    mixColumn t[8] t[9] t[10] t[11] ++ mixColumn t[12] t[13] t[14] t[15])

/-- `SPRound` (R115). -/
def aesRound (t k : Block) : Block := xorBlock (mixColumns (shiftRows (subBytes t))) k

/-- `SPFinal`: no `MixColumns` (R116). -/
def aesFinal (t k : Block) : Block := xorBlock (shiftRows (subBytes t)) k

/-- The word `t` of the key expansion before it is combined (R117): for i a multiple of Nk rotated, substituted and
combined with the round constant; for Nk = 8 and i = 4 modulo 8 substituted; else unchanged. -/
def expandWord (nk i : Nat) (rc : Byte) (t : Bytes) : Bytes :=
  if i % nk = 0 then xorBytes ((t.drop 1 ++ t.take 1).map sbox) [rc, 0, 0, 0]
  else if nk = 8 ∧ i % nk = 4 then t.map sbox
  else t

/-- The words from index i on, n of them, given the words before, newest first (R117). -/
def expandWords (nk : Nat) : Nat → Nat → Byte → List Bytes → List Bytes
  | 0, _, _, ws => ws
  | n + 1, i, rc, ws =>
    let w := xorBytes (ws.getD (nk - 1) []) (expandWord nk i rc (ws.getD 0 []))
    expandWords nk n (i + 1) (if i % nk = 0 then mul2 rc else rc) (w :: ws)

/-- The first Nk words: the key itself, in order (R117). -/
def keyWords (key : Bytes) (nk : Nat) : List Bytes := (List.range nk).map fun i => slice key (4 * i) 4

/-- `KeyExpand(key)`: Nk = len / 4, L = Nk + 7, sub-key j being words 4j to 4j+3 (R117). -/
def aesKeyExpand (key : Bytes) : List Block :=
  let nk := key.length / 4
  let len := nk + 7
  let ws := (expandWords nk (4 * len - nk) nk 1 (keyWords key nk).reverse).reverse
  (List.range len).map fun j =>
    toVec 16 (ws.getD (4 * j) [] ++ ws.getD (4 * j + 1) [] ++ ws.getD (4 * j + 2) [] ++ ws.getD (4 * j + 3) [])

/-- The cipher the machine runs: AES (PRESUMED, log entry 1). -/
def aes : Config.Cipher := { spRound := aesRound, spFinal := aesFinal, keyExpand := aesKeyExpand }

end Sys2Proof.Machine
end

