-- ==== Sys2Proof/Machine/Codec.lean ====
section
/-! DEFINITION. Component 1, the Counter-State Codec (spec 40_counter_state_codec). -/

namespace Sys2Proof.Machine

/-- `CsEncode(nonce, iv, c)` (R90, R91). -/
def csEncode (nonce : Nonce) (iv : CtrIv) (c : Word) : Block :=
  toVec 16 (nonce.toList ++ iv.toList ++ toBE32 c)

/-- `CsDecode(b)` (R92). -/
def csDecode (b : Block) : Nonce × CtrIv × Word :=
  (toVec 4 (slice b.toList 0 4), toVec 8 (slice b.toList 4 8), be32 (slice b.toList 12 4))

/-- `CsInit(nonce, iv)`: counter 1 (R93). -/
def csInit (nonce : Nonce) (iv : CtrIv) : Block := csEncode nonce iv Config.ctrInit

/-- `CsIncr(b)`: the counter plus 1 modulo 2^32, nonce and IV unchanged (R94). -/
def csIncr (b : Block) : Block :=
  let d := csDecode b
  csEncode d.1 d.2.1 (add32 d.2.2 1)

end Sys2Proof.Machine
end

