-- ==== Sys2Proof/Machine/RoundEngine.lean ====
section
/-! DEFINITION. Component 2, the Block-Cipher Round Engine, for any cipher (spec 41_round_engine part 1). -/

namespace Sys2Proof.Machine

open Sys2Proof.Config (Cipher)

/-- `rk[i]` (R32). -/
def subKey (rk : Schedule) (i : Nat) : Block := rk.toList.getD i Block.zero

/-- n middle rounds of one Block, the first with sub-key i (R101). -/
def middle1 (C : Cipher) (rk : Schedule) : Nat → Nat → Block → Block
  | 0, _, t => t
  | n + 1, i, t => middle1 C rk n (i + 1) (C.spRound t (subKey rk i))

/-- `Rounds1(rk, L, x)`: XOR with sub-key 0, L - 2 middle rounds, the final round with sub-key L - 1 (R101, R102). -/
def rounds1 (C : Cipher) (rk : Schedule) (len : Nat) (x : Block) : Block :=
  C.spFinal (middle1 C rk (len - 2) 1 (xorBlock x (subKey rk 0))) (subKey rk (len - 1))

/-- The same operation on each of the four lanes; lanes exchange no data (R103, R107). -/
def onLanes (f : Block → Block) (x : Lanes) : Lanes := Vector.ofFn fun j => f x[j]

/-- n middle rounds of four lanes, every lane advanced through round i before round i + 1 (R103). -/
def middle4 (C : Cipher) (rk : Schedule) : Nat → Nat → Lanes → Lanes
  | 0, _, t => t
  | n + 1, i, t => middle4 C rk n (i + 1) (onLanes (fun x => C.spRound x (subKey rk i)) t)

/-- `Rounds4`: the interleaved path, sharing each sub-key among the lanes (R103). -/
def rounds4 (C : Cipher) (rk : Schedule) (len : Nat) (x : Lanes) : Lanes :=
  onLanes (fun t => C.spFinal t (subKey rk (len - 1)))
    (middle4 C rk (len - 2) 1 (onLanes (fun t => xorBlock t (subKey rk 0)) x))

end Sys2Proof.Machine
end

