-- ==== Sys2Proof/Machine/CtrDriver.lean ====
section
/-! DEFINITION. Component 3, the Counter-Mode Driver: engine A's commands but for its factory (spec 42_ctr_driver). -/

namespace Sys2Proof.Machine

open Sys2Proof.Config (Cipher)

/-! ### A_SET_KEY -/

/-- The schedule registers from the expander's answer: sub-keys 0 to L - 1, the rest zero (R131, R32). -/
def loadSchedule (len : Nat) (sched : List Block) : Schedule :=
  Vector.ofFn fun i => if i.val < len then sched.getD i.val Block.zero else Block.zero

/-- The effect of `A_SET_KEY` on engine A, k being the key material: the leading KS bytes are the data key, the trailing
4 the nonce; any prior schedule is discarded; `cs` is not touched (R131). -/
def installKey (C : Cipher) (k : Bytes) (a : EngineA) : EngineA :=
  { a with
    nonce := toVec 4 (slice k a.variant.ks 4)
    rk := loadSchedule a.variant.len (C.keyExpand (slice k 0 a.variant.ks))
    keyValid := true }

/-- The length of the key operand of engine A: the data key and the nonce (R131, R142). -/
def keyOperandLen (s : State) : Nat := s.engA.variant.ks + Config.nonceLen

/-- `A_SET_KEY` for any cipher (R131). -/
def setKeyWith (C : Cipher) (s : State) : Answer :=
  command (requirePresentA s ++ [(s.argAuxlen.toNat != keyOperandLen s, .keyLength)])
    [mustFit (s.auxRange (keyOperandLen s))]
    (fun s => { s with engA := installKey C (memRead s (s.auxRange (keyOperandLen s))) s.engA }) s

/-- `A_SET_KEY` (R131). -/
def execASetKey (s : State) : Answer := setKeyWith aes s

/-! ### A_ENCRYPT and A_DECRYPT -/

/-- The four lanes of a group: the counter state advanced 0, 1, 2 and 3 times (R135). -/
def laneStates (cs : Block) : Lanes :=
  #v[cs, csIncr cs, csIncr (csIncr cs), csIncr (csIncr (csIncr cs))]

/-- The bytes of four lanes in order. -/
def laneBytes (y : Lanes) : Bytes := y[0].toList ++ y[1].toList ++ y[2].toList ++ y[3].toList

/-- n four-block groups: the output bytes, the counter state after, and the input left (R133, R135). -/
def ctrGroups (C : Cipher) (rk : Schedule) (len : Nat) : Nat → Block → Bytes → Bytes × Block × Bytes
  | 0, cs, inp => ([], cs, inp)
  | n + 1, cs, inp =>
    let out := xorBytes (laneBytes (rounds4 C rk len (laneStates cs))) (inp.take 64)
    let rest := ctrGroups C rk len n (csIncr (csIncr (csIncr (csIncr cs)))) (inp.drop 64)
    (out ++ rest.1, rest.2)

/-- n single blocks: the output bytes, the counter state after, and the input left (R133, R136). -/
def ctrSingles (C : Cipher) (rk : Schedule) (len : Nat) : Nat → Block → Bytes → Bytes × Block × Bytes
  | 0, cs, inp => ([], cs, inp)
  | n + 1, cs, inp =>
    let out := xorBytes (rounds1 C rk len cs).toList (inp.take 16)
    let rest := ctrSingles C rk len n (csIncr cs) (inp.drop 16)
    (out ++ rest.1, rest.2)

/-- The partial block: a zero-padded copy is processed and only the valid prefix kept; no bytes, no block (R133, R137, R138). -/
def ctrPartial (C : Cipher) (rk : Schedule) (len : Nat) (cs : Block) (inp : Bytes) : Bytes × Block :=
  if inp.length = 0 then ([], cs)
  else
    let pad := inp ++ zeros (16 - inp.length)
    ((xorBytes (rounds1 C rk len cs).toList pad).take inp.length, csIncr cs)

/-- The transform of `A_ENCRYPT` and `A_DECRYPT` from a counter state and an input: output and counter state after
(R133): floor(n / 64) groups, floor((n mod 64) / 16) single blocks, the partial block. -/
def ctrTransform (C : Cipher) (rk : Schedule) (len : Nat) (cs : Block) (inp : Bytes) : Bytes × Block :=
  let g := ctrGroups C rk len (inp.length / 64) cs inp
  let b := ctrSingles C rk len (inp.length % 64 / 16) g.2.1 g.2.2
  let p := ctrPartial C rk len b.2.1 b.2.2
  (g.1 ++ b.1 ++ p.1, p.2)

/-- The IV operand of `A_ENCRYPT` and `A_DECRYPT` (R132). -/
def ctrIv (s : State) : CtrIv := toVec 8 (memRead s (s.auxRange Config.ctrIvLen))

/-- The effect of `A_ENCRYPT` and `A_DECRYPT`: the IV is read and the input taken as a snapshot before any byte is
written (R57, R132, R133). -/
def ctrEffect (C : Cipher) (inPlace : Bool) (s : State) : State :=
  let t := ctrTransform C s.engA.rk s.engA.variant.len (csInit s.engA.nonce (ctrIv s)) (memRead s (s.srcRange 1))
  memWrite (s.ctrOutRange inPlace).1 t.1 { s with engA := { s.engA with cs := t.2 } }

/-- `A_ENCRYPT` and `A_DECRYPT` for any cipher (R133, R139). -/
def cryptWith (C : Cipher) (inPlace : Bool) (s : State) : Answer :=
  command
    (requirePresentA s ++
      [(!s.engA.keyValid, .noKey), (s.argAuxlen.toNat != Config.ctrIvLen, .ivLength)])
    [mustFit (s.auxRange Config.ctrIvLen), mustFit (s.srcRange 1), mustFit (s.ctrOutRange inPlace),
      mustBeCompatible (s.srcRange 1) (s.ctrOutRange inPlace)]
    (ctrEffect C inPlace) s

/-- `A_ENCRYPT` (R133). -/
def execAEncrypt (inPlace : Bool) (s : State) : Answer := cryptWith aes inPlace s

/-- `A_DECRYPT`: exactly `A_ENCRYPT` (R75, R139). -/
def execADecrypt (inPlace : Bool) (s : State) : Answer := cryptWith aes inPlace s

/-! ### Queries and A_DESTROY -/

/-- `A_GET_BLOCK_SIZE` (R140). -/
def execAGetBlockSize (s : State) : Answer :=
  command (requirePresentA s) [] (setResult Config.ctrBlockSize) s

/-- `A_GET_IV_SIZE` (R141). -/
def execAGetIvSize (s : State) : Answer :=
  command (requirePresentA s) [] (setResult (BitVec.ofNat 32 Config.ctrIvLen)) s

/-- `A_GET_KEY_SIZE`: the data key size plus the nonce's 4 (R142). -/
def execAGetKeySize (s : State) : Answer :=
  command (requirePresentA s) [] (setResult (BitVec.ofNat 32 (keyOperandLen s))) s

/-- Engine A erased: `rk`, `a_nonce`, `cs` zero, the flags and the variant 0 (R143). -/
def EngineA.erased (a : EngineA) : EngineA :=
  { a with
    rk := Vector.replicate 15 Block.zero, nonce := Vector.replicate 4 0, cs := Block.zero
    keyValid := false, variant := .none, present := false }

/-- `A_DESTROY` (R143). -/
def execADestroy (s : State) : Answer :=
  command (requirePresentA s) [] (fun s => { s with engA := s.engA.erased }) s

end Sys2Proof.Machine
end

