-- ==== Sys2Proof/Machine/Dispatch.lean ====
section
/-! DEFINITION. One arm per command (spec 30_encoding R74). -/

namespace Sys2Proof.Machine

def exec (i : Instr) (s : State) : Host.Outcome State Fault Refusal :=
  match i with
  -- engine A
  | .aConstruct => Sys2Proof.Machine.execAConstruct s
  | .aSetKey => Sys2Proof.Machine.execASetKey s
  | .aEncrypt inPlace => Sys2Proof.Machine.execAEncrypt inPlace s
  | .aDecrypt inPlace => Sys2Proof.Machine.execADecrypt inPlace s
  | .aGetBlockSize => Sys2Proof.Machine.execAGetBlockSize s
  | .aGetIvSize => Sys2Proof.Machine.execAGetIvSize s
  | .aGetKeySize => Sys2Proof.Machine.execAGetKeySize s
  | .aDestroy => Sys2Proof.Machine.execADestroy s
  -- engine B
  | .bConstruct => Sys2Proof.Machine.execBConstruct s
  | .bSetKey => Sys2Proof.Machine.execBSetKey s
  | .bInit => Sys2Proof.Machine.execBInit s
  | .bMacUpdate => Sys2Proof.Machine.execBMacUpdate s
  | .bChachaBlock => Sys2Proof.Machine.execBChachaBlock s
  | .bChacha4Block => Sys2Proof.Machine.execBChacha4Block s
  | .bEncrypt => Sys2Proof.Machine.execBEncrypt s
  | .bDecrypt => Sys2Proof.Machine.execBDecrypt s
  | .bFinish => Sys2Proof.Machine.execBFinish s
  | .bGetIvSize => Sys2Proof.Machine.execBGetIvSize s
  | .bGetBlockSize => Sys2Proof.Machine.execBGetBlockSize s
  | .bGetIcvSize => Sys2Proof.Machine.execBGetIcvSize s
  | .bDestroy => Sys2Proof.Machine.execBDestroy s

end Sys2Proof.Machine
end

