-- ==== Sys2Proof/Machine/HostPort.lean ====
section
/-! DEFINITION. The host's actions: the port (spec 10_state R21 to R29), buffer memory between commands (R13), the
capability inputs (R261) and reset (R310 to R312). -/

namespace Sys2Proof.Machine

/-- `HostRead(n)`: the ten registers; `CMD` and every number from 10 on read 0 (R21, R24, R29). -/
def portRead (s : State) (n : Nat) : Word :=
  match n with
  | 1 => s.last
  | 2 => s.result
  | 3 => stateA s.engA
  | 4 => stateB s.engB
  | 5 => s.argSrc
  | 6 => s.argDst
  | 7 => s.argLen
  | 8 => s.argAux
  | 9 => s.argAuxlen
  | _ => 0

/-- `HostWrite(n, v)` for n other than 0: only the `ARG_*` registers store it; read-only registers and numbers from 10 on
ignore it (R21, R29). -/
def portWrite (n : Nat) (v : Word) (s : State) : State :=
  match n with
  | 5 => { s with argSrc := v }
  | 6 => { s with argDst := v }
  | 7 => { s with argLen := v }
  | 8 => { s with argAux := v }
  | 9 => { s with argAuxlen := v }
  | _ => s

/-- `HostWrite(0, w)`: an illegal word raises `IllegalCommand` before anything else is tested; a legal one executes
(R24, R73, R284). -/
def runCommand (w : Word) (s : State) : Answer :=
  match decode w with
  | .error _ => .next (raise .illegalCommand s)
  | .ok i => exec i s

/-- Reset: every register of the core at its reset value; buffer memory, the inputs and the host are not the core's
(R43, R310, R311). -/
def resetCore (s : State) : State :=
  { s with
    last := 0, result := 0
    argSrc := 0, argDst := 0, argLen := 0, argAux := 0, argAuxlen := 0
    engA := EngineA.reset, engB := EngineB.reset }

/-- The host is returned a value. -/
def observe (o : Observation) (s : State) : State := { s with seen := o :: s.seen }

/-- One action of the host (R13, R20). -/
def hostStep (act : HostAction) (s : State) : Answer :=
  match act with
  | .write n v => if n = 0 then runCommand v s else .next (portWrite n v s)
  | .read n => .next (observe (.port n (portRead s n)) s)
  | .store addr b => .next { s with mem := s.mem.write addr.toNat b }
  | .load addr => .next (observe (.byte addr (s.mem.read addr.toNat)) s)
  | .setCapA v => .next { s with capA := v }
  | .setCapB v => .next { s with capB := v }
  | .reset => .next (resetCore s)

/-- The machine's step: the host's oldest waiting action; with none waiting the core waits and nothing changes (R20, R313). -/
def takeAction (s : State) : Answer :=
  match s.pending with
  | [] => .next s
  | act :: rest => hostStep act { s with pending := rest }

/-- The host's next action is the write of a command word to `CMD` (R70, R24). -/
def offerCommand (w : Word) (s : State) : State := { s with pending := .write 0 w :: s.pending }

end Sys2Proof.Machine
end

