-- ==== Sys2Proof/Machine/Step.lean ====
section
/-! DEFINITION. The step: one host action (spec 10_state R20). The core fetches no instruction (R23, R64); a command is
the value of a host write to `CMD`. -/

namespace Sys2Proof.Machine

/-- One step of the machine. -/
def step (s : State) : Host.Outcome State Fault Refusal := takeAction s

/-- The state in which the next action is the write of the command word `w`, its bits above `nbits` zero (R70). -/
def State.withFetchWord (s : State) (nbits w : Nat) : State :=
  offerCommand (BitVec.ofNat 32 (w % 2 ^ nbits)) s

end Sys2Proof.Machine
end

