-- ==== Sys2Proof/Safety.lean ====
section
/-! DEFINITION. The terms in which claims are stated: the invariant, what the host can see, the order of errors (R291), the
bytes a command writes (R66), and the closed forms the spec gives beside its pseudocode (R134, R198, R229). -/

namespace Sys2Proof

/-- `OPC[7:4]` = 1 selects engine A, 2 engine B (R71). -/
def Instr.onEngineA (i : Instr) : Bool := i.opcode.extractLsb' 4 4 == 1

/-- The match word of a command (R74): its opcode, with the free bit of the two in-place forms left 0. -/
def Instr.matchWord (i : Instr) : Word := BitVec.zeroExtend 32 i.opcode

/-- The mask of a command (R74): bit 8 is free for `A_ENCRYPT` and `A_DECRYPT`. -/
def Instr.matchMask : Instr → Word
  | .aEncrypt _ | .aDecrypt _ => 0xFFFFFEFF
  | .aConstruct | .aSetKey | .aGetBlockSize | .aGetIvSize | .aGetKeySize | .aDestroy => 0xFFFFFFFF
  | .bConstruct | .bSetKey | .bInit | .bMacUpdate | .bChachaBlock | .bChacha4Block => 0xFFFFFFFF
  | .bEncrypt | .bDecrypt | .bFinish | .bGetIvSize | .bGetBlockSize | .bGetIcvSize | .bDestroy => 0xFFFFFFFF

/-- The two factories. -/
def Instr.isConstruct (i : Instr) : Bool := i == .aConstruct || i == .bConstruct

/-- The six queries (R295). -/
def Instr.isQuery (i : Instr) : Bool :=
  [Instr.aGetBlockSize, .aGetIvSize, .aGetKeySize, .bGetIvSize, .bGetBlockSize, .bGetIcvSize].contains i

/-- The commands that write buffer memory (R42, R66). -/
def Instr.writesMemory (i : Instr) : Bool :=
  [Instr.aEncrypt false, .aEncrypt true, .aDecrypt false, .aDecrypt true, .bChachaBlock, .bChacha4Block,
    .bEncrypt, .bDecrypt, .bFinish].contains i

namespace Machine

/-! ### The invariant -/

/-- The values `LAST` can hold: no command yet (R25), success (R282), or a failure (R283). -/
abbrev LastLegal (w : Word) : Prop :=
  w = 0 ∨ w = lastOk ∨
    w ∈ [CmdError.illegalCommand, .absent, .present, .alg, .keySize, .capability, .keyLength, .ivLength, .noKey,
      .notInit, .finished].map lastErr

/-- Engine A: absent means reset (R44, R264); present means a variant (R262); a key is held only by a present instance;
without a key nothing is held; with one the unused sub-keys are zero (R32). -/
abbrev EngineA.Inv (a : EngineA) : Prop :=
  (a.present = false → a = EngineA.reset) ∧
  (a.present = true → a.variant ≠ .none) ∧
  (a.keyValid = false →
    a.rk = EngineA.reset.rk ∧ a.nonce = EngineA.reset.nonce ∧ a.cs = EngineA.reset.cs) ∧
  (∀ i : Fin 15, a.keyValid = true → a.variant.len ≤ i.val → a.rk[i] = Block.zero)

/-- Engine B: absent means reset (R44, R264); limbs canonical (R40); `u` is the square of `r` and `r` is clamped (R37, R193);
before a key the matrix is zero, with one its first row is `SIGMA` (R35); before `init` nothing of a message is held (R222). -/
abbrev EngineB.Inv (b : EngineB) : Prop :=
  (b.present = false → b = EngineB.reset) ∧
  (b.r.canonical = true ∧ b.u.canonical = true ∧ b.h.canonical = true) ∧
  b.u.val = b.r.val * b.r.val % Config.prime ∧
  b.r.val &&& Config.clamp = b.r.val ∧
  (b.phase = .noKey → b.m = EngineB.reset.m) ∧
  (b.phase ≠ .noKey → ∀ i : Fin 4, b.m.toList.getD i.val 0 = Config.sigma[i]) ∧
  (b.phase = .noKey ∨ b.phase = .keyed →
    b.r = Limbs.zero ∧ b.u = Limbs.zero ∧ b.h = Limbs.zero ∧ b.s = EngineB.reset.s ∧ b.wrap = false ∧
      b.m[12] = 0 ∧ b.m[13] = 0 ∧ b.m[14] = 0 ∧ b.m[15] = 0)

/-- What every step keeps. -/
abbrev State.Inv (s : State) : Prop :=
  LastLegal s.last ∧ s.engA.Inv ∧ s.engB.Inv ∧ s.mem.wf = true

/-! ### Answers -/

/-- An answer with its next state mapped. -/
def mapNext (f : State → State) : Answer → Answer
  | .next s => .next (f s)
  | .fault r => .fault r
  | .refused r => .refused r

/-- What is not secret: everything but the key schedule, nonce and counter state of engine A and the matrix, limbs and mask
of engine B (R42). -/
def visible (s : State) : State :=
  { s with
    engA := { s.engA with rk := EngineA.reset.rk, nonce := EngineA.reset.nonce, cs := EngineA.reset.cs }
    engB :=
      { s.engB with
        m := EngineB.reset.m, r := Limbs.zero, u := Limbs.zero, h := Limbs.zero, s := EngineB.reset.s } }

/-! ### The order of errors (R291) -/

/-- Test 2: presence. -/
def presenceCheck (i : Instr) (s : State) : Check :=
  let here := if i.onEngineA then s.engA.present else s.engB.present
  if i.isConstruct then (here, .present) else (!here, .absent)

/-- Test 3: a factory's identifier, key size and capability. -/
def factoryChecks (i : Instr) (s : State) : List Check :=
  if i = .aConstruct then
    [(decide (s.argAux ≠ 1), .alg), (decide (s.argAuxlen ∉ [(16 : Word), 24, 32]), .keySize), (!s.capA, .capability)]
  else if i = .bConstruct then
    [(decide (s.argAux ≠ 2), .alg), (decide (s.argAuxlen ≠ 32), .keySize), (!s.capB, .capability)]
  else []

/-- Test 4: the state of the instance, as far as the command's check macro goes. -/
def stateChecks (i : Instr) (s : State) : List Check :=
  match i with
  | .aEncrypt _ | .aDecrypt _ => [(!s.engA.keyValid, .noKey)]
  | .bInit => [(decide (s.engB.phase = .noKey), .noKey)]
  | .bChachaBlock | .bChacha4Block =>
    [(decide (s.engB.phase = .noKey), .noKey), (decide (s.engB.phase = .keyed), .notInit)]
  | .bMacUpdate | .bEncrypt | .bDecrypt | .bFinish =>
    [(decide (s.engB.phase = .noKey), .noKey), (decide (s.engB.phase = .keyed), .notInit),
      (decide (s.engB.phase = .finished), .finished)]
  | .aConstruct | .aSetKey | .aGetBlockSize | .aGetIvSize | .aGetKeySize | .aDestroy => []
  | .bConstruct | .bSetKey | .bGetIvSize | .bGetBlockSize | .bGetIcvSize | .bDestroy => []

/-- Test 5: operand lengths. -/
def lengthChecks (i : Instr) (s : State) : List Check :=
  match i with
  | .aSetKey => [(decide (s.argAuxlen.toNat ≠ s.engA.variant.ks + 4), .keyLength)]
  | .bSetKey => [(decide (s.argAuxlen ≠ 32), .keyLength)]
  | .aEncrypt _ | .aDecrypt _ => [(decide (s.argAuxlen ≠ 8), .ivLength)]
  | .bInit => [(decide (s.argAuxlen ≠ 12), .ivLength)]
  | .aConstruct | .aGetBlockSize | .aGetIvSize | .aGetKeySize | .aDestroy => []
  | .bConstruct | .bMacUpdate | .bChachaBlock | .bChacha4Block | .bEncrypt | .bDecrypt | .bFinish => []
  | .bGetIvSize | .bGetBlockSize | .bGetIcvSize | .bDestroy => []

/-- The error a command reports: the first failing test of R291, decode apart. -/
def reportedError (i : Instr) (s : State) : Option CmdError :=
  firstError (presenceCheck i s :: factoryChecks i s ++ stateChecks i s ++ lengthChecks i s)

/-- The phase of a present engine B after a command whose lengths and ranges are right; none where the command fails (R220). -/
def phaseAfter (i : Instr) (p : Phase) : Option Phase :=
  match i with
  | .bSetKey => some .keyed
  | .bInit => if p = .noKey then none else some .active
  | .bMacUpdate | .bEncrypt | .bDecrypt => if p = .active then some .active else none
  | .bFinish => if p = .active then some .finished else none
  | .bChachaBlock | .bChacha4Block => if p = .active ∨ p = .finished then some p else none
  | .bGetIvSize | .bGetBlockSize | .bGetIcvSize => some p
  | .bDestroy => some .noKey
  | .aConstruct | .aSetKey | .aEncrypt _ | .aDecrypt _ | .aGetBlockSize | .aGetIvSize | .aGetKeySize | .aDestroy => some p
  | .bConstruct => some p

/-- The error of a phase in which a command is not accepted (R220, last row of the table). -/
def phaseError (p : Phase) : CmdError :=
  match p with
  | .noKey => .noKey
  | .keyed => .notInit
  | .active | .finished => .finished

/-! ### The bytes a command reads and writes (R66) -/

/-- The ranges a command reads (R66). -/
def readRanges (i : Instr) (s : State) : List Range :=
  match i with
  | .aSetKey => [(s.argAux, s.argAuxlen.toNat)]
  | .aEncrypt _ | .aDecrypt _ => [(s.argAux, 8), (s.argSrc, s.argLen.toNat)]
  | .bSetKey => [(s.argAux, 32)]
  | .bInit => [(s.argAux, 12)]
  | .bMacUpdate => [(s.argSrc, 16 * s.argLen.toNat)]
  | .bChachaBlock => [(s.argSrc, 64)]
  | .bChacha4Block => [(s.argSrc, 256)]
  | .bEncrypt | .bDecrypt => [(s.argSrc, 64 * s.argLen.toNat)]
  | .aConstruct | .aGetBlockSize | .aGetIvSize | .aGetKeySize | .aDestroy => []
  | .bConstruct | .bFinish | .bGetIvSize | .bGetBlockSize | .bGetIcvSize | .bDestroy => []

/-- The range a command writes (R66); none is a range of no bytes. -/
def writeRange (i : Instr) (s : State) : Range :=
  match i with
  | .aEncrypt inPlace | .aDecrypt inPlace => (if inPlace then s.argSrc else s.argDst, s.argLen.toNat)
  | .bChachaBlock => (s.argSrc, 64)
  | .bChacha4Block => (s.argSrc, 256)
  | .bEncrypt | .bDecrypt => (s.argSrc, 64 * s.argLen.toNat)
  | .bFinish => (s.argDst, 16)
  | .aConstruct | .aSetKey | .aGetBlockSize | .aGetIvSize | .aGetKeySize | .aDestroy => (0, 0)
  | .bConstruct | .bSetKey | .bInit | .bMacUpdate | .bGetIvSize | .bGetBlockSize | .bGetIcvSize | .bDestroy => (0, 0)

/-- An address is one of a range's bytes (R66). -/
abbrev inRange (a : Nat) (r : Range) : Prop := r.1.toNat ≤ a ∧ a < r.1.toNat + r.2

/-- Every range of a command ends at or below 2^32 (R51). -/
abbrev rangesFit (i : Instr) (s : State) : Prop :=
  ∀ r ∈ readRanges i s ++ [writeRange i s], r.1.toNat + r.2 ≤ 2 ^ 32

/-- Source and destination of `A_ENCRYPT` and `A_DECRYPT` are one range or share no byte (R57). -/
abbrev rangesCompatible (i : Instr) (s : State) : Prop :=
  match i with
  | .aEncrypt false | .aDecrypt false =>
    s.argSrc = s.argDst ∨ ∀ a, ¬ (inRange a (s.argSrc, s.argLen.toNat) ∧ inRange a (s.argDst, s.argLen.toNat))
  | _ => True

/-! ### Closed forms -/

/-- `Z(k)`: keystream Block k of engine A (R134). -/
def ctrZ (C : Config.Cipher) (rk : Schedule) (len : Nat) (nonce : Nonce) (iv : CtrIv) (k : Nat) : Block :=
  rounds1 C rk len (csEncode nonce iv (BitVec.ofNat 32 ((1 + k) % 2 ^ 32)))

/-- Multiplication in GF(2^8) modulo x^8 + x^4 + x^3 + x + 1 (R111), by the bits of the first operand from bit 7 down:
n of them are left. -/
def gfMul (x y : Byte) : Nat → Byte
  | 0 => 0
  | n + 1 =>
    let r := gfMul (x >>> 1) y n
    (if r.getLsbD 7 then (r <<< 1) ^^^ 0x1B else r <<< 1) ^^^ (if x.getLsbD 0 then y else 0)

/-- Byte j of engine A's keystream `Z(0) ++ Z(1) ++ ...` (R134). -/
def ctrKeystream (C : Config.Cipher) (rk : Schedule) (len : Nat) (nonce : Nonce) (iv : CtrIv) (j : Nat) : Byte :=
  (ctrZ C rk len nonce iv (j / 16)).toList.getD (j % 16) 0

/-- `K(j)`: keystream block j of engine B from a matrix (R229). -/
def ksAt (m : Matrix) (j : Nat) : Bytes := chachaCore (m.set 12 (m[12] + BitVec.ofNat 32 j))

/-- Byte j of the keystream of engine B from a matrix (R229). -/
def ksByte (m : Matrix) (j : Nat) : Byte := (ksAt m (j / 64)).getD (j % 64) 0

/-- The hash after n blocks of d: `(H_0 * R^n + sum over j of BlockVal(block j) * R^(n-j)) mod P` (R198). -/
def hashAfter (h r : Nat) (d : Bytes) (n : Nat) : Nat :=
  (h * r ^ n + ((List.range n).map fun j => blockVal (slice d (16 * j) 16) * r ^ (n - j)).sum) % Config.prime

/-- Engine B after k blocks of keystream: the counter advanced, the wrap recorded (R229). -/
def afterBlocks (k : Nat) (b : EngineB) : EngineB :=
  { b with
    wrap := b.wrap || decide (2 ^ 32 ≤ b.m[12].toNat + k)
    m := b.m.set 12 (b.m[12] + BitVec.ofNat 32 k) }

end Machine

end Sys2Proof
end

