-- ==== Sys2Proof/Certificates/Slice0/Obligations.lean ====
section
/-! DEFINITION. The statements for the provers. Each docstring names the rule of spec/ it formalises. -/

open Sys2Proof Sys2Proof.Machine

/-! ### Encoding and decoding -/

/-- R71, R73, R74: a word decodes to a command exactly when it is that command's word, for every word and command. -/
def Obligations.DecodeAndEncodeAgree : Prop :=
  ∀ (w : Word) (i : Instr), decode w = .ok i ↔ (i.wf = true ∧ encode i = w)

/-- R74: match and mask of each word; bit 8 is the free `IP` field of 0x12 and 0x13. -/
def Obligations.DecodeFollowsMatchAndMask : Prop :=
  ∀ (w : Word) (i : Instr),
    decode w = .ok i ↔ (w &&& i.matchMask = i.matchWord ∧ i.inPlaceBit = w.getLsbD 8)

/-- R76, R284: exactly the three kinds of illegal word raise `IllegalCommand`, whatever the state; nothing but `LAST` changes. -/
def Obligations.IllegalWordsRaiseIllegalCommand : Prop :=
  ∀ (s : State) (w : Word) (rest : List HostAction), s.pending = .write 0 w :: rest →
    let illegal : Prop :=
      w.extractLsb' 9 23 ≠ 0 ∨ w.extractLsb' 0 8 ∉ assignedOpcodes ∨
        (w.getLsbD 8 = true ∧ w.extractLsb' 0 8 ≠ 0x12 ∧ w.extractLsb' 0 8 ≠ 0x13)
    (illegal → step s = .next { s with pending := rest, last := 0x00000101 }) ∧
    (¬ illegal → ∃ i, decode w = .ok i)

/-- Words written out from the opcode map of R74. -/
def Obligations.SampleWordsDecode : Prop :=
  decode 0x00000010 = .ok .aConstruct ∧ decode 0x00000012 = .ok (.aEncrypt false) ∧
  decode 0x00000112 = .ok (.aEncrypt true) ∧ decode 0x00000113 = .ok (.aDecrypt true) ∧
  decode 0x0000001F = .ok .aDestroy ∧ decode 0x00000020 = .ok .bConstruct ∧
  decode 0x00000028 = .ok .bFinish ∧ decode 0x0000002F = .ok .bDestroy

/-- R20, R24, R73: a step whose action is the write of a legal command word to `CMD` is `exec` of the command, the action
taken off the host's list (log entry 2); so is the step of a state in which a word has been offered. -/
def Obligations.StepRunsTheDecodedCommand : Prop :=
  ∀ (s : State) (w : Word) (i : Instr), decode w = .ok i →
    (∀ rest, s.pending = .write 0 w :: rest → step s = exec i { s with pending := rest }) ∧
    step (s.withFetchWord 32 w.toNat) = exec i s

/-! ### The host port and reset -/

/-- R21, R24, R29: what `HostRead` returns, and that it has no other effect. -/
def Obligations.HostReadReturnsTheRegister : Prop :=
  ∀ (s : State) (n : Nat) (rest : List HostAction), s.pending = .read n :: rest →
    step s = .next
      { s with
        pending := rest
        seen := .port n
          (if n = 1 then s.last else if n = 2 then s.result else if n = 3 then stateA s.engA
            else if n = 4 then stateB s.engB else if n = 5 then s.argSrc else if n = 6 then s.argDst
            else if n = 7 then s.argLen else if n = 8 then s.argAux else if n = 9 then s.argAuxlen else 0) :: s.seen }

/-- R13, R21, R29: a `HostWrite` to a register other than `CMD` only stores an operand; read-only registers and numbers from 10
on ignore it. -/
def Obligations.HostWriteStoresOperandsOnly : Prop :=
  ∀ (s : State) (n : Nat) (v : Word) (rest : List HostAction), n ≠ 0 → s.pending = .write n v :: rest →
    step s = .next
      { s with
        pending := rest
        argSrc := if n = 5 then v else s.argSrc
        argDst := if n = 6 then v else s.argDst
        argLen := if n = 7 then v else s.argLen
        argAux := if n = 8 then v else s.argAux
        argAuxlen := if n = 9 then v else s.argAuxlen }

/-- R27, R28: the fields of `STATE_A` and `STATE_B`. -/
def Obligations.StateViewsShowTheFlags : Prop :=
  (∀ a : EngineA,
    (stateA a).getLsbD 0 = a.present ∧ (stateA a).getLsbD 1 = a.keyValid ∧
    (stateA a).extractLsb' 2 2 =
      (match a.variant with | .none => 0 | .key16 => 1 | .key24 => 2 | .key32 => 3) ∧
    (stateA a).extractLsb' 4 28 = 0) ∧
  (∀ b : EngineB,
    (stateB b).getLsbD 0 = b.present ∧
    (stateB b).extractLsb' 1 2 =
      (match b.phase with | .noKey => 0 | .keyed => 1 | .active => 2 | .finished => 3) ∧
    (stateB b).getLsbD 3 = b.wrap ∧ (stateB b).extractLsb' 4 28 = 0)

/-- R43, R310, R311: reset puts every register and flag of the core to 0 and does not touch buffer memory; inputs and host are
not the core's. -/
def Obligations.ResetZeroesTheCore : Prop :=
  ∀ (s : State) (rest : List HostAction), s.pending = .reset :: rest → ∃ t, step s = .next t ∧
    t = { s with
          pending := rest, last := 0, result := 0
          argSrc := 0, argDst := 0, argLen := 0, argAux := 0, argAuxlen := 0, engA := t.engA, engB := t.engB } ∧
    (t.engA.present = false ∧ t.engA.keyValid = false ∧ t.engA.variant = .none ∧
      (∀ i : Fin 15, ∀ j : Fin 16, t.engA.rk[i][j] = 0) ∧ (∀ j : Fin 4, t.engA.nonce[j] = 0) ∧
      ∀ j : Fin 16, t.engA.cs[j] = 0) ∧
    (t.engB.present = false ∧ t.engB.phase = .noKey ∧ t.engB.wrap = false ∧ (∀ j : Fin 16, t.engB.m[j] = 0) ∧
      t.engB.r = Limbs.zero ∧ t.engB.u = Limbs.zero ∧ t.engB.h = Limbs.zero ∧ ∀ j : Fin 4, t.engB.s[j] = 0)

/-- R13, R20, R50, R261, R313: with no host action waiting the core waits; the host's other actions touch buffer memory and
the capability inputs only. The actions are the model's form of the host (log entries 2 and 3). -/
def Obligations.HostActionsBetweenCommands : Prop :=
  ∀ s : State,
    (s.pending = [] → step s = .next s) ∧
    ∀ rest : List HostAction,
      (∀ a b, s.pending = .store a b :: rest → s.mem.wf = true → ∃ m, step s = .next { s with pending := rest, mem := m } ∧
        m.wf = true ∧ ∀ x, m.read x = if x = a.toNat then b else s.mem.read x) ∧
      (∀ a, s.pending = .load a :: rest →
        step s = .next { s with pending := rest, seen := .byte a (s.mem.read a.toNat) :: s.seen }) ∧
      (∀ v, s.pending = .setCapA v :: rest → step s = .next { s with pending := rest, capA := v }) ∧
      ∀ v, s.pending = .setCapB v :: rest → step s = .next { s with pending := rest, capB := v }

/-! ### Buffer memory -/

/-- R51: after `MemWrite` byte i stands at addr + i and every other address is as before; `MemRead` gives the bytes in order.
Memories in the canonical form of log entry 4. -/
def Obligations.MemoryReadsWhatWasWritten : Prop :=
  ∀ (m : Memory) (a : Nat) (bs : Bytes), m.wf = true →
    (∀ i (h : i < bs.length), (m.writeBytes a bs).read (a + i) = bs[i]) ∧
    (∀ a', a' < a ∨ a + bs.length ≤ a' → (m.writeBytes a bs).read a' = m.read a') ∧
    (m.writeBytes a bs).readBytes a bs.length = bs

/-- R51 with log entry 4: a memory in canonical form is determined by what its addresses read as. -/
def Obligations.MemoryFormIsCanonical : Prop :=
  ∀ m m' : Memory, m.wf = true → m'.wf = true → (∀ a, m.read a = m'.read a) → m = m'

/-! ### Counter-state codec -/

/-- R90, R91, R92: the layout of the counter state, and that the codec loses nothing. -/
def Obligations.CodecLosesNothing : Prop :=
  (∀ (n : Nonce) (iv : CtrIv) (c : Word),
    (∀ j : Fin 4, (csEncode n iv c).toList.getD j.val 0 = n[j]) ∧
    (∀ j : Fin 8, (csEncode n iv c).toList.getD (4 + j.val) 0 = iv[j]) ∧
    (∀ j : Fin 4, (csEncode n iv c).toList.getD (12 + j.val) 0 = c.extractLsb' (8 * (3 - j.val)) 8) ∧
    csDecode (csEncode n iv c) = (n, iv, c)) ∧
  ∀ b : Block, csEncode (csDecode b).1 (csDecode b).2.1 (csDecode b).2.2 = b

/-- R94: the counter goes up by 1 modulo 2^32; no carry enters bytes 0 to 11. -/
def Obligations.CounterIncrementStaysInItsField : Prop :=
  ∀ b : Block,
    csDecode (csIncr b) = ((csDecode b).1, (csDecode b).2.1, (csDecode b).2.2 + 1) ∧
    (∀ j : Fin 12, (csIncr b).toList.getD j.val 0 = b.toList.getD j.val 0) ∧
    ((csDecode b).2.2 = 0xFFFFFFFF → (csDecode (csIncr b)).2.2 = 0)

/-! ### Round engine -/

/-- R103, R104: the interleaved four-lane path equals the single-block path lane by lane, for any cipher. -/
def Obligations.FourLanesEqualOneLane : Prop :=
  ∀ (C : Config.Cipher) (rk : Schedule) (len : Nat) (x : Lanes) (j : Fin 4),
    (rounds4 C rk len x)[j] = rounds1 C rk len x[j]

/-- R101, R102: XOR with sub-key 0, the L - 2 middle rounds with sub-keys 1 to L - 2 in order, the final round with sub-key
L - 1, for any cipher and the three schedule lengths. -/
def Obligations.RoundsUseEverySubKeyOnce : Prop :=
  ∀ (C : Config.Cipher) (rk : Schedule) (v : Variant) (x : Block), v ≠ .none →
    rounds1 C rk v.len x =
      C.spFinal
        ((List.range (v.len - 2)).foldl (fun t i => C.spRound t (rk.toList.getD (i + 1) Block.zero)) (xorBlock x rk[0]))
        (rk.toList.getD (v.len - 1) Block.zero)

/-- R118: the known answers of the instantiated engine for the three key sizes (the cipher is PRESUMED, log entry 1). -/
def Obligations.CipherKnownAnswers : Prop :=
  let x : Block := #v[0x00, 0x11, 0x22, 0x33, 0x44, 0x55, 0x66, 0x77, 0x88, 0x99, 0xAA, 0xBB, 0xCC, 0xDD, 0xEE, 0xFF]
  let key : Nat → Bytes := fun n => (List.range n).map (BitVec.ofNat 8)
  rounds1 aes (loadSchedule 11 (aes.keyExpand (key 16))) 11 x =
    #v[0x69, 0xC4, 0xE0, 0xD8, 0x6A, 0x7B, 0x04, 0x30, 0xD8, 0xCD, 0xB7, 0x80, 0x70, 0xB4, 0xC5, 0x5A] ∧
  rounds1 aes (loadSchedule 13 (aes.keyExpand (key 24))) 13 x =
    #v[0xDD, 0xA9, 0x7C, 0xA4, 0x86, 0x4C, 0xDF, 0xE0, 0x6E, 0xAF, 0x70, 0xA0, 0xEC, 0x0D, 0x71, 0x91] ∧
  rounds1 aes (loadSchedule 15 (aes.keyExpand (key 32))) 15 x =
    #v[0x8E, 0xA2, 0xB7, 0xCA, 0x51, 0x67, 0x45, 0xBF, 0xEA, 0xFC, 0x49, 0x90, 0x4B, 0x49, 0x60, 0x89]

/-- R117: the key expansion is the word recurrence, four words a sub-key, L = Nk + 7 sub-keys (PRESUMED, log
entry 1). -/
def Obligations.KeyExpansionRecurrence : Prop :=
  ∀ (nk : Nat) (key : Bytes), nk = 4 ∨ nk = 6 ∨ nk = 8 → key.length = 4 * nk →
    ∃ w : Nat → Bytes, ∃ rc : Nat → Byte,
      (∀ i, i < nk → w i = slice key (4 * i) 4) ∧
      rc 0 = 1 ∧ (∀ k, rc (k + 1) = mul2 (rc k)) ∧
      (∀ i, nk ≤ i → i < 4 * (nk + 7) →
        w i = xorBytes (w (i - nk))
          (if i % nk = 0 then
            xorBytes ((slice (w (i - 1)) 1 3 ++ slice (w (i - 1)) 0 1).map sbox) [rc (i / nk - 1), 0, 0, 0]
          else if nk = 8 ∧ i % nk = 4 then (w (i - 1)).map sbox
          else w (i - 1))) ∧
      (aesKeyExpand key).length = nk + 7 ∧
      ∀ j (h : j < (aesKeyExpand key).length),
        (aesKeyExpand key)[j].toList = w (4 * j) ++ w (4 * j + 1) ++ w (4 * j + 2) ++ w (4 * j + 3)

/-- R111: the table is the affine map of the inverse in GF(2^8), with the inverse of 0 being 0 (PRESUMED, log
entry 1). -/
def Obligations.SubstitutionTableFormula : Prop :=
  ∀ v : Byte, ∃ y : Byte, (v = 0 → y = 0) ∧ (v ≠ 0 → gfMul v y 8 = 1) ∧
    sbox v = y ^^^ y.rotateLeft 1 ^^^ y.rotateLeft 2 ^^^ y.rotateLeft 3 ^^^ y.rotateLeft 4 ^^^ 0x63

/-- R112 to R116: the round functions byte by byte, row rw and column c of the column-major array (PRESUMED, log
entry 1). -/
def Obligations.CipherRoundBytes : Prop :=
  (∀ a : Byte, (mul2 a).toNat = (if 0x80 ≤ a.toNat then (2 * a.toNat) ^^^ 0x11B else 2 * a.toNat) ∧
    mul3 a = mul2 a ^^^ a) ∧
  ∀ (t k : Block),
    let s : Nat → Nat → Byte := fun rw c => sbox (t.toList.getD (rw + 4 * ((c + rw) % 4)) 0)
    (∀ rw c : Fin 4, (aesFinal t k).toList.getD (rw.val + 4 * c.val) 0 =
      s rw c ^^^ k.toList.getD (rw.val + 4 * c.val) 0) ∧
    ∀ c : Fin 4,
      (aesRound t k).toList.getD (4 * c.val) 0 =
        mul2 (s 0 c) ^^^ mul3 (s 1 c) ^^^ s 2 c ^^^ s 3 c ^^^ k.toList.getD (4 * c.val) 0 ∧
      (aesRound t k).toList.getD (4 * c.val + 1) 0 =
        s 0 c ^^^ mul2 (s 1 c) ^^^ mul3 (s 2 c) ^^^ s 3 c ^^^ k.toList.getD (4 * c.val + 1) 0 ∧
      (aesRound t k).toList.getD (4 * c.val + 2) 0 =
        s 0 c ^^^ s 1 c ^^^ mul2 (s 2 c) ^^^ mul3 (s 3 c) ^^^ k.toList.getD (4 * c.val + 2) 0 ∧
      (aesRound t k).toList.getD (4 * c.val + 3) 0 =
        mul3 (s 0 c) ^^^ s 1 c ^^^ s 2 c ^^^ mul2 (s 3 c) ^^^ k.toList.getD (4 * c.val + 3) 0

/-! ### Engine A -/

/-- R262: the factory of engine A, its encoding, its success and its four errors in order. -/
def Obligations.ConstructA : Prop :=
  decode 0x00000010 = .ok .aConstruct ∧
  ∀ s : State,
    (s.engA.present = true → exec .aConstruct s = .next { s with last := 0x00000103 }) ∧
    (s.engA.present = false → s.argAux ≠ 1 → exec .aConstruct s = .next { s with last := 0x00000104, result := 0 }) ∧
    (s.engA.present = false → s.argAux = 1 → s.argAuxlen ∉ [(16 : Word), 24, 32] →
      exec .aConstruct s = .next { s with last := 0x00000105, result := 0 }) ∧
    (s.engA.present = false → s.argAux = 1 → s.argAuxlen ∈ [(16 : Word), 24, 32] → s.capA = false →
      exec .aConstruct s = .next { s with last := 0x00000206, result := 0 }) ∧
    (s.engA.present = false → s.argAux = 1 → s.argAuxlen ∈ [(16 : Word), 24, 32] → s.capA = true →
      exec .aConstruct s = .next
        { s with
          last := 0x80000000, result := 1
          engA :=
            { s.engA with
              present := true, keyValid := false
              variant := if s.argAuxlen = 16 then .key16 else if s.argAuxlen = 24 then .key24 else .key32 } })

/-- R131: `A_SET_KEY` takes the leading KS bytes as data key and the trailing 4 as nonce, replaces the whole schedule, and
touches nothing else; a wrong length changes nothing. The expander is the one of log entry 1 (PRESUMED). -/
def Obligations.SetKeyA : Prop :=
  ∀ s : State, s.engA.present = true →
    (s.argAuxlen.toNat ≠ s.engA.variant.ks + 4 → exec .aSetKey s = .next { s with last := 0x00000107 }) ∧
    (s.argAuxlen.toNat = s.engA.variant.ks + 4 → s.argAux.toNat + (s.engA.variant.ks + 4) ≤ 2 ^ 32 →
      ∃ rk nonce,
        exec .aSetKey s = .next
          { s with last := 0x80000000, engA := { s.engA with keyValid := true, rk := rk, nonce := nonce } } ∧
        (∀ j : Fin 4, nonce[j] = s.mem.read (s.argAux.toNat + s.engA.variant.ks + j.val)) ∧
        ∀ i : Fin 15, rk[i] =
          if i.val < s.engA.variant.len then
            (aes.keyExpand (s.mem.readBytes s.argAux.toNat s.engA.variant.ks)).getD i.val Block.zero
          else Block.zero)

/-- R134 to R138: the transform equals the closed form, however the buffer is cut into groups, single blocks and a partial block,
for any cipher; the counter state ends one past the last block. -/
def Obligations.CtrTransformClosedForm : Prop :=
  ∀ (C : Config.Cipher) (rk : Schedule) (len : Nat) (nonce : Nonce) (iv : CtrIv) (inp : Bytes),
    let t := ctrTransform C rk len (csInit nonce iv) inp
    t.1.length = inp.length ∧
    (∀ j (h : j < inp.length), t.1.getD j 0 = inp[j] ^^^ ctrKeystream C rk len nonce iv j) ∧
    t.2 = csEncode nonce iv (BitVec.ofNat 32 ((1 + (inp.length + 15) / 16) % 2 ^ 32))

/-- R133, R134, R137 to R139: `A_ENCRYPT` and `A_DECRYPT` complete; each output byte is input XOR keystream, no other byte of
memory changes, and of the registers only `LAST` and `cs` change. The cipher is the one of log entry 1 (PRESUMED). -/
def Obligations.CryptXorsTheKeystream : Prop :=
  ∀ (s : State) (inPlace : Bool) (i : Instr), i = .aEncrypt inPlace ∨ i = .aDecrypt inPlace →
    s.engA.present = true → s.engA.keyValid = true → s.argAuxlen = 8 → s.mem.wf = true →
    rangesFit i s → rangesCompatible i s →
    let src := s.argSrc.toNat
    let out := (s.ctrOutRange inPlace).1.toNat
    let n := s.argLen.toNat
    let iv : CtrIv := Vector.ofFn fun j => s.mem.read (s.argAux.toNat + j.val)
    ∃ t, exec i s = .next t ∧
      t = { s with
            last := 0x80000000, mem := t.mem
            engA := { s.engA with cs := csEncode s.engA.nonce iv (BitVec.ofNat 32 (1 + (n + 15) / 16)) } } ∧
      (∀ j, j < n → t.mem.read (out + j) =
        s.mem.read (src + j) ^^^ ctrKeystream aes s.engA.rk s.engA.variant.len s.engA.nonce iv j) ∧
      ∀ a, a < out ∨ out + n ≤ a → t.mem.read a = s.mem.read a

/-- R145: a call of length 0 succeeds, sets `cs` to the counter state with counter 1 and changes no byte (ranges of no
bytes: DEDUCED, log entry 11). -/
def Obligations.ZeroLengthCrypt : Prop :=
  ∀ (s : State) (inPlace : Bool) (i : Instr), i = .aEncrypt inPlace ∨ i = .aDecrypt inPlace →
    s.engA.present = true → s.engA.keyValid = true → s.argAuxlen = 8 → s.argLen = 0 →
    s.argAux.toNat + 8 ≤ 2 ^ 32 →
    exec i s = .next
      { s with
        last := 0x80000000
        engA := { s.engA with
          cs := csInit s.engA.nonce (Vector.ofFn fun j => s.mem.read (s.argAux.toNat + j.val)) } }

/-- R139, property T1: `A_DECRYPT` in place after `A_ENCRYPT` in place restores the memory, where the IV does not lie in the
data. -/
def Obligations.CryptRoundTrip : Prop :=
  ∀ s t : State, s.mem.wf = true →
    (∀ a, ¬ (inRange a (s.argAux, 8) ∧ inRange a (s.argSrc, s.argLen.toNat))) →
    exec (.aEncrypt true) s = .next t → t.last = 0x80000000 →
    ∃ t', exec (.aDecrypt true) t = .next t' ∧ t'.last = 0x80000000 ∧ t'.mem = s.mem

/-- R140, R141, R142, R234, R235, R236: the encodings of the six queries; they report and change nothing but `RESULT` and
`LAST`; on an absent instance they fail with `Absent`. -/
def Obligations.QueriesReport : Prop :=
  (decode 0x00000014 = .ok .aGetBlockSize ∧ decode 0x00000015 = .ok .aGetIvSize ∧
    decode 0x00000016 = .ok .aGetKeySize ∧ decode 0x00000029 = .ok .bGetIvSize ∧
    decode 0x0000002A = .ok .bGetBlockSize ∧ decode 0x0000002B = .ok .bGetIcvSize) ∧
  ∀ s : State,
    (s.engA.present = false →
      ∀ i ∈ [Instr.aGetBlockSize, .aGetIvSize, .aGetKeySize], exec i s = .next { s with last := 0x00000102 }) ∧
    (s.engB.present = false →
      ∀ i ∈ [Instr.bGetIvSize, .bGetBlockSize, .bGetIcvSize], exec i s = .next { s with last := 0x00000102 }) ∧
    (s.engA.present = true →
      exec .aGetBlockSize s = .next { s with last := 0x80000000, result := 1 } ∧
      exec .aGetIvSize s = .next { s with last := 0x80000000, result := 8 } ∧
      (∃ v, exec .aGetKeySize s = .next { s with last := 0x80000000, result := v } ∧
        (s.engA.variant = .key16 → v = 20) ∧ (s.engA.variant = .key24 → v = 28) ∧
        (s.engA.variant = .key32 → v = 36))) ∧
    (s.engB.present = true →
      exec .bGetIvSize s = .next { s with last := 0x80000000, result := 12 } ∧
      exec .bGetBlockSize s = .next { s with last := 0x80000000, result := 1 } ∧
      exec .bGetIcvSize s = .next { s with last := 0x80000000, result := 16 })

/-- R44, R143, R237: the encodings of the two destroys; a destroy puts its engine into the reset state, in every phase, and
changes nothing else but `LAST`; on an absent instance it fails with `Absent`. -/
def Obligations.DestroyErases : Prop :=
  decode 0x0000001F = .ok .aDestroy ∧ decode 0x0000002F = .ok .bDestroy ∧
  ∀ s : State,
    (s.engA.present = false → exec .aDestroy s = .next { s with last := 0x00000102 }) ∧
    (s.engB.present = false → exec .bDestroy s = .next { s with last := 0x00000102 }) ∧
    (s.engA.present = true →
      exec .aDestroy s = .next { s with last := 0x80000000, engA := State.reset.engA }) ∧
    (s.engB.present = true →
      exec .bDestroy s = .next { s with last := 0x80000000, engB := State.reset.engB })

/-! ### Keystream generator -/

/-- R161: the quarter-round on four different words, and that it leaves the others. Its wiring is PRESUMED (log entry 5). -/
def Obligations.QuarterRoundWords : Prop :=
  ∀ (x : Matrix) (a b c d : Fin 16), a ≠ b → a ≠ c → a ≠ d → b ≠ c → b ≠ d → c ≠ d →
    let a1 := x[a] + x[b]
    let d1 := (x[d] ^^^ a1).rotateLeft 16
    let c1 := x[c] + d1
    let b1 := (x[b] ^^^ c1).rotateLeft 12
    let a2 := a1 + b1
    let d2 := (d1 ^^^ a2).rotateLeft 8
    let c2 := c1 + d2
    let b2 := (b1 ^^^ c2).rotateLeft 7
    let y := quarterRound a b c d x
    y[a] = a2 ∧ y[b] = b2 ∧ y[c] = c2 ∧ y[d] = d2 ∧
      ∀ k : Fin 16, k ≠ a → k ≠ b → k ≠ c → k ≠ d → y[k] = x[k]

/-- R163: the worked example, 64 bytes (constants and byte order PRESUMED, log entry 5). -/
def Obligations.KeystreamKnownAnswer : Prop :=
  let m : Matrix :=
    #v[0x61707865, 0x3320646E, 0x79622D32, 0x6B206574, 0x03020100, 0x07060504, 0x0B0A0908, 0x0F0E0D0C,
      0x13121110, 0x17161514, 0x1B1A1918, 0x1F1E1D1C, 0x00000001, 0x09000000, 0x4A000000, 0x00000000]
  chachaCore m =
    [0x10, 0xF1, 0xE7, 0xE4, 0xD1, 0x3B, 0x59, 0x15, 0x50, 0x0F, 0xDD, 0x1F, 0xA3, 0x20, 0x71, 0xC4] ++
    [0xC7, 0xD1, 0xF4, 0xC7, 0x33, 0xC0, 0x68, 0x03, 0x04, 0x22, 0xAA, 0x9A, 0xC3, 0xD4, 0x6C, 0x4E] ++
    [0xD2, 0x82, 0x64, 0x46, 0x07, 0x9F, 0xAA, 0x09, 0x14, 0xC2, 0xD7, 0x05, 0xD9, 0x8B, 0x02, 0xA2] ++
    [0xB5, 0x12, 0x9C, 0xD1, 0xDE, 0x16, 0x4E, 0xB9, 0xCB, 0xD0, 0x83, 0xE8, 0xA2, 0x50, 0x3C, 0x4E]

/-- R169: `CtrAdd(k)`. -/
def Obligations.CounterAddRecordsTheWrap : Prop :=
  ∀ (b : EngineB) (k : Nat), k = 1 ∨ k = 4 →
    ctrAdd k b =
      { b with
        m := b.m.set 12 (BitVec.ofNat 32 ((b.m[12].toNat + k) % 2 ^ 32))
        wrap := if 2 ^ 32 ≤ b.m[12].toNat + k then true else b.wrap }

/-- R167, R170: the four-block path gives the bytes, the counter and the wrap flag of four single blocks. -/
def Obligations.FourBlocksEqualFourSingles : Prop :=
  ∀ b : EngineB,
    let k0 := ksBlock b
    let k1 := ksBlock k0.2
    let k2 := ksBlock k1.2
    let k3 := ksBlock k2.2
    ksBlock4 b = (k0.1 ++ k1.1 ++ k2.1 ++ k3.1, k3.2)

/-- R166, R168: the keystream commands complete in the phases `ACTIVE` and `FINISHED`; 64 or 256 bytes are XORed in place, the
counter advances by 1 or 4, `h` and everything else stay. Byte order and constants are PRESUMED (log entry 5). -/
def Obligations.KeystreamCommandsXorInPlace : Prop :=
  ∀ (s : State) (i : Instr) (k : Nat), (i = .bChachaBlock ∧ k = 1) ∨ (i = .bChacha4Block ∧ k = 4) →
    s.engB.present = true → s.engB.phase = .active ∨ s.engB.phase = .finished → s.mem.wf = true →
    s.argSrc.toNat + 64 * k ≤ 2 ^ 32 →
    ∃ t, exec i s = .next t ∧
      t = { s with last := 0x80000000, mem := t.mem, engB := afterBlocks k s.engB } ∧
      (∀ j, j < 64 * k → t.mem.read (s.argSrc.toNat + j) =
        s.mem.read (s.argSrc.toNat + j) ^^^ ksByte s.engB.m j) ∧
      ∀ a, a < s.argSrc.toNat ∨ s.argSrc.toNat + 64 * k ≤ a → t.mem.read a = s.mem.read a

/-! ### MAC accumulator -/

/-- R191: the value of a block, its range and its limbs (byte order PRESUMED, log entry 5). -/
def Obligations.BlockValueLimbs : Prop :=
  ∀ b : Bytes, b.length = 16 →
    2 ^ 128 ≤ blockVal b ∧ blockVal b < 2 ^ 129 ∧
    (Limbs.ofVal (blockVal b)).val = blockVal b ∧
    (Limbs.ofVal (blockVal b)).l0.toNat = leNat b % 2 ^ 26 ∧
    (Limbs.ofVal (blockVal b)).l1.toNat = leNat b / 2 ^ 26 % 2 ^ 26 ∧
    (Limbs.ofVal (blockVal b)).l2.toNat = leNat b / 2 ^ 52 % 2 ^ 26 ∧
    (Limbs.ofVal (blockVal b)).l3.toNat = leNat b / 2 ^ 78 % 2 ^ 26 ∧
    (Limbs.ofVal (blockVal b)).l4.toNat = leNat b / 2 ^ 104 + 2 ^ 24

/-- R193, R194: what `MacInit` derives from 32 bytes, every limb array canonical, and what it leaves (the mask and the
halves are PRESUMED, log entry 5). -/
def Obligations.MacInitDerivesTheKey : Prop :=
  ∀ (k : Bytes) (b : EngineB), k.length = 32 →
    let t := macInit k b
    let r := leNat (slice k 0 16) &&& 0x0FFFFFFC0FFFFFFC0FFFFFFC0FFFFFFF
    t.r.val = r ∧ r < 2 ^ 124 ∧ t.u.val = r * r % (2 ^ 130 - 5) ∧ t.h = Limbs.zero ∧
    maskVal t.s = leNat (slice k 16 16) ∧ t.r.canonical = true ∧ t.u.canonical = true ∧
    t = { b with r := t.r, u := t.u, h := t.h, s := t.s }

/-- R197: a pair absorbed at once is the two blocks absorbed singly, and the cut of a sequence across commands does not matter;
in states that keep `u` = r^2 mod P. -/
def Obligations.PairLaw : Prop :=
  ∀ b : EngineB, b.u.val = b.r.val * b.r.val % Config.prime →
    (∀ b0 b1 : Bytes, absorbPair b0 b1 b = absorbOne b1 (absorbOne b0 b)) ∧
    ∀ (n k : Nat) (d : Bytes), macUpdate (n + k) d b = macUpdate k (d.drop (16 * n)) (macUpdate n d b)

/-- R198: the closed form of `MacUpdate`; in states that keep the invariant of engine B. The value of a block rests on the
PRESUMED byte order (log entry 5). -/
def Obligations.MacUpdateClosedForm : Prop :=
  ∀ (b : EngineB) (n : Nat) (d : Bytes), b.Inv →
    macUpdate n d b = { b with h := Limbs.ofVal (hashAfter b.h.val b.r.val d n) } ∧
    (macUpdate n d b).h.val = hashAfter b.h.val b.r.val d n

/-- R200: `B_MAC_UPDATE` completes in the phase `ACTIVE` and changes `h` and `LAST` only. The byte order of a
block is PRESUMED (log entry 5), the limb form log entry 8. -/
def Obligations.MacUpdateCommand : Prop :=
  ∀ s : State, s.engB.Inv → s.engB.present = true → s.engB.phase = .active →
    s.argSrc.toNat + 16 * s.argLen.toNat ≤ 2 ^ 32 →
    exec .bMacUpdate s = .next
      { s with
        last := 0x80000000
        engB := { s.engB with
          h := Limbs.ofVal
            (hashAfter s.engB.h.val s.engB.r.val (s.mem.readBytes s.argSrc.toNat (16 * s.argLen.toNat))
              s.argLen.toNat) } }

/-- R201, R202: the limb-level finish gives the tag by value, for limbs that are each below 2^30 (byte order of the tag: log
entry 5; the two forms: log entry 8). -/
def Obligations.LimbFinishEqualsValueFinish : Prop :=
  ∀ (h : Limbs) (s : Mask),
    h.l0.toNat < 2 ^ 30 → h.l1.toNat < 2 ^ 30 → h.l2.toNat < 2 ^ 30 → h.l3.toNat < 2 ^ 30 → h.l4.toNat < 2 ^ 30 →
    macFinishLimbs h s = toLE ((h.val % Config.prime % 2 ^ 128 + maskVal s) % 2 ^ 128) 16

/-! ### AEAD driver -/

/-- R263: the factory of engine B, its encoding, its success and its four errors in order. -/
def Obligations.ConstructB : Prop :=
  decode 0x00000020 = .ok .bConstruct ∧
  ∀ s : State,
    (s.engB.present = true → exec .bConstruct s = .next { s with last := 0x00000103 }) ∧
    (s.engB.present = false → s.argAux ≠ 2 → exec .bConstruct s = .next { s with last := 0x00000104, result := 0 }) ∧
    (s.engB.present = false → s.argAux = 2 → s.argAuxlen ≠ 32 →
      exec .bConstruct s = .next { s with last := 0x00000105, result := 0 }) ∧
    (s.engB.present = false → s.argAux = 2 → s.argAuxlen = 32 → s.capB = false →
      exec .bConstruct s = .next { s with last := 0x00000206, result := 0 }) ∧
    (s.engB.present = false → s.argAux = 2 → s.argAuxlen = 32 → s.capB = true →
      exec .bConstruct s = .next
        { s with
          last := 0x80000000, result := 1
          engB := { s.engB with present := true, phase := .noKey, wrap := false } })

/-- R222: `B_SET_KEY` in any phase; a wrong length changes nothing. The fixed row is PRESUMED (log entry 5). -/
def Obligations.SetKeyB : Prop :=
  ∀ s : State, s.engB.present = true →
    (s.argAuxlen ≠ 32 → exec .bSetKey s = .next { s with last := 0x00000107 }) ∧
    (s.argAuxlen = 32 → s.argAux.toNat + 32 ≤ 2 ^ 32 →
      ∃ m : Matrix,
        exec .bSetKey s = .next
          { s with
            last := 0x80000000
            engB :=
              { present := true, phase := .keyed, wrap := false, m := m, r := Limbs.zero, u := Limbs.zero
                h := Limbs.zero, s := #v[0, 0, 0, 0] } } ∧
        m[0] = 0x61707865 ∧ m[1] = 0x3320646E ∧ m[2] = 0x79622D32 ∧ m[3] = 0x6B206574 ∧
        (∀ j : Fin 8, m.toList.getD (4 + j.val) 0 = le32 (s.mem.readBytes (s.argAux.toNat + 4 * j.val) 4)) ∧
        ∀ j : Fin 4, m.toList.getD (12 + j.val) 1 = 0)

/-- R224 to R226: `B_INIT` in every phase but `NOKEY`: counter 0 for the MAC-key block and 1 after it, the nonce words from the
IV, `r` and `s` from bytes 0 to 31 of the block, `u` from `r`, `h` zero, the phase `ACTIVE`; a wrong length changes
nothing. The first counter, the mask and the halves are PRESUMED (log entry 5). -/
def Obligations.InitB : Prop :=
  ∀ s : State, s.engB.present = true → s.engB.phase ≠ .noKey →
    (s.argAuxlen ≠ 12 → exec .bInit s = .next { s with last := 0x00000108 }) ∧
    (s.argAuxlen = 12 → s.argAux.toNat + 12 ≤ 2 ^ 32 →
      let w : Nat → Word := fun j => le32 (s.mem.readBytes (s.argAux.toNat + 4 * j) 4)
      let row : Word → Matrix := fun c => (((s.engB.m.set 12 c).set 13 (w 0)).set 14 (w 1)).set 15 (w 2)
      let ks := chachaCore (row 0)
      let r := leNat (slice ks 0 16) &&& 0x0FFFFFFC0FFFFFFC0FFFFFFC0FFFFFFF
      ∃ b : EngineB, exec .bInit s = .next { s with last := 0x80000000, engB := b } ∧
        b.present = true ∧ b.phase = .active ∧ b.wrap = false ∧ b.m = row 1 ∧
        b.r.val = r ∧ b.u.val = r * r % (2 ^ 130 - 5) ∧ b.h = Limbs.zero ∧ maskVal b.s = leNat (slice ks 16 16) ∧
        b.r.canonical = true ∧ b.u.canonical = true)

/-- R229 and, for the decrypt, R230: the closed forms. Block j of the output is block j of the input XOR `K(j)`; the counter, the
wrap flag and `h` end as if single blocks had been used; what is absorbed is the ciphertext.
Byte order and constants are PRESUMED (log entry 5). -/
def Obligations.AeadClosedForm : Prop :=
  ∀ (n : Nat) (d : Bytes) (b : EngineB), d.length = 64 * n →
    ((encTransform n d b).1.length = 64 * n ∧
      (∀ j (h : j < d.length), (encTransform n d b).1.getD j 0 = d[j] ^^^ ksByte b.m j) ∧
      (encTransform n d b).2 =
        { afterBlocks n b with h := (macUpdate (4 * n) (encTransform n d b).1 b).h }) ∧
    ((decTransform n d b).1 = (encTransform n d b).1 ∧
      (decTransform n d b).2 = { afterBlocks n b with h := (macUpdate (4 * n) d b).h })

/-- R228, R230: `B_ENCRYPT` and `B_DECRYPT` complete in the phase `ACTIVE`; each byte is XORed in place with the keystream, the
counter advances by n, `h` absorbs the ciphertext (the output of the one, the input of the other), nothing
else changes. Byte order and constants are PRESUMED (log entry 5). -/
def Obligations.AeadCommands : Prop :=
  ∀ (s : State) (i : Instr), i = .bEncrypt ∨ i = .bDecrypt →
    s.engB.present = true → s.engB.phase = .active → s.mem.wf = true →
    s.argSrc.toNat + 64 * s.argLen.toNat ≤ 2 ^ 32 →
    let src := s.argSrc.toNat
    let n := s.argLen.toNat
    ∃ t, exec i s = .next t ∧
      t = { s with
            last := 0x80000000, mem := t.mem
            engB := { afterBlocks n s.engB with
              h := (macUpdate (4 * n)
                ((if i = .bEncrypt then t.mem else s.mem).readBytes src (64 * n)) s.engB).h } } ∧
      (∀ j, j < 64 * n → t.mem.read (src + j) = s.mem.read (src + j) ^^^ ksByte s.engB.m j) ∧
      ∀ a, a < src ∨ src + 64 * n ≤ a → t.mem.read a = s.mem.read a

/-- R231: from equal engine state, `B_DECRYPT` on the ciphertext `B_ENCRYPT` left ends in equal engine state and restores the
plaintext. -/
def Obligations.AeadRoundTrip : Prop :=
  ∀ s t : State, s.mem.wf = true → exec .bEncrypt s = .next t → t.last = 0x80000000 →
    ∃ t', exec .bDecrypt { s with mem := t.mem } = .next t' ∧ t'.last = 0x80000000 ∧
      t'.engB = t.engB ∧ t'.mem = s.mem

/-- R201, R232: `B_FINISH` completes in the phase `ACTIVE`, writes the 16 tag bytes and enters `FINISHED`; the limbs, the mask
and the matrix stay. The byte order of the tag is PRESUMED (log entry 5). -/
def Obligations.FinishWritesTheTag : Prop :=
  ∀ s : State, s.engB.present = true → s.engB.phase = .active → s.mem.wf = true → s.argDst.toNat + 16 ≤ 2 ^ 32 →
    ∃ t, exec .bFinish s = .next t ∧
      t = { s with last := 0x80000000, mem := t.mem, engB := { s.engB with phase := .finished } } ∧
      leNat (t.mem.readBytes s.argDst.toNat 16) =
        (s.engB.h.val % (2 ^ 130 - 5) % 2 ^ 128 + maskVal s.engB.s) % 2 ^ 128 ∧
      ∀ a, a < s.argDst.toNat ∨ s.argDst.toNat + 16 ≤ a → t.mem.read a = s.mem.read a

/-- R220: `B_CONSTRUCT` enters `NOKEY`; and the phase machine of a present engine B, with lengths and ranges right: the phase
entered, or the error of a phase in which the command is not accepted, with nothing else changed. -/
def Obligations.PhaseMachine : Prop :=
  (∀ s t : State, exec .bConstruct s = .next t → t.last = 0x80000000 → t.engB.present = true ∧ t.engB.phase = .noKey) ∧
  ∀ (s : State) (i : Instr), i.onEngineA = false → i ≠ .bConstruct → s.engB.present = true → rangesFit i s →
    (i = .bSetKey → s.argAuxlen = 32) → (i = .bInit → s.argAuxlen = 12) →
    match phaseAfter i s.engB.phase with
    | some p => ∃ t, exec i s = .next t ∧ t.last = 0x80000000 ∧ t.engB.phase = p ∧
        t.engB.present = decide (i ≠ .bDestroy)
    | none => exec i s = .next { s with last := lastErr (phaseError s.engB.phase) }

/-! ### Outcomes -/

/-- R281, R282: the value of `LAST` after success and for each error, and its fields. -/
def Obligations.OutcomeCodes : Prop :=
  lastOk = 0x80000000 ∧ lastErr .illegalCommand = 0x00000101 ∧ lastErr .absent = 0x00000102 ∧
  lastErr .present = 0x00000103 ∧ lastErr .alg = 0x00000104 ∧ lastErr .keySize = 0x00000105 ∧
  lastErr .capability = 0x00000206 ∧ lastErr .keyLength = 0x00000107 ∧ lastErr .ivLength = 0x00000108 ∧
  lastErr .noKey = 0x00000109 ∧ lastErr .notInit = 0x0000010A ∧ lastErr .finished = 0x0000010B

/-- R283, R291: a written command word reports the first failing test, decoding first, and the failure changes `LAST` only (a
failing factory, unless its instance is present, also sets `RESULT` to 0). -/
def Obligations.FirstFailingTestIsReported : Prop :=
  ∀ (s : State) (w : Word) (rest : List HostAction), s.pending = .write 0 w :: rest →
    (∀ why, decode w = .error why → step s = .next { s with pending := rest, last := lastErr .illegalCommand }) ∧
    ∀ (i : Instr) (e : CmdError), decode w = .ok i → reportedError i s = some e →
      step s = .next
        { s with
          pending := rest, last := lastErr e
          result := if i.isConstruct = true ∧ e ≠ .present then 0 else s.result }

/-- R280, R282: a command whose tests pass and whose ranges have a meaning completes with success. -/
def Obligations.CommandsCompleteWhenTestsPass : Prop :=
  ∀ (i : Instr) (s : State), reportedError i s = none → rangesFit i s → rangesCompatible i s →
    ∃ t, exec i s = .next t ∧ t.last = 0x80000000

/-- R51, R57 (U3, U4): a command whose tests pass is refused where a range would pass 2^32, and where the source and destination of
engine A partly overlap. That the tests come first is DEDUCED, that of the two the range is reported first is the model's
DESIGN CHOICE (log entry 7). -/
def Obligations.MeaninglessRangesAreRefused : Prop :=
  ∀ (i : Instr) (s : State), reportedError i s = none →
    (¬ rangesFit i s → exec i s = .refused .rangePastTop) ∧
    (rangesFit i s → ¬ rangesCompatible i s → exec i s = .refused .partialOverlap)

/-- R285: the same command, with the same operands and engine state, fails again with the same code. -/
def Obligations.FailuresRepeat : Prop :=
  ∀ (i : Instr) (s t : State), exec i s = .next t → t.last ≠ 0x80000000 → exec i t = .next t

/-! ### Invariant -/

/-- Reset meets the invariant; so the invariant is not empty. -/
def Obligations.ResetMeetsTheInvariant : Prop := State.reset.Inv

/-- Every step keeps the invariant: `LAST` legal (R25, R286), absent engines erased (R44), unused sub-keys zero (R32), the fixed
row of the matrix (R35, log entry 5), limbs canonical (R40, log entry 8) and `u` = r^2 mod P (R37, R194), memory in its form
(R51, log entry 4). -/
def Obligations.StepKeepsTheInvariant : Prop :=
  ∀ s t : State, s.Inv → step s = .next t → t.Inv

/-! ### Whole-machine rules -/

/-- R22: no command modifies an `ARG_*` register; nor the inputs, nor what the host has still to do or has seen. -/
def Obligations.OperandsAreNeverModified : Prop :=
  ∀ (i : Instr) (s t : State), exec i s = .next t →
    t.argSrc = s.argSrc ∧ t.argDst = s.argDst ∧ t.argLen = s.argLen ∧ t.argAux = s.argAux ∧
    t.argAuxlen = s.argAuxlen ∧ t.capA = s.capA ∧ t.capB = s.capB ∧ t.pending = s.pending ∧ t.seen = s.seen

/-- R264: a command of one engine neither reads nor writes the other's state. -/
def Obligations.EnginesAreIndependent : Prop :=
  ∀ (i : Instr) (s : State),
    (i.onEngineA = true →
      ∀ b, exec i { s with engB := b } = mapNext (fun t => { t with engB := b }) (exec i s)) ∧
    (i.onEngineA = false →
      ∀ a, exec i { s with engA := a } = mapNext (fun t => { t with engA := a }) (exec i s))

/-- R260, R326: no command but a factory reads a capability input. -/
def Obligations.CapabilityIsSampledAtConstruction : Prop :=
  ∀ (i : Instr) (s : State) (x y : Bool), i.isConstruct = false →
    exec i { s with capA := x, capB := y } = mapNext (fun t => { t with capA := x, capB := y }) (exec i s)

/-- R26, R30 to R39: each register and flag is written only by the commands listed for it; in states that keep the invariant. -/
def Obligations.RegistersHaveTheirWriters : Prop :=
  ∀ (i : Instr) (s t : State), s.Inv → exec i s = .next t →
    (t.result ≠ s.result → i.isConstruct = true ∨ i.isQuery = true) ∧
    (t.engA.present ≠ s.engA.present → i ∈ [Instr.aConstruct, .aDestroy]) ∧
    (t.engA.variant ≠ s.engA.variant → i ∈ [Instr.aConstruct, .aDestroy]) ∧
    (t.engA.keyValid ≠ s.engA.keyValid ∨ t.engA.rk ≠ s.engA.rk ∨ t.engA.nonce ≠ s.engA.nonce →
      i ∈ [Instr.aSetKey, .aDestroy]) ∧
    (t.engA.cs ≠ s.engA.cs →
      i ∈ [Instr.aEncrypt false, .aEncrypt true, .aDecrypt false, .aDecrypt true, .aDestroy]) ∧
    (t.engB.present ≠ s.engB.present → i ∈ [Instr.bConstruct, .bDestroy]) ∧
    (t.engB.phase ≠ s.engB.phase → i ∈ [Instr.bConstruct, .bSetKey, .bInit, .bFinish, .bDestroy]) ∧
    (t.engB.wrap ≠ s.engB.wrap ∨ t.engB.m ≠ s.engB.m →
      i ∈ [Instr.bSetKey, .bInit, .bChachaBlock, .bChacha4Block, .bEncrypt, .bDecrypt, .bDestroy]) ∧
    (t.engB.r ≠ s.engB.r ∨ t.engB.u ≠ s.engB.u ∨ t.engB.s ≠ s.engB.s → i ∈ [Instr.bSetKey, .bInit, .bDestroy]) ∧
    (t.engB.h ≠ s.engB.h →
      i ∈ [Instr.bSetKey, .bInit, .bMacUpdate, .bEncrypt, .bDecrypt, .bDestroy])

/-- R66: a command writes no byte outside its range and reads none outside its read ranges: its whole effect is the same on a
memory that agrees there. A failed command writes nothing and reads nothing. -/
def Obligations.MemoryFootprint : Prop :=
  ∀ (i : Instr) (s t : State), exec i s = .next t →
    (∀ a, ¬ inRange a (writeRange i s) → t.mem.read a = s.mem.read a) ∧
    (t.last ≠ 0x80000000 → t.mem = s.mem) ∧
    ∀ m : Memory, s.mem.wf = true → m.wf = true →
      (t.last = 0x80000000 → ∀ r ∈ readRanges i s, ∀ a, inRange a r → m.read a = s.mem.read a) →
      ∃ t', exec i { s with mem := m } = .next t' ∧ t' = { t with mem := t'.mem } ∧
        (t.last = 0x80000000 → ∀ a, inRange a (writeRange i s) → t'.mem.read a = t.mem.read a)

/-- R42: what the host reads does not depend on secret state; a command that writes no buffer memory lets none of it out; and
where the keystream counters (which `b_wrap` records) are equal, no command lets any out but through buffer memory. -/
def Obligations.SecretsStayInside : Prop :=
  ∀ s s' : State, visible s = visible s' →
    (∀ n, portRead s n = portRead s' n) ∧
    (∀ i : Instr, i.writesMemory = false → mapNext visible (exec i s) = mapNext visible (exec i s')) ∧
    (s.engB.m[12] = s'.engB.m[12] →
      ∀ i : Instr, mapNext (fun t => { visible t with mem := [] }) (exec i s) =
        mapNext (fun t => { visible t with mem := [] }) (exec i s'))
end

