-- ==== Sys2Proof/Laws/Bytes.lean ====
section
/-! SUPPORT. Byte sequences: lengths, elements, and the conversions to numbers and back. -/

namespace Sys2Proof.Machine

/-- `LE` of n bytes is below 256^n (R10). -/
theorem leNat_lt (bs : Bytes) : leNat bs < 256 ^ bs.length := by
  induction bs with
  | nil => simp [leNat]
  | cons b bs ih =>
    have hb := b.isLt
    simp only [leNat, List.length_cons, Nat.pow_succ]
    omega

@[simp] theorem length_toLE (v n : Nat) : (toLE v n).length = n := by
  induction n generalizing v with
  | zero => rfl
  | succ n ih => simp [toLE, ih]

/-- `LE(toLE(v, n)) = v` modulo 256^n (R10). -/
theorem leNat_toLE (v n : Nat) : leNat (toLE v n) = v % 256 ^ n := by
  induction n generalizing v with
  | zero => simp [toLE, leNat, Nat.mod_one]
  | succ n ih =>
    have h8 : (2 : Nat) ^ 8 = 256 := rfl
    simp only [toLE, leNat, ih, BitVec.toNat_ofNat, h8]
    rw [show 256 ^ (n + 1) = 256 * 256 ^ n by rw [Nat.pow_succ, Nat.mul_comm], Nat.mod_mul]

/-- `toLE(LE(b), len(b)) = b` (R10). -/
theorem toLE_leNat (bs : Bytes) : toLE (leNat bs) bs.length = bs := by
  induction bs with
  | nil => rfl
  | cons b bs ih =>
    have hb := b.isLt
    have h1 : BitVec.ofNat 8 (b.toNat + 256 * leNat bs) = b := by
      apply BitVec.eq_of_toNat_eq
      simp
      omega
    have h2 : (b.toNat + 256 * leNat bs) / 256 = leNat bs := by omega
    simp only [leNat, List.length_cons, toLE, h1, h2, ih]

@[simp] theorem length_toLE32 (w : Word) : (toLE32 w).length = 4 := length_toLE _ _

@[simp] theorem length_toBE32 (w : Word) : (toBE32 w).length = 4 := by simp [toBE32]

/-- `LE32(toLE32(w)) = w` (R10). -/
@[simp] theorem le32_toLE32 (w : Word) : le32 (toLE32 w) = w := by
  apply BitVec.eq_of_toNat_eq
  have := w.isLt
  simp only [le32, toLE32, leNat_toLE, BitVec.toNat_ofNat]
  omega

/-- `BE32(toBE32(w)) = w` (R10). -/
@[simp] theorem be32_toBE32 (w : Word) : be32 (toBE32 w) = w := by
  apply BitVec.eq_of_toNat_eq
  have := w.isLt
  simp only [be32, toBE32, List.reverse_reverse, leNat_toLE, BitVec.toNat_ofNat]
  omega

/-- `toBE32(BE32(b)) = b` for four bytes (R10). -/
theorem toBE32_be32 {bs : Bytes} (h : bs.length = 4) : toBE32 (be32 bs) = bs := by
  have hl : leNat bs.reverse < 2 ^ 32 := by
    have := leNat_lt bs.reverse
    simp only [List.length_reverse, h] at this
    omega
  have ht := toLE_leNat bs.reverse
  simp only [List.length_reverse, h] at ht
  simp only [toBE32, be32, BitVec.toNat_ofNat, Nat.mod_eq_of_lt hl, ht, List.reverse_reverse]

@[simp] theorem length_slice (bs : Bytes) (i n : Nat) : (slice bs i n).length = min n (bs.length - i) := by
  simp [slice]

@[simp] theorem length_zeros (n : Nat) : (zeros n).length = n := by simp [zeros]

@[simp] theorem length_xorBytes (x y : Bytes) : (xorBytes x y).length = min x.length y.length := by
  simp [xorBytes]

@[simp] theorem getElem_xorBytes (x y : Bytes) (i : Nat) (h : i < (xorBytes x y).length) :
    (xorBytes x y)[i] = x[i]'(by simp at h; omega) ^^^ y[i]'(by simp at h; omega) := by
  simp [xorBytes]

/-- XOR with the same bytes twice restores the first operand, as far as the second reaches. -/
theorem xorBytes_xorBytes {x y : Bytes} (h : x.length ≤ y.length) : xorBytes (xorBytes x y) y = x := by
  apply List.ext_getElem
  · simp [h]
  · intro i h1 h2
    simp

@[simp] theorem getElem_toVec (n : Nat) (bs : Bytes) (i : Nat) (h : i < n) : (toVec n bs)[i] = bs.getD i 0 := by
  simp [toVec]

/-- A sequence of n bytes survives the register of n bytes. -/
theorem toList_toVec {n : Nat} {bs : Bytes} (h : bs.length = n) : (toVec n bs).toList = bs := by
  subst h
  apply List.ext_getElem
  · simp
  · intro i h1 h2
    simp [List.getD_eq_getElem?_getD, List.getElem?_eq_getElem h2]

/-- A register of n bytes survives its byte sequence. -/
theorem toVec_toList {n : Nat} (v : Vector Byte n) : toVec n v.toList = v := by
  apply Vector.ext
  intro i h
  simp [List.getD_eq_getElem?_getD, h]

@[simp] theorem getElem_xorBlock (x y : Block) (i : Nat) (h : i < 16) : (xorBlock x y)[i] = x[i] ^^^ y[i] := by
  simp [xorBlock]

/-- The little-endian number of two pieces (R10). -/
theorem leNat_append (x y : Bytes) : leNat (x ++ y) = leNat x + 256 ^ x.length * leNat y := by
  induction x with
  | nil => simp [leNat]
  | cons a x ih =>
    simp only [List.cons_append, leNat, ih, List.length_cons]
    ring

end Sys2Proof.Machine
end

