-- ==== Sys2Proof/Laws/Codec.lean ====
section
/-! SUPPORT. The counter-state codec: the bytes of an encoded counter state and the two round trips. -/

namespace Sys2Proof.Machine

/-- The sixteen bytes of a counter state: nonce, IV, counter (R90). -/
theorem csEncode_toList (n : Nonce) (iv : CtrIv) (c : Word) :
    (csEncode n iv c).toList = n.toList ++ iv.toList ++ toBE32 c := by
  rw [csEncode, toList_toVec]
  simp

/-- The bytes of `toBE32`, most significant first (R10). -/
theorem toBE32_bytes (c : Word) :
    toBE32 c = [c.extractLsb' 24 8, c.extractLsb' 16 8, c.extractLsb' 8 8, c.extractLsb' 0 8] := by
  have h : ∀ k, BitVec.ofNat 8 (c.toNat / 256 ^ k) = c.extractLsb' (8 * k) 8 := by
    intro k
    apply BitVec.eq_of_toNat_eq
    simp [BitVec.extractLsb'_toNat, Nat.shiftRight_eq_div_pow, Nat.pow_mul]
  have h0 := h 0
  have h1 := h 1
  have h2 := h 2
  have h3 := h 3
  simp only [toBE32, toLE, List.reverse_cons, List.reverse_nil, List.nil_append, List.cons_append,
    Nat.div_div_eq_div_mul]
  norm_num at h0 h1 h2 h3 ⊢
  exact ⟨h3, h2, h1, h0⟩

/-- Decoding an encoded counter state (R92). -/
@[simp] theorem csDecode_csEncode (n : Nonce) (iv : CtrIv) (c : Word) : csDecode (csEncode n iv c) = (n, iv, c) := by
  have e1 : List.take 4 (List.drop 0 (n.toList ++ iv.toList ++ toBE32 c)) = n.toList := by simp
  have e2 : List.take 8 (List.drop 4 (n.toList ++ iv.toList ++ toBE32 c)) = iv.toList := by simp
  have e3 : List.take 4 (List.drop 12 (n.toList ++ iv.toList ++ toBE32 c)) = toBE32 c := by
    rw [List.drop_append, List.drop_of_length_le (by simp)]
    simp
  simp only [csDecode, csEncode_toList, slice]
  rw [e1, e2, e3, toVec_toList, toVec_toList, be32_toBE32]

/-- Incrementing an encoded counter state (R94). -/
@[simp] theorem csIncr_csEncode (n : Nonce) (iv : CtrIv) (c : Word) : csIncr (csEncode n iv c) = csEncode n iv (c + 1) := by
  simp [csIncr, add32]

end Sys2Proof.Machine
end

