-- ==== Sys2Proof/Laws/State.lean ====
section
/-! SUPPORT. What each named update of the state leaves in each field, so that no later proof unfolds an update. -/

namespace Sys2Proof.Machine

/-! ### succeed -/

@[simp] theorem succeed_last (s : State) : (succeed s).last = lastOk := rfl
@[simp] theorem succeed_result (s : State) : (succeed s).result = s.result := rfl
@[simp] theorem succeed_argSrc (s : State) : (succeed s).argSrc = s.argSrc := rfl
@[simp] theorem succeed_argDst (s : State) : (succeed s).argDst = s.argDst := rfl
@[simp] theorem succeed_argLen (s : State) : (succeed s).argLen = s.argLen := rfl
@[simp] theorem succeed_argAux (s : State) : (succeed s).argAux = s.argAux := rfl
@[simp] theorem succeed_argAuxlen (s : State) : (succeed s).argAuxlen = s.argAuxlen := rfl
@[simp] theorem succeed_engA (s : State) : (succeed s).engA = s.engA := rfl
@[simp] theorem succeed_engB (s : State) : (succeed s).engB = s.engB := rfl
@[simp] theorem succeed_mem (s : State) : (succeed s).mem = s.mem := rfl
@[simp] theorem succeed_capA (s : State) : (succeed s).capA = s.capA := rfl
@[simp] theorem succeed_capB (s : State) : (succeed s).capB = s.capB := rfl
@[simp] theorem succeed_pending (s : State) : (succeed s).pending = s.pending := rfl
@[simp] theorem succeed_seen (s : State) : (succeed s).seen = s.seen := rfl

/-! ### raise -/

@[simp] theorem raise_last (e : CmdError) (s : State) : (raise e s).last = lastErr e := rfl
@[simp] theorem raise_result (e : CmdError) (s : State) : (raise e s).result = s.result := rfl
@[simp] theorem raise_argSrc (e : CmdError) (s : State) : (raise e s).argSrc = s.argSrc := rfl
@[simp] theorem raise_argDst (e : CmdError) (s : State) : (raise e s).argDst = s.argDst := rfl
@[simp] theorem raise_argLen (e : CmdError) (s : State) : (raise e s).argLen = s.argLen := rfl
@[simp] theorem raise_argAux (e : CmdError) (s : State) : (raise e s).argAux = s.argAux := rfl
@[simp] theorem raise_argAuxlen (e : CmdError) (s : State) : (raise e s).argAuxlen = s.argAuxlen := rfl
@[simp] theorem raise_engA (e : CmdError) (s : State) : (raise e s).engA = s.engA := rfl
@[simp] theorem raise_engB (e : CmdError) (s : State) : (raise e s).engB = s.engB := rfl
@[simp] theorem raise_mem (e : CmdError) (s : State) : (raise e s).mem = s.mem := rfl
@[simp] theorem raise_capA (e : CmdError) (s : State) : (raise e s).capA = s.capA := rfl
@[simp] theorem raise_capB (e : CmdError) (s : State) : (raise e s).capB = s.capB := rfl
@[simp] theorem raise_pending (e : CmdError) (s : State) : (raise e s).pending = s.pending := rfl
@[simp] theorem raise_seen (e : CmdError) (s : State) : (raise e s).seen = s.seen := rfl

/-! ### setResult -/

@[simp] theorem setResult_last (v : Word) (s : State) : (setResult v s).last = s.last := rfl
@[simp] theorem setResult_result (v : Word) (s : State) : (setResult v s).result = v := rfl
@[simp] theorem setResult_argSrc (v : Word) (s : State) : (setResult v s).argSrc = s.argSrc := rfl
@[simp] theorem setResult_argDst (v : Word) (s : State) : (setResult v s).argDst = s.argDst := rfl
@[simp] theorem setResult_argLen (v : Word) (s : State) : (setResult v s).argLen = s.argLen := rfl
@[simp] theorem setResult_argAux (v : Word) (s : State) : (setResult v s).argAux = s.argAux := rfl
@[simp] theorem setResult_argAuxlen (v : Word) (s : State) : (setResult v s).argAuxlen = s.argAuxlen := rfl
@[simp] theorem setResult_engA (v : Word) (s : State) : (setResult v s).engA = s.engA := rfl
@[simp] theorem setResult_engB (v : Word) (s : State) : (setResult v s).engB = s.engB := rfl
@[simp] theorem setResult_mem (v : Word) (s : State) : (setResult v s).mem = s.mem := rfl
@[simp] theorem setResult_capA (v : Word) (s : State) : (setResult v s).capA = s.capA := rfl
@[simp] theorem setResult_capB (v : Word) (s : State) : (setResult v s).capB = s.capB := rfl
@[simp] theorem setResult_pending (v : Word) (s : State) : (setResult v s).pending = s.pending := rfl
@[simp] theorem setResult_seen (v : Word) (s : State) : (setResult v s).seen = s.seen := rfl

/-! ### clearResult -/

@[simp] theorem clearResult_last (s : State) : (clearResult s).last = s.last := rfl
@[simp] theorem clearResult_result (s : State) : (clearResult s).result = 0 := rfl
@[simp] theorem clearResult_argSrc (s : State) : (clearResult s).argSrc = s.argSrc := rfl
@[simp] theorem clearResult_argDst (s : State) : (clearResult s).argDst = s.argDst := rfl
@[simp] theorem clearResult_argLen (s : State) : (clearResult s).argLen = s.argLen := rfl
@[simp] theorem clearResult_argAux (s : State) : (clearResult s).argAux = s.argAux := rfl
@[simp] theorem clearResult_argAuxlen (s : State) : (clearResult s).argAuxlen = s.argAuxlen := rfl
@[simp] theorem clearResult_engA (s : State) : (clearResult s).engA = s.engA := rfl
@[simp] theorem clearResult_engB (s : State) : (clearResult s).engB = s.engB := rfl
@[simp] theorem clearResult_mem (s : State) : (clearResult s).mem = s.mem := rfl
@[simp] theorem clearResult_capA (s : State) : (clearResult s).capA = s.capA := rfl
@[simp] theorem clearResult_capB (s : State) : (clearResult s).capB = s.capB := rfl
@[simp] theorem clearResult_pending (s : State) : (clearResult s).pending = s.pending := rfl
@[simp] theorem clearResult_seen (s : State) : (clearResult s).seen = s.seen := rfl

/-! ### memWrite -/

@[simp] theorem memWrite_last (a : Word) (bs : Bytes) (s : State) : (memWrite a bs s).last = s.last := rfl
@[simp] theorem memWrite_result (a : Word) (bs : Bytes) (s : State) : (memWrite a bs s).result = s.result := rfl
@[simp] theorem memWrite_argSrc (a : Word) (bs : Bytes) (s : State) : (memWrite a bs s).argSrc = s.argSrc := rfl
@[simp] theorem memWrite_argDst (a : Word) (bs : Bytes) (s : State) : (memWrite a bs s).argDst = s.argDst := rfl
@[simp] theorem memWrite_argLen (a : Word) (bs : Bytes) (s : State) : (memWrite a bs s).argLen = s.argLen := rfl
@[simp] theorem memWrite_argAux (a : Word) (bs : Bytes) (s : State) : (memWrite a bs s).argAux = s.argAux := rfl
@[simp] theorem memWrite_argAuxlen (a : Word) (bs : Bytes) (s : State) : (memWrite a bs s).argAuxlen = s.argAuxlen := rfl
@[simp] theorem memWrite_engA (a : Word) (bs : Bytes) (s : State) : (memWrite a bs s).engA = s.engA := rfl
@[simp] theorem memWrite_engB (a : Word) (bs : Bytes) (s : State) : (memWrite a bs s).engB = s.engB := rfl
@[simp] theorem memWrite_mem (a : Word) (bs : Bytes) (s : State) : (memWrite a bs s).mem = s.mem.writeBytes a.toNat bs := rfl
@[simp] theorem memWrite_capA (a : Word) (bs : Bytes) (s : State) : (memWrite a bs s).capA = s.capA := rfl
@[simp] theorem memWrite_capB (a : Word) (bs : Bytes) (s : State) : (memWrite a bs s).capB = s.capB := rfl
@[simp] theorem memWrite_pending (a : Word) (bs : Bytes) (s : State) : (memWrite a bs s).pending = s.pending := rfl
@[simp] theorem memWrite_seen (a : Word) (bs : Bytes) (s : State) : (memWrite a bs s).seen = s.seen := rfl

/-! ### observe -/

@[simp] theorem observe_last (o : Observation) (s : State) : (observe o s).last = s.last := rfl
@[simp] theorem observe_result (o : Observation) (s : State) : (observe o s).result = s.result := rfl
@[simp] theorem observe_argSrc (o : Observation) (s : State) : (observe o s).argSrc = s.argSrc := rfl
@[simp] theorem observe_argDst (o : Observation) (s : State) : (observe o s).argDst = s.argDst := rfl
@[simp] theorem observe_argLen (o : Observation) (s : State) : (observe o s).argLen = s.argLen := rfl
@[simp] theorem observe_argAux (o : Observation) (s : State) : (observe o s).argAux = s.argAux := rfl
@[simp] theorem observe_argAuxlen (o : Observation) (s : State) : (observe o s).argAuxlen = s.argAuxlen := rfl
@[simp] theorem observe_engA (o : Observation) (s : State) : (observe o s).engA = s.engA := rfl
@[simp] theorem observe_engB (o : Observation) (s : State) : (observe o s).engB = s.engB := rfl
@[simp] theorem observe_mem (o : Observation) (s : State) : (observe o s).mem = s.mem := rfl
@[simp] theorem observe_capA (o : Observation) (s : State) : (observe o s).capA = s.capA := rfl
@[simp] theorem observe_capB (o : Observation) (s : State) : (observe o s).capB = s.capB := rfl
@[simp] theorem observe_pending (o : Observation) (s : State) : (observe o s).pending = s.pending := rfl
@[simp] theorem observe_seen (o : Observation) (s : State) : (observe o s).seen = o :: s.seen := rfl

/-! ### offerCommand -/

@[simp] theorem offerCommand_last (w : Word) (s : State) : (offerCommand w s).last = s.last := rfl
@[simp] theorem offerCommand_result (w : Word) (s : State) : (offerCommand w s).result = s.result := rfl
@[simp] theorem offerCommand_argSrc (w : Word) (s : State) : (offerCommand w s).argSrc = s.argSrc := rfl
@[simp] theorem offerCommand_argDst (w : Word) (s : State) : (offerCommand w s).argDst = s.argDst := rfl
@[simp] theorem offerCommand_argLen (w : Word) (s : State) : (offerCommand w s).argLen = s.argLen := rfl
@[simp] theorem offerCommand_argAux (w : Word) (s : State) : (offerCommand w s).argAux = s.argAux := rfl
@[simp] theorem offerCommand_argAuxlen (w : Word) (s : State) : (offerCommand w s).argAuxlen = s.argAuxlen := rfl
@[simp] theorem offerCommand_engA (w : Word) (s : State) : (offerCommand w s).engA = s.engA := rfl
@[simp] theorem offerCommand_engB (w : Word) (s : State) : (offerCommand w s).engB = s.engB := rfl
@[simp] theorem offerCommand_mem (w : Word) (s : State) : (offerCommand w s).mem = s.mem := rfl
@[simp] theorem offerCommand_capA (w : Word) (s : State) : (offerCommand w s).capA = s.capA := rfl
@[simp] theorem offerCommand_capB (w : Word) (s : State) : (offerCommand w s).capB = s.capB := rfl
@[simp] theorem offerCommand_pending (w : Word) (s : State) : (offerCommand w s).pending = .write 0 w :: s.pending := rfl
@[simp] theorem offerCommand_seen (w : Word) (s : State) : (offerCommand w s).seen = s.seen := rfl

/-! ### resetCore -/

@[simp] theorem resetCore_last (s : State) : (resetCore s).last = 0 := rfl
@[simp] theorem resetCore_result (s : State) : (resetCore s).result = 0 := rfl
@[simp] theorem resetCore_argSrc (s : State) : (resetCore s).argSrc = 0 := rfl
@[simp] theorem resetCore_argDst (s : State) : (resetCore s).argDst = 0 := rfl
@[simp] theorem resetCore_argLen (s : State) : (resetCore s).argLen = 0 := rfl
@[simp] theorem resetCore_argAux (s : State) : (resetCore s).argAux = 0 := rfl
@[simp] theorem resetCore_argAuxlen (s : State) : (resetCore s).argAuxlen = 0 := rfl
@[simp] theorem resetCore_engA (s : State) : (resetCore s).engA = EngineA.reset := rfl
@[simp] theorem resetCore_engB (s : State) : (resetCore s).engB = EngineB.reset := rfl
@[simp] theorem resetCore_mem (s : State) : (resetCore s).mem = s.mem := rfl
@[simp] theorem resetCore_capA (s : State) : (resetCore s).capA = s.capA := rfl
@[simp] theorem resetCore_capB (s : State) : (resetCore s).capB = s.capB := rfl
@[simp] theorem resetCore_pending (s : State) : (resetCore s).pending = s.pending := rfl
@[simp] theorem resetCore_seen (s : State) : (resetCore s).seen = s.seen := rfl

/-! ### setHash -/

@[simp] theorem setHash_present (v : Nat) (b : EngineB) : (setHash v b).present = b.present := rfl
@[simp] theorem setHash_phase (v : Nat) (b : EngineB) : (setHash v b).phase = b.phase := rfl
@[simp] theorem setHash_wrap (v : Nat) (b : EngineB) : (setHash v b).wrap = b.wrap := rfl
@[simp] theorem setHash_m (v : Nat) (b : EngineB) : (setHash v b).m = b.m := rfl
@[simp] theorem setHash_r (v : Nat) (b : EngineB) : (setHash v b).r = b.r := rfl
@[simp] theorem setHash_u (v : Nat) (b : EngineB) : (setHash v b).u = b.u := rfl
@[simp] theorem setHash_h (v : Nat) (b : EngineB) : (setHash v b).h = Limbs.ofVal (v % Config.prime) := rfl
@[simp] theorem setHash_s (v : Nat) (b : EngineB) : (setHash v b).s = b.s := rfl

/-! ### ctrAdd -/

@[simp] theorem ctrAdd_present (k : Nat) (b : EngineB) : (ctrAdd k b).present = b.present := rfl
@[simp] theorem ctrAdd_phase (k : Nat) (b : EngineB) : (ctrAdd k b).phase = b.phase := rfl
@[simp] theorem ctrAdd_wrap (k : Nat) (b : EngineB) : (ctrAdd k b).wrap = (b.wrap || counterWraps b.m[12] k) := rfl
@[simp] theorem ctrAdd_m (k : Nat) (b : EngineB) : (ctrAdd k b).m = withCounter b.m (add32 b.m[12] (BitVec.ofNat 32 k)) := rfl
@[simp] theorem ctrAdd_r (k : Nat) (b : EngineB) : (ctrAdd k b).r = b.r := rfl
@[simp] theorem ctrAdd_u (k : Nat) (b : EngineB) : (ctrAdd k b).u = b.u := rfl
@[simp] theorem ctrAdd_h (k : Nat) (b : EngineB) : (ctrAdd k b).h = b.h := rfl
@[simp] theorem ctrAdd_s (k : Nat) (b : EngineB) : (ctrAdd k b).s = b.s := rfl

/-! ### macInit -/

@[simp] theorem macInit_present (k : Bytes) (b : EngineB) : (macInit k b).present = b.present := rfl
@[simp] theorem macInit_phase (k : Bytes) (b : EngineB) : (macInit k b).phase = b.phase := rfl
@[simp] theorem macInit_wrap (k : Bytes) (b : EngineB) : (macInit k b).wrap = b.wrap := rfl
@[simp] theorem macInit_m (k : Bytes) (b : EngineB) : (macInit k b).m = b.m := rfl
@[simp] theorem macInit_r (k : Bytes) (b : EngineB) : (macInit k b).r = Limbs.ofVal (leNat (slice k 0 16) &&& Config.clamp) := rfl
@[simp] theorem macInit_u (k : Bytes) (b : EngineB) : (macInit k b).u = Limbs.ofVal ((leNat (slice k 0 16) &&& Config.clamp) * (leNat (slice k 0 16) &&& Config.clamp) % Config.prime) := rfl
@[simp] theorem macInit_h (k : Bytes) (b : EngineB) : (macInit k b).h = Limbs.zero := rfl
@[simp] theorem macInit_s (k : Bytes) (b : EngineB) : (macInit k b).s = Vector.ofFn fun j => wordAt (slice k 16 16) j.val := rfl

/-- Erasing an engine gives its reset state (R44). -/
@[simp] theorem EngineA.erased_eq (a : EngineA) : a.erased = EngineA.reset := rfl

/-- Erasing an engine gives its reset state (R44). -/
@[simp] theorem EngineB.erased_eq (b : EngineB) : b.erased = EngineB.reset := rfl

end Sys2Proof.Machine
end

