-- ==== Sys2Proof/Laws/Memory.lean ====
section
/-! SUPPORT. Buffer memory: one byte written and read, ranges, and the canonical form. -/

namespace Sys2Proof.Machine

/-- A byte the memory does not list reads as the unlisted byte when every listed address is larger. -/
theorem Memory.read_of_wfFrom_lt {m : Memory} {lo a : Nat} (h : m.wfFrom lo = true) (ha : a < lo) :
    m.read a = Memory.unlisted a := by
  induction m generalizing lo with
  | nil => rfl
  | cons c m ih =>
    obtain ⟨k, v⟩ := c
    simp only [Memory.wfFrom, Bool.and_eq_true, decide_eq_true_eq] at h
    have hne : a ≠ k := by omega
    simp only [Memory.read, if_neg hne]
    exact ih h.2 (by omega)

/-- A write leaves every other address alone, whatever the memory. -/
theorem Memory.read_write_ne (m : Memory) {a a' : Nat} (b : Byte) (h : a' ≠ a) :
    (m.write a b).read a' = m.read a' := by
  induction m with
  | nil =>
    unfold Memory.write
    split <;> simp [Memory.read, h]
  | cons c m ih =>
    obtain ⟨k, v⟩ := c
    unfold Memory.write
    split
    · split <;> simp [Memory.read, h]
    · split
      · subst_vars
        split <;> simp [Memory.read, h]
      · simp [Memory.read, ih]

/-- In a canonical memory a written byte reads back. -/
theorem Memory.read_write_self {m : Memory} {lo : Nat} (h : m.wfFrom lo = true) (a : Nat) (b : Byte) :
    (m.write a b).read a = b := by
  induction m generalizing lo with
  | nil =>
    unfold Memory.write
    split <;> simp_all [Memory.read]
  | cons c m ih =>
    obtain ⟨k, v⟩ := c
    have hw := h
    simp only [Memory.wfFrom, Bool.and_eq_true, decide_eq_true_eq] at hw
    unfold Memory.write
    split
    · rename_i hak
      split
      · subst_vars
        have hne : a ≠ k := by omega
        simp only [Memory.read, if_neg hne]
        exact Memory.read_of_wfFrom_lt hw.2 (by omega)
      · simp [Memory.read]
    · split
      · subst_vars
        split
        · subst_vars
          exact Memory.read_of_wfFrom_lt hw.2 (by omega)
        · simp [Memory.read]
      · rename_i hak
        have hne : a ≠ k := fun e => hak e
        simp only [Memory.read, if_neg hne]
        exact ih hw.2

/-- The bound below a canonical memory may be lowered. -/
theorem Memory.wfFrom_mono {m : Memory} {lo lo' : Nat} (h : m.wfFrom lo' = true) (hl : lo ≤ lo') :
    m.wfFrom lo = true := by
  cases m with
  | nil => rfl
  | cons c m =>
    obtain ⟨k, v⟩ := c
    simp only [Memory.wfFrom, Bool.and_eq_true, decide_eq_true_eq] at h ⊢
    exact ⟨⟨by omega, h.1.2⟩, h.2⟩

/-- A write keeps the rising order and lists no unlisted byte. -/
theorem Memory.wfFrom_write {m : Memory} {lo a : Nat} (b : Byte) (h : m.wfFrom lo = true) (ha : lo ≤ a) :
    (m.write a b).wfFrom lo = true := by
  induction m generalizing lo with
  | nil =>
    unfold Memory.write
    split <;> simp_all [Memory.wfFrom]
  | cons c m ih =>
    obtain ⟨k, v⟩ := c
    simp only [Memory.wfFrom, Bool.and_eq_true, decide_eq_true_eq] at h
    unfold Memory.write
    split
    · split
      · simp_all [Memory.wfFrom]
      · rename_i hak hb
        simp only [Memory.wfFrom, Bool.and_eq_true, decide_eq_true_eq]
        exact ⟨⟨ha, hb⟩, ⟨by omega, h.1.2⟩, h.2⟩
    · split
      · subst_vars
        split
        · exact Memory.wfFrom_mono h.2 (by omega)
        · simp_all [Memory.wfFrom]
      · rename_i hlt hne
        simp only [Memory.wfFrom, Bool.and_eq_true, decide_eq_true_eq]
        exact ⟨h.1, ih h.2 (by omega)⟩

/-- The two halves of the canonical form. -/
theorem Memory.wf_iff {m : Memory} :
    m.wf = true ↔ m.wfFrom 0 = true ∧ ∀ c ∈ m, c.1 < Config.addressLimit := by
  simp [Memory.wf]

/-- Every entry of a written memory was there or is the written one. -/
theorem Memory.mem_write {m : Memory} {a : Nat} {b : Byte} {c : Host.Cell} (h : c ∈ m.write a b) :
    c ∈ m ∨ c = (a, b) := by
  induction m with
  | nil =>
    unfold Memory.write at h
    split at h <;> simp_all
  | cons d m ih =>
    obtain ⟨k, v⟩ := d
    unfold Memory.write at h
    split at h
    · split at h
      · exact .inl h
      · rcases List.mem_cons.1 h with rfl | h
        · exact .inr rfl
        · exact .inl h
    · split at h
      · split at h
        · exact .inl (List.mem_cons_of_mem _ h)
        · rcases List.mem_cons.1 h with rfl | h
          · exact .inr rfl
          · exact .inl (List.mem_cons_of_mem _ h)
      · rcases List.mem_cons.1 h with rfl | h
        · exact .inl (List.mem_cons_self ..)
        · exact (ih h).imp_left (List.mem_cons_of_mem _)

/-- A write below 2^32 keeps the canonical form. -/
theorem Memory.wf_write {m : Memory} {a : Nat} (b : Byte) (h : m.wf = true) (ha : a < Config.addressLimit) :
    (m.write a b).wf = true := by
  rw [Memory.wf_iff] at h ⊢
  refine ⟨Memory.wfFrom_write b h.1 (Nat.zero_le _), fun c hc => ?_⟩
  rcases Memory.mem_write hc with hc | rfl
  · exact h.2 c hc
  · exact ha

/-- `MemWrite` of a range below 2^32 keeps the canonical form (R51). -/
theorem Memory.wf_writeBytes {m : Memory} {a : Nat} {bs : Bytes} (h : m.wf = true)
    (ha : a + bs.length ≤ Config.addressLimit) : (m.writeBytes a bs).wf = true := by
  induction bs generalizing m a with
  | nil => exact h
  | cons b bs ih =>
    simp only [List.length_cons] at ha
    exact ih (Memory.wf_write b h (by omega)) (by omega)

/-- `MemWrite` leaves every address outside its bytes alone (R51). -/
theorem Memory.read_writeBytes_outside (m : Memory) {a a' : Nat} {bs : Bytes} (h : a' < a ∨ a + bs.length ≤ a') :
    (m.writeBytes a bs).read a' = m.read a' := by
  induction bs generalizing m a with
  | nil => rfl
  | cons b bs ih =>
    simp only [List.length_cons] at h
    rw [Memory.writeBytes, ih _ (by omega), Memory.read_write_ne _ _ (by omega)]

/-- The rising order is kept by `MemWrite` at any address. -/
theorem Memory.wfFrom_writeBytes {m : Memory} {a : Nat} {bs : Bytes} (h : m.wfFrom 0 = true) :
    (m.writeBytes a bs).wfFrom 0 = true := by
  induction bs generalizing m a with
  | nil => exact h
  | cons b bs ih => exact ih (Memory.wfFrom_write b h (Nat.zero_le _))

/-- `MemWrite` puts byte i at address addr + i (R51). -/
theorem Memory.read_writeBytes_inside {m : Memory} {a i : Nat} {bs : Bytes} (h : m.wfFrom 0 = true)
    (hi : i < bs.length) : (m.writeBytes a bs).read (a + i) = bs[i] := by
  induction bs generalizing m a i with
  | nil => simp at hi
  | cons b bs ih =>
    cases i with
    | zero =>
      rw [Memory.writeBytes, Memory.read_writeBytes_outside _ (by omega), Nat.add_zero,
        Memory.read_write_self h, List.getElem_cons_zero]
    | succ i =>
      simp only [List.length_cons, Nat.add_lt_add_iff_right] at hi
      have := ih (m := m.write a b) (a := a + 1) (Memory.wfFrom_write b h (Nat.zero_le _)) hi
      rw [Memory.writeBytes, List.getElem_cons_succ, ← this]
      congr 1
      omega

/-- `MemRead` gives n bytes (R51). -/
@[simp] theorem Memory.length_readBytes (m : Memory) (a n : Nat) : (m.readBytes a n).length = n := by
  induction n generalizing a with
  | zero => rfl
  | succ n ih => simp [Memory.readBytes, ih]

/-- Byte i of `MemRead(addr, n)` is the byte at addr + i (R51). -/
@[simp] theorem Memory.getElem_readBytes (m : Memory) (a n i : Nat) (h : i < (m.readBytes a n).length) :
    (m.readBytes a n)[i] = m.read (a + i) := by
  induction n generalizing a i with
  | zero => simp at h
  | succ n ih =>
    cases i with
    | zero => simp [Memory.readBytes]
    | succ i =>
      simp only [Memory.readBytes, List.getElem_cons_succ]
      rw [ih]
      congr 1
      omega

/-- The bytes of `MemRead` of a state's range. -/
@[simp] theorem length_memRead (s : State) (r : Range) : (memRead s r).length = r.2 :=
  Memory.length_readBytes ..

/-- `MemRead` depends on the memory alone. -/
theorem memRead_congr {s t : State} (h : s.mem = t.mem) (r : Range) : memRead s r = memRead t r := by
  simp [memRead, h]

/-- A piece of `MemRead` is the `MemRead` of the piece (R51). -/
theorem slice_readBytes (m : Memory) {a n i k : Nat} (h : i + k ≤ n) :
    slice (m.readBytes a n) i k = m.readBytes (a + i) k := by
  apply List.ext_getElem
  · simp only [slice, List.length_take, List.length_drop, Memory.length_readBytes]
    omega
  · intro j h1 h2
    simp [slice, Nat.add_assoc]

/-- `MemRead` depends on the bytes of its range alone (R51, R66). -/
theorem Memory.readBytes_congr {m m' : Memory} {a n : Nat} (h : ∀ x, a ≤ x → x < a + n → m.read x = m'.read x) :
    m.readBytes a n = m'.readBytes a n := by
  apply List.ext_getElem (by simp)
  intro i h1 h2
  have hi : i < n := by simpa using h1
  simp only [Memory.getElem_readBytes]
  exact h _ (by omega) (by omega)

end Sys2Proof.Machine
end

