-- ==== Sys2Proof/Laws/Ctr.lean ====
section
/-! SUPPORT. The counter-mode loops, each as one XOR with a run of cipher blocks. -/

namespace Sys2Proof.Machine

open Sys2Proof.Config (Cipher)

/-- XOR of two sequences cut at the same place. -/
theorem xorBytes_append {a b x y : Bytes} (h : a.length = x.length) :
    xorBytes (a ++ b) (x ++ y) = xorBytes a x ++ xorBytes b y :=
  List.zipWith_append h

/-- XOR may be taken in either order. -/
theorem xorBytes_comm (x y : Bytes) : xorBytes x y = xorBytes y x := by
  simp only [xorBytes]
  rw [List.zipWith_comm]
  simp only [BitVec.xor_comm]

/-- XOR reaches as far as the shorter sequence. -/
theorem xorBytes_take_left (x y : Bytes) : xorBytes (x.take y.length) y = xorBytes x y := by
  apply List.ext_getElem
  · simp [Nat.min_comm]
  · intro i h1 h2
    simp

/-- The counter after a word's counter is the next number's word. -/
theorem ofNat_succ32 (c : Nat) : BitVec.ofNat 32 c + 1 = BitVec.ofNat 32 (c + 1) :=
  (BitVec.ofNat_add c 1).symm

/-- n encrypted counter blocks, the first with counter c (R134). -/
def ctrRun (C : Cipher) (rk : Schedule) (len : Nat) (nonce : Nonce) (iv : CtrIv) : Nat → Nat → Bytes
  | _, 0 => []
  | c, n + 1 => (rounds1 C rk len (csEncode nonce iv (BitVec.ofNat 32 c))).toList ++ ctrRun C rk len nonce iv (c + 1) n

variable (C : Cipher) (rk : Schedule) (len : Nat) (nonce : Nonce) (iv : CtrIv)

@[simp] theorem length_ctrRun (c n : Nat) : (ctrRun C rk len nonce iv c n).length = 16 * n := by
  induction n generalizing c with
  | zero => rfl
  | succ n ih =>
    simp [ctrRun, ih]
    omega

/-- A run cut in two. -/
theorem ctrRun_add (c m n : Nat) :
    ctrRun C rk len nonce iv c (m + n) = ctrRun C rk len nonce iv c m ++ ctrRun C rk len nonce iv (c + m) n := by
  induction m generalizing c with
  | zero => simp [ctrRun]
  | succ m ih =>
    rw [show m + 1 + n = (m + n) + 1 by omega, ctrRun, ctrRun, ih, List.append_assoc]
    congr 3
    omega

/-- Byte j of a run stands in block j / 16. -/
theorem getD_ctrRun (c n j : Nat) (h : j < 16 * n) :
    (ctrRun C rk len nonce iv c n).getD j 0 =
      (rounds1 C rk len (csEncode nonce iv (BitVec.ofNat 32 (c + j / 16)))).toList.getD (j % 16) 0 := by
  induction n generalizing c j with
  | zero => omega
  | succ n ih =>
    by_cases hj : j < 16
    · have h0 : j / 16 = 0 := by omega
      have h1 : j % 16 = j := by omega
      rw [ctrRun, h0, h1, Nat.add_zero]
      simp [List.getD_eq_getElem?_getD, List.getElem?_append_left, hj]
    · have h0 : c + j / 16 = c + 1 + (j - 16) / 16 := by omega
      have h1 : j % 16 = (j - 16) % 16 := by omega
      rw [h0, h1, ← ih (c + 1) (j - 16) (by omega), ctrRun]
      simp only [List.getD_eq_getElem?_getD]
      rw [List.getElem?_append_right (by simpa using hj)]
      simp

/-- The lanes of a group are the next four counter blocks (R135). -/
theorem laneBytes_rounds4 (c : Nat) :
    laneBytes (rounds4 C rk len (laneStates (csEncode nonce iv (BitVec.ofNat 32 c)))) =
      ctrRun C rk len nonce iv c 4 := by
  have hl : ∀ (f : Block → Block) (x : Lanes) (j : Nat) (h : j < 4), (onLanes f x)[j] = f x[j] := by
    intro f x j h
    simp [onLanes]
  have hm : ∀ (n i : Nat) (x : Lanes) (j : Nat) (h : j < 4), (middle4 C rk n i x)[j] = middle1 C rk n i x[j] := by
    intro n
    induction n with
    | zero => exact fun _ _ _ _ => rfl
    | succ n ih =>
      intro i x j h
      rw [middle4, ih _ _ _ h, hl _ _ _ h, middle1]
  have hr : ∀ (x : Lanes) (j : Nat) (h : j < 4), (rounds4 C rk len x)[j] = rounds1 C rk len x[j] := by
    intro x j h
    simp only [rounds4, rounds1, hl _ _ _ h, hm _ _ _ _ h]
  simp only [laneBytes, hr _ 0 (by omega), hr _ 1 (by omega), hr _ 2 (by omega), hr _ 3 (by omega), laneStates,
    csIncr_csEncode, ofNat_succ32, ctrRun, List.append_nil, List.append_assoc]
  rfl

/-- Single blocks are one XOR with a run (R136). -/
theorem ctrSingles_eq (n c : Nat) (inp : Bytes) (h : 16 * n ≤ inp.length) :
    ctrSingles C rk len n (csEncode nonce iv (BitVec.ofNat 32 c)) inp =
      (xorBytes (ctrRun C rk len nonce iv c n) (inp.take (16 * n)),
        csEncode nonce iv (BitVec.ofNat 32 (c + n)), inp.drop (16 * n)) := by
  induction n generalizing c inp with
  | zero => simp [ctrSingles, ctrRun, xorBytes]
  | succ n ih =>
    simp only [ctrSingles, csIncr_csEncode, ofNat_succ32, ih (c + 1) (inp.drop 16) (by simp; omega), ctrRun]
    have ht : inp.take (16 * (n + 1)) = inp.take 16 ++ (inp.drop 16).take (16 * n) := by
      rw [show 16 * (n + 1) = 16 + 16 * n by omega, List.take_add]
    rw [ht, xorBytes_append (by simp; omega)]
    simp only [List.drop_drop]
    rw [show 16 + 16 * n = 16 * (n + 1) by omega, show c + 1 + n = c + (n + 1) by omega]

/-- Four-block groups are one XOR with a run (R135). -/
theorem ctrGroups_eq (n c : Nat) (inp : Bytes) (h : 64 * n ≤ inp.length) :
    ctrGroups C rk len n (csEncode nonce iv (BitVec.ofNat 32 c)) inp =
      (xorBytes (ctrRun C rk len nonce iv c (4 * n)) (inp.take (64 * n)),
        csEncode nonce iv (BitVec.ofNat 32 (c + 4 * n)), inp.drop (64 * n)) := by
  induction n generalizing c inp with
  | zero => simp [ctrGroups, ctrRun, xorBytes]
  | succ n ih =>
    simp only [ctrGroups, csIncr_csEncode, ofNat_succ32, ih _ (inp.drop 64) (by simp; omega), laneBytes_rounds4]
    have ht : inp.take (64 * (n + 1)) = inp.take 64 ++ (inp.drop 64).take (64 * n) := by
      rw [show 64 * (n + 1) = 64 + 64 * n by omega, List.take_add]
    rw [ht, show 4 * (n + 1) = 4 + 4 * n by omega, ctrRun_add, xorBytes_append (by simp; omega)]
    simp only [List.drop_drop]
    rw [show 64 + 64 * n = 64 * (n + 1) by omega, show c + 1 + 1 + 1 + 1 = c + 4 by omega,
      show c + 4 + 4 * n = c + (4 + 4 * n) by omega]

/-- The partial block is the XOR with the head of one block, and no block for no bytes (R137). -/
theorem ctrPartial_eq (c : Nat) (inp : Bytes) (h : inp.length < 16) :
    ctrPartial C rk len (csEncode nonce iv (BitVec.ofNat 32 c)) inp =
      (xorBytes (ctrRun C rk len nonce iv c ((inp.length + 15) / 16)) inp,
        csEncode nonce iv (BitVec.ofNat 32 (c + (inp.length + 15) / 16))) := by
  unfold ctrPartial
  split
  · rename_i h0
    have : inp = [] := List.length_eq_zero_iff.1 h0
    subst this
    simp [ctrRun, xorBytes]
  · have h1 : (inp.length + 15) / 16 = 1 := by omega
    simp only [h1, csIncr_csEncode, ofNat_succ32, ctrRun, List.append_nil]
    refine Prod.ext ?_ rfl
    apply List.ext_getElem
    · simp
      omega
    · intro i hi1 hi2
      simp at hi1 hi2
      simp [List.getElem_append_left, hi2]

/-- The whole transform is one XOR with the run of its counter blocks (R133). -/
theorem ctrTransform_eq (inp : Bytes) :
    ctrTransform C rk len (csInit nonce iv) inp =
      (xorBytes (ctrRun C rk len nonce iv 1 ((inp.length + 15) / 16)) inp,
        csEncode nonce iv (BitVec.ofNat 32 (1 + (inp.length + 15) / 16))) := by
  have h1 : csInit nonce iv = csEncode nonce iv (BitVec.ofNat 32 1) := rfl
  simp only [ctrTransform, h1]
  rw [ctrGroups_eq _ _ _ _ _ _ _ _ (by omega)]
  simp only
  rw [ctrSingles_eq _ _ _ _ _ _ _ _ (by simp; omega)]
  simp only
  rw [ctrPartial_eq _ _ _ _ _ _ _ (by simp; omega)]
  simp only [List.drop_drop, List.length_drop]
  have e1 : 64 * (inp.length / 64) + 16 * (inp.length % 64 / 16) = 16 * (inp.length / 16) := by omega
  have e2 : (inp.length + 15) / 16 =
      4 * (inp.length / 64) + inp.length % 64 / 16 + (inp.length - 16 * (inp.length / 16) + 15) / 16 := by omega
  have hr : ctrRun C rk len nonce iv 1 ((inp.length + 15) / 16) =
      ctrRun C rk len nonce iv 1 (4 * (inp.length / 64)) ++
        ctrRun C rk len nonce iv (1 + 4 * (inp.length / 64)) (inp.length % 64 / 16) ++
        ctrRun C rk len nonce iv (1 + 4 * (inp.length / 64) + inp.length % 64 / 16)
          ((inp.length - 16 * (inp.length / 16) + 15) / 16) := by
    rw [e2, ctrRun_add, ctrRun_add, Nat.add_assoc]
  have hi : inp = inp.take (64 * (inp.length / 64)) ++
      (inp.drop (64 * (inp.length / 64))).take (16 * (inp.length % 64 / 16)) ++ inp.drop (16 * (inp.length / 16)) := by
    rw [← List.take_add, e1, List.take_append_drop]
  refine Prod.ext ?_ ?_
  · simp only
    rw [e1, hr]
    conv_rhs => rw [congrArg (xorBytes _) hi]
    rw [xorBytes_append (by simp; omega), xorBytes_append (by simp; omega)]
  · simp only
    congr 2
    omega

end Sys2Proof.Machine
end

