-- ==== Sys2Proof/Laws/Keystream.lean ====
section
/-! SUPPORT. The keystream: lengths, the block counter, and blocks in a row. -/

namespace Sys2Proof.Machine

@[simp] theorem length_matrixBytes (x : Matrix) : (matrixBytes x).length = 64 := by
  simp only [matrixBytes, List.length_flatMap, length_toLE32, List.map_const', List.sum_replicate,
    Vector.length_toList]
  rfl

/-- A keystream block has 64 bytes (R163). -/
@[simp] theorem length_chachaCore (m : Matrix) : (chachaCore m).length = 64 := length_matrixBytes _

@[simp] theorem withCounter_get (m : Matrix) (c : Word) : (withCounter m c)[12] = c := by simp [withCounter]

@[simp] theorem withCounter_withCounter (m : Matrix) (c c' : Word) :
    withCounter (withCounter m c) c' = withCounter m c' := by
  apply Vector.ext
  intro i hi
  by_cases h : i = 12
  · subst h
    simp [withCounter]
  · simp [withCounter, Ne.symm h]

@[simp] theorem withCounter_self (m : Matrix) : withCounter m m[12] = m := by
  apply Vector.ext
  intro i hi
  by_cases h : i = 12
  · subst h
    simp [withCounter]
  · simp [withCounter]

/-- Every word but the counter stands as before (R160). -/
theorem withCounter_get_ne (m : Matrix) (c : Word) (i : Nat) (hi : i < 16) (h : i ≠ 12) : (withCounter m c)[i] = m[i] := by
  simp [withCounter, Ne.symm h]

/-- Two advances are one (R169). -/
theorem ctrAdd_ctrAdd (j k : Nat) (b : EngineB) : ctrAdd k (ctrAdd j b) = ctrAdd (j + k) b := by
  have hw : ∀ c : Word, (counterWraps c j || counterWraps (add32 c (BitVec.ofNat 32 j)) k) = counterWraps c (j + k) := by
    intro c
    have := c.isLt
    simp only [counterWraps, add32, BitVec.toNat_add, BitVec.toNat_ofNat]
    rw [Bool.eq_iff_iff]
    simp only [Bool.or_eq_true, decide_eq_true_eq]
    by_cases h : 2 ^ 32 ≤ c.toNat + j
    · have : 2 ^ 32 ≤ c.toNat + (j + k) := by omega
      simp only [h, this, true_or]
    · have hj : (c.toNat + j % 2 ^ 32) % 2 ^ 32 = c.toNat + j := by omega
      rw [hj]
      omega
  have hm : ∀ c : Word,
      add32 (add32 c (BitVec.ofNat 32 j)) (BitVec.ofNat 32 k) = add32 c (BitVec.ofNat 32 (j + k)) := by
    intro c
    simp only [add32, BitVec.ofNat_add, BitVec.add_assoc]
  simp only [ctrAdd, withCounter_get, withCounter_withCounter, Bool.or_assoc, hw, hm]

@[simp] theorem ctrAdd_zero (b : EngineB) : ctrAdd 0 b = b := by
  have h : ¬ 2 ^ 32 ≤ b.m[12].toNat := by
    have := b.m[12].isLt
    omega
  simp only [ctrAdd, counterWraps, add32, Nat.add_zero, h, decide_false, Bool.or_false, BitVec.add_zero, withCounter_self]

/-- n keystream blocks of a matrix in a row, the first with counter offset j (R229). -/
def ksRun (m : Matrix) : Nat → Nat → Bytes
  | _, 0 => []
  | j, n + 1 => chachaCore (withCounter m (add32 m[12] (BitVec.ofNat 32 j))) ++ ksRun m (j + 1) n

@[simp] theorem length_ksRun (m : Matrix) (j n : Nat) : (ksRun m j n).length = 64 * n := by
  induction n generalizing j with
  | zero => rfl
  | succ n ih =>
    simp only [ksRun, List.length_append, length_chachaCore, ih]
    omega

/-- A run cut in two. -/
theorem ksRun_add (m : Matrix) (j k n : Nat) : ksRun m j (k + n) = ksRun m j k ++ ksRun m (j + k) n := by
  induction k generalizing j with
  | zero => simp [ksRun]
  | succ k ih =>
    rw [show k + 1 + n = (k + n) + 1 by omega, ksRun, ksRun, ih, List.append_assoc]
    congr 3
    omega

/-- A run from an advanced counter. -/
theorem ksRun_ctrAdd (b : EngineB) (k j n : Nat) : ksRun (ctrAdd k b).m j n = ksRun b.m (k + j) n := by
  induction n generalizing j with
  | zero => rfl
  | succ n ih =>
    have hm : add32 (add32 b.m[12] (BitVec.ofNat 32 k)) (BitVec.ofNat 32 j) = add32 b.m[12] (BitVec.ofNat 32 (k + j)) := by
      simp only [add32, BitVec.ofNat_add, BitVec.add_assoc]
    simp only [ksRun, ctrAdd_m, withCounter_get, withCounter_withCounter, hm]
    have := ih (j + 1)
    simp only [ctrAdd_m] at this
    rw [this, Nat.add_assoc]

/-- Byte i of a run stands in block i / 64. -/
theorem getD_ksRun (m : Matrix) (j n i : Nat) (h : i < 64 * n) :
    (ksRun m j n).getD i 0 =
      (chachaCore (withCounter m (add32 m[12] (BitVec.ofNat 32 (j + i / 64))))).getD (i % 64) 0 := by
  induction n generalizing j i with
  | zero => omega
  | succ n ih =>
    by_cases hi : i < 64
    · have h0 : i / 64 = 0 := by omega
      have h1 : i % 64 = i := by omega
      rw [ksRun, h0, h1, Nat.add_zero]
      simp [List.getD_eq_getElem?_getD, List.getElem?_append_left, hi]
    · have h0 : j + i / 64 = j + 1 + (i - 64) / 64 := by omega
      have h1 : i % 64 = (i - 64) % 64 := by omega
      rw [h0, h1, ← ih (j + 1) (i - 64) (by omega), ksRun]
      simp only [List.getD_eq_getElem?_getD]
      rw [List.getElem?_append_right (by simpa using hi)]
      simp

/-- One block is a run of one (R164). -/
theorem ksBlock_eq (b : EngineB) : ksBlock b = (ksRun b.m 0 1, ctrAdd 1 b) := by
  have h : add32 b.m[12] (BitVec.ofNat 32 0) = b.m[12] := by simp [add32]
  simp only [ksBlock, ksRun, h, withCounter_self, List.append_nil]

/-- The four-block path is a run of four (R167). -/
theorem ksBlock4_eq (b : EngineB) : ksBlock4 b = (ksRun b.m 0 4, ctrAdd 4 b) := by
  simp only [ksBlock4, ksRun, ksLane, List.append_nil, List.append_assoc]

/-- The rotation by shifts is the library's (R11). -/
theorem rotl32_eq_rotateLeft (x : Word) {n : Nat} (h : 0 < n) (h' : n < 32) : rotl32 x n = x.rotateLeft n := by
  rw [rotl32, BitVec.rotateLeft_def, Nat.mod_eq_of_lt h', BitVec.add_eq_or_of_and_eq_zero]
  apply BitVec.eq_of_getLsbD_eq
  intro i hi
  by_cases hn : i < n
  · simp [hn]
  · have : (x >>> (32 - n)).getLsbD i = false := by
      rw [BitVec.getLsbD_ushiftRight]
      exact BitVec.getLsbD_of_ge _ _ (by omega)
    simp [this]

/-- What a line of the quarter-round does to the word added to (R161). -/
theorem arx_sum {a b d : Fin 16} (n : Nat) (x : Matrix) (h : a ≠ d) : (arx a b d n x)[a] = x[a] + x[b] := by
  have := Fin.val_ne_of_ne h.symm
  simp [arx, add32, Vector.getElem_set, this]

/-- What it does to the word rotated (R161). -/
theorem arx_rot {a b d : Fin 16} (n : Nat) (x : Matrix) (h : a ≠ d) :
    (arx a b d n x)[d] = rotl32 (x[d] ^^^ (x[a] + x[b])) n := by
  have := Fin.val_ne_of_ne h
  simp [arx, add32, this]

/-- And that it leaves every other word (R161). -/
theorem arx_other {a b d k : Fin 16} (n : Nat) (x : Matrix) (h : k ≠ a) (h' : k ≠ d) : (arx a b d n x)[k] = x[k] := by
  have := Fin.val_ne_of_ne h.symm
  have := Fin.val_ne_of_ne h'.symm
  simp [arx, Vector.getElem_set, *]

end Sys2Proof.Machine
end

