-- ==== Sys2Proof/Laws/Mac.lean ====
section
/-! SUPPORT. The limbs of a number, and what the MAC's operations leave alone. -/

namespace Sys2Proof.Machine

/-- The limbs of a number below 2^130 give it back (R190). -/
theorem Limbs.val_ofVal {v : Nat} (h : v < 2 ^ 130) : (Limbs.ofVal v).val = v := by
  have e : v / 2 ^ 104 % 2 ^ 32 = v / 2 ^ 104 := Nat.mod_eq_of_lt (by omega)
  simp only [Limbs.val, Limbs.ofVal, BitVec.toNat_ofNat, e]
  rw [Nat.mod_eq_of_lt (a := v % 2 ^ 26) (by omega), Nat.mod_eq_of_lt (a := v / 2 ^ 26 % 2 ^ 26) (by omega),
    Nat.mod_eq_of_lt (a := v / 2 ^ 52 % 2 ^ 26) (by omega), Nat.mod_eq_of_lt (a := v / 2 ^ 78 % 2 ^ 26) (by omega)]
  omega

/-- The limbs of a number below P are canonical (R40). -/
theorem Limbs.canonical_ofVal {v : Nat} (h : v < Config.prime) : (Limbs.ofVal v).canonical = true := by
  have h' : v < 2 ^ 130 - 5 := h
  have e : v / 2 ^ 104 % 2 ^ 32 = v / 2 ^ 104 := Nat.mod_eq_of_lt (by omega)
  have hv : (Limbs.ofVal v).val < Config.prime := by
    rw [Limbs.val_ofVal (by omega)]
    exact h
  simp only [Limbs.canonical, decide_eq_true hv, Bool.and_true, Bool.and_eq_true, decide_eq_true_eq]
  simp only [Limbs.ofVal, BitVec.toNat_ofNat, e]
  omega

/-- A residue modulo P is below P. -/
theorem mod_prime_lt (v : Nat) : v % Config.prime < Config.prime :=
  Nat.mod_lt _ (by decide)

@[simp] theorem setHash_val (v : Nat) (b : EngineB) : (setHash v b).h.val = v % Config.prime := by
  have h : v % Config.prime < 2 ^ 130 - 5 := mod_prime_lt v
  rw [setHash_h, Limbs.val_ofVal (by omega)]

/-- Pairs change the hash alone (R196). -/
theorem macPairs_frame (n : Nat) (d : Bytes) (b : EngineB) : macPairs n d b = { b with h := (macPairs n d b).h } := by
  induction n generalizing d b with
  | zero => rfl
  | succ n ih =>
    rw [macPairs]
    exact ih ..

/-- `MacUpdate` changes the hash alone (R198). -/
theorem macUpdate_frame (n : Nat) (d : Bytes) (b : EngineB) : macUpdate n d b = { b with h := (macUpdate n d b).h } := by
  have hp := macPairs_frame (n / 2) d b
  unfold macUpdate
  split
  · simp only [absorbOne, setHash]
    rw [hp]
  · exact hp

/-- Pairs read the hash, the key and its square alone (R196). -/
theorem macPairs_reads (n : Nat) (d : Bytes) (b b' : EngineB) (hh : b.h = b'.h) (hr : b.r = b'.r) (hu : b.u = b'.u) :
    (macPairs n d b).h = (macPairs n d b').h := by
  induction n generalizing d b b' with
  | zero => exact hh
  | succ n ih =>
    simp only [macPairs]
    exact ih _ _ _ (by simp [absorbPair, hh, hr, hu]) (by simpa [absorbPair] using hr) (by simpa [absorbPair] using hu)

/-- `MacUpdate` reads the hash, the key and its square alone (R198). -/
theorem macUpdate_reads (n : Nat) (d : Bytes) (b b' : EngineB) (hh : b.h = b'.h) (hr : b.r = b'.r) (hu : b.u = b'.u) :
    (macUpdate n d b).h = (macUpdate n d b').h := by
  have hp := macPairs_reads (n / 2) d b b' hh hr hu
  have hq : (macPairs (n / 2) d b).r = (macPairs (n / 2) d b').r := by
    rw [macPairs_frame, macPairs_frame (n / 2) d b']
    exact hr
  unfold macUpdate
  split
  · simp only [absorbOne, setHash_h, hp, hq]
  · exact hp

/-- Pairs cut in two. -/
theorem macPairs_add (a k : Nat) (d : Bytes) (b : EngineB) :
    macPairs (a + k) d b = macPairs k (d.drop (32 * a)) (macPairs a d b) := by
  induction a generalizing d b with
  | zero => simp [macPairs]
  | succ a ih =>
    rw [show a + 1 + k = (a + k) + 1 by omega, macPairs, macPairs, ih, List.drop_drop]
    congr 2
    omega

/-- An even number of blocks is so many pairs (R198). -/
theorem macUpdate_even (a : Nat) (d : Bytes) (b : EngineB) : macUpdate (2 * a) d b = macPairs a d b := by
  have h1 : 2 * a / 2 = a := by omega
  have h2 : ¬ 2 * a % 2 = 1 := by omega
  simp only [macUpdate, h1, if_neg h2]

/-- An odd number of blocks is so many pairs and one block (R198). -/
theorem macUpdate_odd (a : Nat) (d : Bytes) (b : EngineB) :
    macUpdate (2 * a + 1) d b = absorbOne (slice d (32 * a) 16) (macPairs a d b) := by
  have h1 : (2 * a + 1) / 2 = a := by omega
  have h2 : (2 * a + 1) % 2 = 1 := by omega
  simp only [macUpdate, h1, if_pos h2]

/-- An even number of blocks leaves the pairs of what follows in place (R198). -/
theorem macUpdate_add_even (a k : Nat) (d : Bytes) (b : EngineB) :
    macUpdate (2 * a + k) d b = macUpdate k (d.drop (32 * a)) (macUpdate (2 * a) d b) := by
  have h1 : (2 * a + k) / 2 = a + k / 2 := by omega
  have h2 : (2 * a + k) % 2 = k % 2 := by omega
  have h3 : 32 * (a + k / 2) = 32 * a + 32 * (k / 2) := by omega
  rw [macUpdate_even]
  simp only [macUpdate, h1, h2, h3, macPairs_add, slice, List.drop_drop]

/-- n pairs read the first 32n bytes (R198). -/
theorem macPairs_take (n k : Nat) (h : 32 * n ≤ k) (d : Bytes) (b : EngineB) : macPairs n (d.take k) b = macPairs n d b := by
  induction n generalizing k d b with
  | zero => rfl
  | succ n ih =>
    have h1 : List.take 16 (List.take k d) = List.take 16 d := by
      rw [List.take_take, Nat.min_eq_left (by omega)]
    have h2 : slice (List.take k d) 16 16 = slice d 16 16 := by
      rw [slice, slice, List.drop_take, List.take_take, Nat.min_eq_left (by omega)]
    rw [macPairs, macPairs, h1, h2, List.drop_take, ih _ (by omega)]

/-- Pairs of two pieces, the first a whole number of pairs long (R198). -/
theorem macPairs_append (a k : Nat) (x y : Bytes) (b : EngineB) (h : x.length = 32 * a) :
    macPairs (a + k) (x ++ y) b = macPairs k y (macPairs a x b) := by
  have e : macPairs a (x ++ y) b = macPairs a x b := by
    rw [← macPairs_take a (32 * a) (Nat.le_refl _), ← h, List.take_left']
    rfl
  rw [macPairs_add, ← h, List.drop_left, e]

/-- Canonical limbs are the limbs of their value (R40). -/
theorem Limbs.ofVal_val {x : Limbs} (h : x.canonical = true) : Limbs.ofVal x.val = x := by
  obtain ⟨a, b, c, d, e⟩ := x
  simp only [Limbs.canonical, Bool.and_eq_true, decide_eq_true_eq, Limbs.val] at h
  simp only [Limbs.ofVal, Limbs.val, Limbs.mk.injEq]
  refine ⟨?_, ?_, ?_, ?_, ?_⟩ <;> apply BitVec.eq_of_toNat_eq <;> simp only [BitVec.toNat_ofNat] <;> omega

/-- The value of canonical limbs is below P (R40). -/
theorem Limbs.val_lt_prime {x : Limbs} (h : x.canonical = true) : x.val < Config.prime := by
  simp only [Limbs.canonical, Bool.and_eq_true, decide_eq_true_eq] at h
  exact h.2

/-- A clamped number is below 2^124 (R193). -/
theorem and_clamp_lt (x : Nat) : x &&& Config.clamp < 2 ^ 124 := by
  apply Nat.and_lt_two_pow
  decide

/-- The mask read from sixteen bytes is their little-endian number (R39, R193). -/
theorem maskVal_wordAt {k : Bytes} (h : k.length = 16) : maskVal (Vector.ofFn fun j => wordAt k j.val) = leNat k := by
  have h4 : ∀ j : Nat, j < 4 → (wordAt k j).toNat = leNat (slice k (4 * j) 4) := by
    intro j hj
    have hl : (slice k (4 * j) 4).length = 4 := by
      rw [length_slice, h]
      omega
    have := leNat_lt (slice k (4 * j) 4)
    rw [hl] at this
    simp only [wordAt, le32, BitVec.toNat_ofNat]
    exact Nat.mod_eq_of_lt this
  have e : k = slice k (4 * 0) 4 ++ (slice k (4 * 1) 4 ++ (slice k (4 * 2) 4 ++ slice k (4 * 3) 4)) := by
    match k, h with
    | [_, _, _, _, _, _, _, _, _, _, _, _, _, _, _, _], _ => rfl
  simp only [maskVal, Vector.getElem_ofFn]
  rw [h4 0 (by omega), h4 1 (by omega), h4 2 (by omega), h4 3 (by omega)]
  conv_rhs => rw [e]
  rw [leNat_append, leNat_append, leNat_append]
  simp only [length_slice, h]
  norm_num
  ring

/-- The hash depends on a number modulo P alone (R190). -/
theorem setHash_congr {v w : Nat} (b : EngineB) (h : v % Config.prime = w % Config.prime) : setHash v b = setHash w b := by
  simp [setHash, h]

end Sys2Proof.Machine
end

