-- ==== Sys2Proof/Laws/Aead.lean ====
section
/-! SUPPORT. The AEAD loops: what n chunks do to the bytes and to engine B. -/

namespace Sys2Proof.Machine

/-- Engine B with its block counter advanced by k and its hash replaced. -/
def advanced (k : Nat) (h : Limbs) (b : EngineB) : EngineB := { ctrAdd k b with h := h }

@[simp] theorem advanced_h (k : Nat) (h : Limbs) (b : EngineB) : (advanced k h b).h = h := rfl
@[simp] theorem advanced_r (k : Nat) (h : Limbs) (b : EngineB) : (advanced k h b).r = b.r := rfl
@[simp] theorem advanced_u (k : Nat) (h : Limbs) (b : EngineB) : (advanced k h b).u = b.u := rfl

/-- Two advances are one. -/
theorem advanced_advanced (j k : Nat) (h h' : Limbs) (b : EngineB) :
    advanced k h' (advanced j h b) = advanced (j + k) h' b := by
  have := ctrAdd_ctrAdd j k b
  simp only [advanced, ctrAdd, EngineB.mk.injEq, true_and, and_true] at this ⊢
  exact this

/-- A run of keystream from an advanced engine. -/
theorem ksRun_advanced (j k n : Nat) (h : Limbs) (b : EngineB) : ksRun (advanced k h b).m j n = ksRun b.m (k + j) n :=
  ksRun_ctrAdd b k j n

/-- A keystream step of k blocks (R164, R167). -/
abbrev KeystreamStep (ks : EngineB → Bytes × EngineB) (k : Nat) : Prop := ∀ b, ks b = (ksRun b.m 0 k, ctrAdd k b)

/-- The two keystream steps (R164, R167). -/
theorem keystreamStep_one : KeystreamStep ksBlock 1 := ksBlock_eq
theorem keystreamStep_four : KeystreamStep ksBlock4 4 := ksBlock4_eq

/-- The hash after an advance does not depend on the counter. -/
theorem macPairs_advanced (n k : Nat) (d : Bytes) (h : Limbs) (b : EngineB) :
    (macPairs n d (advanced k h b)).h = (macPairs n d { b with h := h }).h :=
  macPairs_reads _ _ _ _ rfl rfl rfl

variable {ks : EngineB → Bytes × EngineB} {k : Nat}

/-- One chunk of `B_ENCRYPT`, of k keystream blocks and 2k pairs of MAC blocks (R228). -/
theorem encChunk_eq (hk : KeystreamStep ks k) (d : Bytes) (b : EngineB) :
    encChunk ks (4 * k) d b =
      (xorBytes d (ksRun b.m 0 k), advanced k (macPairs (2 * k) (xorBytes d (ksRun b.m 0 k)) b).h b) := by
  have h4 : 4 * k = 2 * (2 * k) := by omega
  simp only [encChunk, hk b, h4, macUpdate_even]
  refine Prod.ext rfl ?_
  simp only
  rw [macPairs_frame, macPairs_reads _ _ (ctrAdd k b) b rfl rfl rfl]
  rfl

/-- One chunk of `B_DECRYPT` (R230). -/
theorem decChunk_eq (hk : KeystreamStep ks k) (d : Bytes) (b : EngineB) :
    decChunk ks (4 * k) d b =
      (xorBytes d (ksRun b.m 0 k), advanced k (macPairs (2 * k) d b).h b) := by
  have h4 : 4 * k = 2 * (2 * k) := by omega
  simp only [decChunk, h4, macUpdate_even, hk]
  rw [macPairs_frame]
  rfl

/-- n chunks of a step that is one XOR with the keystream and one absorption of what `f` takes: of the output or of the input. -/
theorem chunks_eq {step : Bytes → EngineB → Bytes × EngineB} {f : Bytes → Bytes → Bytes}
    (hf : ∀ x y x' y' : Bytes, x.length = y.length → f (x ++ x') (y ++ y') = f x y ++ f x' y')
    (hl : ∀ x y : Bytes, x.length = y.length → (f x y).length = x.length)
    (hs : ∀ d b, step d b =
      (xorBytes d (ksRun b.m 0 k), advanced k (macPairs (2 * k) (f d (xorBytes d (ksRun b.m 0 k))) b).h b))
    (n : Nat) (d : Bytes) (b : EngineB) (hd : 64 * k * n ≤ d.length) :
    chunks step (64 * k) n d b =
      (xorBytes (d.take (64 * k * n)) (ksRun b.m 0 (k * n)),
        advanced (k * n)
          (macPairs (2 * (k * n)) (f (d.take (64 * k * n)) (xorBytes (d.take (64 * k * n)) (ksRun b.m 0 (k * n)))) b).h b,
        d.drop (64 * k * n)) := by
  induction n generalizing d b with
  | zero =>
    simp only [chunks, Nat.mul_zero, List.take_zero, List.drop_zero, macPairs, advanced, ctrAdd_zero]
    rfl
  | succ n ih =>
    have hkn : 64 * k * (n + 1) = 64 * k + 64 * k * n := by
      rw [Nat.mul_add, Nat.mul_one, Nat.add_comm]
    rw [hkn] at hd ⊢
    have hk2 : k * (n + 1) = k + k * n := by rw [Nat.mul_add, Nat.mul_one, Nat.add_comm]
    have hlen : 64 * (k * n) = 64 * k * n := by rw [Nat.mul_assoc]
    have hl1 : (d.take (64 * k)).length = 64 * k := by
      rw [List.length_take]
      omega
    have hl2 : ((d.drop (64 * k)).take (64 * k * n)).length = 64 * k * n := by
      rw [List.length_take, List.length_drop]
      omega
    have hx : xorBytes (d.take (64 * k + 64 * k * n)) (ksRun b.m 0 (k + k * n)) =
        xorBytes (d.take (64 * k)) (ksRun b.m 0 k) ++
          xorBytes ((d.drop (64 * k)).take (64 * k * n)) (ksRun b.m k (k * n)) := by
      rw [List.take_add, ksRun_add, Nat.zero_add]
      exact List.zipWith_append (by rw [length_ksRun, hl1])
    have hx1 : (xorBytes (d.take (64 * k)) (ksRun b.m 0 k)).length = 64 * k := by
      rw [length_xorBytes, hl1, length_ksRun, Nat.min_self]
    simp only [chunks, hs]
    rw [ih _ _ (by rw [List.length_drop]; omega)]
    simp only [ksRun_advanced, Nat.add_zero, List.drop_drop, advanced_advanced, hk2, hx]
    refine Prod.ext rfl (Prod.ext ?_ rfl)
    simp only
    congr 1
    have hfl : (f (d.take (64 * k)) (xorBytes (d.take (64 * k)) (ksRun b.m 0 k))).length = 32 * (2 * k) := by
      rw [hl _ _ (hl1.trans hx1.symm), hl1]
      omega
    rw [List.take_add, hf _ _ _ _ (hl1.trans hx1.symm), show 2 * (k + k * n) = 2 * k + 2 * (k * n) by omega,
      macPairs_append _ _ _ _ _ hfl, macPairs_advanced]
    congr 2
    exact (macPairs_frame ..).symm

/-- `B_ENCRYPT` absorbs its output, `B_DECRYPT` its input; both XOR the whole input with one run of keystream and advance the
counter by n (R228, R230). -/
theorem aeadTransform_eq {group single : Bytes → EngineB → Bytes × EngineB} {f : Bytes → Bytes → Bytes}
    (hf : ∀ x y x' y' : Bytes, x.length = y.length → f (x ++ x') (y ++ y') = f x y ++ f x' y')
    (hl : ∀ x y : Bytes, x.length = y.length → (f x y).length = x.length)
    (hg : ∀ d b, group d b =
      (xorBytes d (ksRun b.m 0 4), advanced 4 (macPairs (2 * 4) (f d (xorBytes d (ksRun b.m 0 4))) b).h b))
    (hs : ∀ d b, single d b =
      (xorBytes d (ksRun b.m 0 1), advanced 1 (macPairs (2 * 1) (f d (xorBytes d (ksRun b.m 0 1))) b).h b))
    (n : Nat) (d : Bytes) (b : EngineB) (hd : d.length = 64 * n) :
    aeadTransform group single n d b =
      (xorBytes d (ksRun b.m 0 n), advanced n (macPairs (2 * n) (f d (xorBytes d (ksRun b.m 0 n))) b).h b) := by
  have e0 : 64 * 4 * (n / 4) + 64 * 1 * (n % 4) = 64 * n := by omega
  have e1 : 4 * (n / 4) + 1 * (n % 4) = n := by omega
  have hq : 64 * 4 * (n / 4) ≤ d.length := by omega
  have hr : 64 * 1 * (n % 4) ≤ (d.drop (64 * 4 * (n / 4))).length := by
    rw [List.length_drop]
    omega
  generalize hqd : n / 4 = q at *
  generalize hrd : n % 4 = r at *
  have hl1 : (d.take (64 * 4 * q)).length = 64 * 4 * q := by
    rw [List.length_take]
    omega
  have hd2 : (d.drop (64 * 4 * q)).take (64 * 1 * r) = d.drop (64 * 4 * q) := by
    rw [List.take_of_length_le]
    rw [List.length_drop]
    omega
  have hx : xorBytes d (ksRun b.m 0 n) =
      xorBytes (d.take (64 * 4 * q)) (ksRun b.m 0 (4 * q)) ++
        xorBytes (d.drop (64 * 4 * q)) (ksRun b.m (4 * q) (1 * r)) := by
    conv_lhs => rw [← List.take_append_drop (64 * 4 * q) d, ← e1, ksRun_add, Nat.zero_add]
    exact List.zipWith_append (by rw [length_ksRun, hl1]; omega)
  have hx1 : (xorBytes (d.take (64 * 4 * q)) (ksRun b.m 0 (4 * q))).length = 64 * 4 * q := by
    rw [length_xorBytes, hl1, length_ksRun]
    omega
  simp only [aeadTransform, hqd, hrd]
  rw [chunks_eq hf hl hg q d b hq]
  simp only
  rw [chunks_eq hf hl hs r _ _ hr]
  simp only [ksRun_advanced, Nat.add_zero, advanced_advanced, hd2, hx, e1]
  refine Prod.ext rfl ?_
  simp only
  congr 1
  have hfl : (f (d.take (64 * 4 * q)) (xorBytes (d.take (64 * 4 * q)) (ksRun b.m 0 (4 * q)))).length = 32 * (2 * (4 * q)) := by
    rw [hl _ _ (hl1.trans hx1.symm), hl1]
    omega
  have hfd : f d (xorBytes (d.take (64 * 4 * q)) (ksRun b.m 0 (4 * q)) ++
        xorBytes (d.drop (64 * 4 * q)) (ksRun b.m (4 * q) (1 * r))) =
      f (d.take (64 * 4 * q)) (xorBytes (d.take (64 * 4 * q)) (ksRun b.m 0 (4 * q))) ++
        f (d.drop (64 * 4 * q)) (xorBytes (d.drop (64 * 4 * q)) (ksRun b.m (4 * q) (1 * r))) := by
    rw [← hf _ _ _ _ (hl1.trans hx1.symm), List.take_append_drop]
  rw [hfd, show 2 * n = 2 * (4 * q) + 2 * (1 * r) by omega, macPairs_append _ _ _ _ _ hfl, macPairs_advanced]
  congr 2
  exact (macPairs_frame ..).symm

/-- The transform of `B_ENCRYPT` (R228). -/
theorem encTransform_eq (n : Nat) (d : Bytes) (b : EngineB) (hd : d.length = 64 * n) :
    encTransform n d b =
      (xorBytes d (ksRun b.m 0 n), advanced n (macPairs (2 * n) (xorBytes d (ksRun b.m 0 n)) b).h b) :=
  aeadTransform_eq (f := fun _ y => y) (fun _ _ _ _ _ => rfl) (fun _ _ h => h.symm)
    (encChunk_eq keystreamStep_four) (encChunk_eq keystreamStep_one) n d b hd

/-- The transform of `B_DECRYPT` (R230). -/
theorem decTransform_eq (n : Nat) (d : Bytes) (b : EngineB) (hd : d.length = 64 * n) :
    decTransform n d b = (xorBytes d (ksRun b.m 0 n), advanced n (macPairs (2 * n) d b).h b) :=
  aeadTransform_eq (f := fun x _ => x) (fun _ _ _ _ _ => rfl) (fun _ _ _ => rfl)
    (decChunk_eq keystreamStep_four) (decChunk_eq keystreamStep_one) n d b hd

end Sys2Proof.Machine
end

