-- ==== Sys2Proof/Laws/Command.lean ====
section
/-! SUPPORT. What a command can answer, once for all: a failure, a refusal, or its effect. -/

namespace Sys2Proof.Machine

/-- No check fails exactly when every condition is false (R291). -/
theorem firstError_eq_none {cs : List Check} : firstError cs = none ↔ ∀ c ∈ cs, c.1 = false := by
  induction cs with
  | nil => simp [firstError]
  | cons c cs ih =>
    obtain ⟨bad, e⟩ := c
    cases bad <;> simp [firstError, ih]

/-- The error reported is a failing check's, and every check before it passes (R291). -/
theorem firstError_eq_some {cs : List Check} {e : CmdError} (h : firstError cs = some e) :
    ∃ pre post, cs = pre ++ (true, e) :: post ∧ ∀ c ∈ pre, c.1 = false := by
  induction cs with
  | nil => simp [firstError] at h
  | cons c cs ih =>
    obtain ⟨bad, e'⟩ := c
    cases bad with
    | true =>
      simp only [firstError, if_true, Option.some.injEq] at h
      exact ⟨[], cs, by simp [h], by simp⟩
    | false =>
      obtain ⟨pre, post, rfl, hp⟩ := ih (by simpa [firstError] using h)
      exact ⟨(false, e') :: pre, post, rfl, by simpa using hp⟩

@[simp] theorem firstError_nil : firstError [] = none := rfl

@[simp] theorem firstError_cons (bad : Bool) (e : CmdError) (cs : List Check) :
    firstError ((bad, e) :: cs) = if bad then some e else firstError cs := rfl

@[simp] theorem firstBar_nil : firstBar [] = none := rfl

@[simp] theorem firstBar_cons (bad : Bool) (r : Refusal) (bs : List Bar) :
    firstBar ((bad, r) :: bs) = if bad then some r else firstBar bs := rfl

/-- No bar holds exactly when every condition is false. -/
theorem firstBar_eq_none {bs : List Bar} : firstBar bs = none ↔ ∀ b ∈ bs, b.1 = false := by
  induction bs with
  | nil => simp
  | cons b bs ih =>
    obtain ⟨bad, r⟩ := b
    cases bad <;> simp [ih]

/-- Everything a command can answer. -/
theorem command_cases (checks : List Check) (bars : List Bar) (effect : State → State) (s : State) :
    (∃ e, firstError checks = some e ∧ command checks bars effect s = .next (raise e s)) ∨
    (firstError checks = none ∧ ∃ r, firstBar bars = some r ∧ command checks bars effect s = .refused r) ∨
    (firstError checks = none ∧ firstBar bars = none ∧
      command checks bars effect s = .next (succeed (effect s))) := by
  unfold command
  cases hc : firstError checks with
  | some e => exact .inl ⟨e, rfl, rfl⟩
  | none =>
    cases hb : firstBar bars with
    | some r => exact .inr (.inl ⟨rfl, r, rfl, rfl⟩)
    | none => exact .inr (.inr ⟨rfl, rfl, rfl⟩)

/-- A command whose checks pass and whose ranges have a meaning completes. -/
theorem command_completes {checks : List Check} {bars : List Bar} {effect : State → State} {s : State}
    (hc : firstError checks = none) (hb : firstBar bars = none) :
    command checks bars effect s = .next (succeed (effect s)) := by
  simp [command, hc, hb]

/-- A command with a failing check has the whole effect of its failure and no other (R283). -/
theorem command_fails {checks : List Check} {bars : List Bar} {effect : State → State} {s : State} {e : CmdError}
    (hc : firstError checks = some e) : command checks bars effect s = .next (raise e s) := by
  simp [command, hc]

/-- A command that answers a next state failed or took its effect. -/
theorem command_next {checks : List Check} {bars : List Bar} {effect : State → State} {s t : State}
    (h : command checks bars effect s = .next t) :
    (∃ e, firstError checks = some e ∧ t = raise e s) ∨
    (firstError checks = none ∧ firstBar bars = none ∧ t = succeed (effect s)) := by
  rcases command_cases checks bars effect s with ⟨e, he, hx⟩ | ⟨_, r, _, hx⟩ | ⟨he, hb, hx⟩
  · rw [hx] at h
    exact .inl ⟨e, he, (Host.Outcome.next.inj h).symm⟩
  · rw [hx] at h
    cases h
  · rw [hx] at h
    exact .inr ⟨he, hb, (Host.Outcome.next.inj h).symm⟩

/-- A range below 2^32 raises no bar (R51). -/
@[simp] theorem mustFit_fst (r : Range) : (mustFit r).1 = !fits r := rfl

/-- Compatible ranges raise no bar (R57). -/
@[simp] theorem mustBeCompatible_fst (x y : Range) : (mustBeCompatible x y).1 = !compatible x y := rfl

/-- What it means that a range fits (R51). -/
@[simp] theorem fits_iff (r : Range) : fits r = true ↔ r.1.toNat + r.2 ≤ 2 ^ 32 :=
  decide_eq_true_iff

end Sys2Proof.Machine
end

