-- ==== Sys2Proof/Laws/Exec.lean ====
section
/-! SUPPORT. What `exec` can answer, once for all commands: the checks, the bars and the effect of each. -/

namespace Sys2Proof.Machine

/-- The checks of a command in order, the factories' after presence. -/
def checksOf (i : Instr) (s : State) : List Check :=
  match i with
  | .aConstruct =>
    [(s.argAux != Config.algCtr, .alg), (Variant.ofKeySize s.argAuxlen == .none, .keySize), (!s.capA, .capability)]
  | .aSetKey => requirePresentA s ++ [(s.argAuxlen.toNat != keyOperandLen s, .keyLength)]
  | .aEncrypt _ | .aDecrypt _ =>
    requirePresentA s ++ [(!s.engA.keyValid, .noKey), (s.argAuxlen.toNat != Config.ctrIvLen, .ivLength)]
  | .aGetBlockSize | .aGetIvSize | .aGetKeySize | .aDestroy => requirePresentA s
  | .bConstruct =>
    [(s.argAux != Config.algAead, .alg), (s.argAuxlen.toNat != Config.aeadKeyLen, .keySize), (!s.capB, .capability)]
  | .bSetKey => requirePresentB s ++ [(s.argAuxlen.toNat != Config.aeadKeyLen, .keyLength)]
  | .bInit => requireKeyedB s ++ [(s.argAuxlen.toNat != Config.aeadIvLen, .ivLength)]
  | .bChachaBlock | .bChacha4Block => requireMatrixB s
  | .bMacUpdate | .bEncrypt | .bDecrypt | .bFinish => requireActiveB s
  | .bGetIvSize | .bGetBlockSize | .bGetIcvSize | .bDestroy => requirePresentB s

/-- The situations a command is refused in. -/
def barsOf (i : Instr) (s : State) : List Bar :=
  match i with
  | .aSetKey => [mustFit (s.auxRange (keyOperandLen s))]
  | .aEncrypt inPlace | .aDecrypt inPlace =>
    [mustFit (s.auxRange Config.ctrIvLen), mustFit (s.srcRange 1), mustFit (s.ctrOutRange inPlace),
      mustBeCompatible (s.srcRange 1) (s.ctrOutRange inPlace)]
  | .bSetKey => [mustFit (s.auxRange Config.aeadKeyLen)]
  | .bInit => [mustFit (s.auxRange Config.aeadIvLen)]
  | .bMacUpdate => [mustFit (s.srcRange 16)]
  | .bChachaBlock => [mustFit (s.argSrc, 64)]
  | .bChacha4Block => [mustFit (s.argSrc, 256)]
  | .bEncrypt | .bDecrypt => [mustFit (s.srcRange 64)]
  | .bFinish => [mustFit (s.argDst, Config.icvLen)]
  | .aConstruct | .aGetBlockSize | .aGetIvSize | .aGetKeySize | .aDestroy => []
  | .bConstruct | .bGetIvSize | .bGetBlockSize | .bGetIcvSize | .bDestroy => []

/-- The effect of a command whose checks have passed. -/
def effectOf (i : Instr) (s : State) : State :=
  match i with
  | .aConstruct =>
    setResult 1
      { s with engA := { s.engA with present := true, keyValid := false, variant := Variant.ofKeySize s.argAuxlen } }
  | .aSetKey =>
    { s with engA := installKey aes (memRead s (s.auxRange (keyOperandLen s))) s.engA }
  | .aEncrypt inPlace | .aDecrypt inPlace => ctrEffect aes inPlace s
  | .aGetBlockSize => setResult Config.ctrBlockSize s
  | .aGetIvSize => setResult (BitVec.ofNat 32 Config.ctrIvLen) s
  | .aGetKeySize => setResult (BitVec.ofNat 32 (keyOperandLen s)) s
  | .aDestroy => { s with engA := s.engA.erased }
  | .bConstruct => setResult 1 { s with engB := { s.engB with present := true, phase := .noKey, wrap := false } }
  | .bSetKey => { s with engB := keyEngineB (memRead s (s.auxRange Config.aeadKeyLen)) s.engB }
  | .bInit => { s with engB := initEngineB (memRead s (s.auxRange Config.aeadIvLen)) s.engB }
  | .bMacUpdate => { s with engB := macUpdate s.argLen.toNat (memRead s (s.srcRange 16)) s.engB }
  | .bChachaBlock => keystreamEffect 64 ksBlock s
  | .bChacha4Block => keystreamEffect 256 ksBlock4 s
  | .bEncrypt => aeadEffect encTransform s
  | .bDecrypt => aeadEffect decTransform s
  | .bFinish => finishEffect s
  | .bGetIvSize => setResult (BitVec.ofNat 32 Config.aeadIvLen) s
  | .bGetBlockSize => setResult Config.aeadBlockSize s
  | .bGetIcvSize => setResult (BitVec.ofNat 32 Config.icvLen) s
  | .bDestroy => { s with engB := s.engB.erased }

/-- Every command but the factories is `command` of its checks, bars and effect. -/
theorem exec_eq {i : Instr} (h : i.isConstruct = false) (s : State) :
    exec i s = command (checksOf i s) (barsOf i s) (effectOf i) s := by
  cases i <;> first | exact absurd h (by decide) | rfl

/-- The factory of engine A. -/
theorem exec_aConstruct (s : State) :
    exec .aConstruct s =
      if s.engA.present then .next (raise .present s)
      else command (checksOf .aConstruct s) [] (effectOf .aConstruct) (clearResult s) := rfl

/-- The factory of engine B. -/
theorem exec_bConstruct (s : State) :
    exec .bConstruct s =
      if s.engB.present then .next (raise .present s)
      else command (checksOf .bConstruct s) [] (effectOf .bConstruct) (clearResult s) := rfl

/-- Everything a command that answers a next state can have done. -/
theorem exec_next {i : Instr} {s t : State} (h : exec i s = .next t) :
    (∃ e, t = raise e s) ∨ (i.isConstruct = true ∧ ∃ e, t = raise e (clearResult s)) ∨
    (firstError (checksOf i s) = none ∧ firstBar (barsOf i s) = none ∧
      (i = .aConstruct → s.engA.present = false) ∧ (i = .bConstruct → s.engB.present = false) ∧
      t = succeed (effectOf i (if i.isConstruct then clearResult s else s))) := by
  cases hc : i.isConstruct with
  | false =>
    rw [exec_eq hc] at h
    rcases command_next h with ⟨e, _, rfl⟩ | ⟨h1, h2, rfl⟩
    · exact .inl ⟨e, rfl⟩
    · refine .inr (.inr ⟨h1, h2, ?_, ?_, by simp⟩)
      · rintro rfl
        cases hc
      · rintro rfl
        cases hc
  | true =>
    have hi : i = .aConstruct ∨ i = .bConstruct := by simpa [Instr.isConstruct] using hc
    rcases hi with rfl | rfl
    · rw [exec_aConstruct] at h
      split at h
      · exact .inl ⟨_, (Host.Outcome.next.inj h).symm⟩
      · rename_i hp
        rcases command_next h with ⟨e, _, rfl⟩ | ⟨h1, _, rfl⟩
        · exact .inr (.inl ⟨rfl, e, rfl⟩)
        · exact .inr (.inr ⟨h1, rfl, fun _ => by simpa using hp, nofun, rfl⟩)
    · rw [exec_bConstruct] at h
      split at h
      · exact .inl ⟨_, (Host.Outcome.next.inj h).symm⟩
      · rename_i hp
        rcases command_next h with ⟨e, _, rfl⟩ | ⟨h1, _, rfl⟩
        · exact .inr (.inl ⟨rfl, e, rfl⟩)
        · exact .inr (.inr ⟨h1, rfl, nofun, fun _ => by simpa using hp, rfl⟩)

end Sys2Proof.Machine
end

