-- ==== Sys2Proof/Laws/PerInstr.lean ====
section
/-! SUPPORT. The format of every command, one lemma per constructor: each command is well formed and its word has its fields. -/

namespace Sys2Proof.Laws

/-- A command's word is legal and its three fields are the command's own (R71, R74, R76). -/
def Format.Statement (i : Instr) : Prop := i.wf = true ∧ FormatC.ofWord (encode i) = i.format

theorem Format.aConstruct : Format.Statement .aConstruct := ⟨by decide, by decide⟩
theorem Format.aSetKey : Format.Statement .aSetKey := ⟨by decide, by decide⟩
theorem Format.aEncrypt (inPlace : Bool) : Format.Statement (.aEncrypt inPlace) := by
  cases inPlace <;> exact ⟨by decide, by decide⟩
theorem Format.aDecrypt (inPlace : Bool) : Format.Statement (.aDecrypt inPlace) := by
  cases inPlace <;> exact ⟨by decide, by decide⟩
theorem Format.aGetBlockSize : Format.Statement .aGetBlockSize := ⟨by decide, by decide⟩
theorem Format.aGetIvSize : Format.Statement .aGetIvSize := ⟨by decide, by decide⟩
theorem Format.aGetKeySize : Format.Statement .aGetKeySize := ⟨by decide, by decide⟩
theorem Format.aDestroy : Format.Statement .aDestroy := ⟨by decide, by decide⟩
theorem Format.bConstruct : Format.Statement .bConstruct := ⟨by decide, by decide⟩
theorem Format.bSetKey : Format.Statement .bSetKey := ⟨by decide, by decide⟩
theorem Format.bInit : Format.Statement .bInit := ⟨by decide, by decide⟩
theorem Format.bMacUpdate : Format.Statement .bMacUpdate := ⟨by decide, by decide⟩
theorem Format.bChachaBlock : Format.Statement .bChachaBlock := ⟨by decide, by decide⟩
theorem Format.bChacha4Block : Format.Statement .bChacha4Block := ⟨by decide, by decide⟩
theorem Format.bEncrypt : Format.Statement .bEncrypt := ⟨by decide, by decide⟩
theorem Format.bDecrypt : Format.Statement .bDecrypt := ⟨by decide, by decide⟩
theorem Format.bFinish : Format.Statement .bFinish := ⟨by decide, by decide⟩
theorem Format.bGetIvSize : Format.Statement .bGetIvSize := ⟨by decide, by decide⟩
theorem Format.bGetBlockSize : Format.Statement .bGetBlockSize := ⟨by decide, by decide⟩
theorem Format.bGetIcvSize : Format.Statement .bGetIcvSize := ⟨by decide, by decide⟩
theorem Format.bDestroy : Format.Statement .bDestroy := ⟨by decide, by decide⟩

/-- The type of commands admits no ill-formed command. -/
theorem instr_wf (i : Instr) : i.wf = true := by
  cases i with
  | aConstruct => exact (Format.aConstruct).1
  | aSetKey => exact (Format.aSetKey).1
  | aEncrypt inPlace => exact (Format.aEncrypt inPlace).1
  | aDecrypt inPlace => exact (Format.aDecrypt inPlace).1
  | aGetBlockSize => exact (Format.aGetBlockSize).1
  | aGetIvSize => exact (Format.aGetIvSize).1
  | aGetKeySize => exact (Format.aGetKeySize).1
  | aDestroy => exact (Format.aDestroy).1
  | bConstruct => exact (Format.bConstruct).1
  | bSetKey => exact (Format.bSetKey).1
  | bInit => exact (Format.bInit).1
  | bMacUpdate => exact (Format.bMacUpdate).1
  | bChachaBlock => exact (Format.bChachaBlock).1
  | bChacha4Block => exact (Format.bChacha4Block).1
  | bEncrypt => exact (Format.bEncrypt).1
  | bDecrypt => exact (Format.bDecrypt).1
  | bFinish => exact (Format.bFinish).1
  | bGetIvSize => exact (Format.bGetIvSize).1
  | bGetBlockSize => exact (Format.bGetBlockSize).1
  | bGetIcvSize => exact (Format.bGetIcvSize).1
  | bDestroy => exact (Format.bDestroy).1

end Sys2Proof.Laws
end

