-- ==== Sys2Proof/Tests/Slice0.lean ====
section
/-! SUPPORT. Tests: the checks of a command word, decoding, single steps against the spec's own examples
(95_test_vectors and the examples of the rules), and a witness for the hypotheses of each obligation. -/

-- One theorem after the other: the kernel evaluations below would otherwise hold a thread each.
set_option Elab.async false

namespace Sys2Proof.Tests

open Sys2Proof.Machine

/-! ### Helpers -/

/-- The n bytes of a hexadecimal string, first byte first (R9). -/
def hex (n v : Nat) : Bytes := (toLE v n).reverse

/-- Buffer memory with byte strings placed by the host. -/
def place (xs : List (Nat × Bytes)) : Memory := xs.foldl (fun m x => m.writeBytes x.1 x.2) []

/-- The answer is a next state with a property. -/
def answers (a : Answer) (p : State → Bool) : Bool :=
  match a with
  | .next t => p t
  | .fault _ => false
  | .refused _ => false

/-- A present engine A without a key. -/
def freshA (v : Variant) : EngineA := { EngineA.reset with present := true, variant := v }

/-- A present engine A with key material. -/
def keyedA (v : Variant) (k : Bytes) : EngineA := installKey aes k (freshA v)

/-- A present engine B in a phase, with the matrix of a key. -/
def phasedB (p : Phase) (k : Bytes) : EngineB := { EngineB.reset with present := true, phase := p, m := keyMatrix k }

/-- Engine B ready for a message, its MAC key from 32 bytes, its matrix from a key, its counter as given. -/
def activeB (k mac : Bytes) (c : Word) : EngineB :=
  macInit mac { phasedB .active k with m := withCounter (keyMatrix k) c }

/-- The operands of a host's next command. -/
def withArgs (s : State) (src dst len aux auxlen : Word) : State :=
  { s with argSrc := src, argDst := dst, argLen := len, argAux := aux, argAuxlen := auxlen }

/-! ### Checks of a command word: the ill-formed ones are refused (R71, R76) -/

theorem smoke_reserved_bits : FormatC.wf { opc := 0x11, ip := 0, rsv := 1 } = false := by decide
theorem smoke_reserved_top_bit : FormatC.wf { opc := 0x10, ip := 0, rsv := 0x400000 } = false := by decide
theorem smoke_unassigned_opcode : FormatC.wf { opc := 0x17, ip := 0, rsv := 0 } = false := by decide
theorem smoke_in_place_not_allowed : FormatC.wf { opc := 0x21, ip := 1, rsv := 0 } = false := by decide
theorem smoke_legal : FormatC.wf { opc := 0x12, ip := 1, rsv := 0 } = true := by decide

/-! ### Decoding: words written out from R71 and R74 -/

theorem decode_engine_a :
    decode 0b00000000000000000000000000010000 = .ok .aConstruct ∧
    decode 0b00000000000000000000000000010001 = .ok .aSetKey ∧
    decode 0b00000000000000000000000000010010 = .ok (.aEncrypt false) ∧
    decode 0b00000000000000000000000100010010 = .ok (.aEncrypt true) ∧
    decode 0b00000000000000000000000000010011 = .ok (.aDecrypt false) ∧
    decode 0b00000000000000000000000100010011 = .ok (.aDecrypt true) ∧
    decode 0b00000000000000000000000000010100 = .ok .aGetBlockSize ∧
    decode 0b00000000000000000000000000010101 = .ok .aGetIvSize ∧
    decode 0b00000000000000000000000000010110 = .ok .aGetKeySize ∧
    decode 0b00000000000000000000000000011111 = .ok .aDestroy := by decide

theorem decode_engine_b :
    decode 0b00000000000000000000000000100000 = .ok .bConstruct ∧
    decode 0b00000000000000000000000000100001 = .ok .bSetKey ∧
    decode 0b00000000000000000000000000100010 = .ok .bInit ∧
    decode 0b00000000000000000000000000100011 = .ok .bMacUpdate ∧
    decode 0b00000000000000000000000000100100 = .ok .bChachaBlock ∧
    decode 0b00000000000000000000000000100101 = .ok .bChacha4Block ∧
    decode 0b00000000000000000000000000100110 = .ok .bEncrypt ∧
    decode 0b00000000000000000000000000100111 = .ok .bDecrypt ∧
    decode 0b00000000000000000000000000101000 = .ok .bFinish ∧
    decode 0b00000000000000000000000000101001 = .ok .bGetIvSize ∧
    decode 0b00000000000000000000000000101010 = .ok .bGetBlockSize ∧
    decode 0b00000000000000000000000000101011 = .ok .bGetIcvSize ∧
    decode 0b00000000000000000000000000101111 = .ok .bDestroy := by decide

/-- V-E2, V-E3, V-E4, V-E6, and a word that is wrong in two ways (reported alike). -/
theorem decode_illegal :
    decode 0x00000000 = .error .unassignedOpcode ∧ decode 0x00000211 = .error .reservedBits ∧
    decode 0x00000121 = .error .inPlaceNotAllowed ∧ decode 0x80000010 = .error .reservedBits ∧
    decode 0x000000FF = .error .unassignedOpcode ∧ decode 0x00000130 = .error .unassignedOpcode := by decide

/-- The host's numbering of a table word. -/
theorem decode_table_word :
    decodeTableWord 32 0x00000112 = some (.aEncrypt true) ∧ decodeTableWord 32 0x00000212 = none ∧
    decodeTableWord 32 0x100000012 = some (.aEncrypt false) := by decide

/-! ### Pure functions against the spec's examples -/

/-- V-C1, V-C2, V-C4, V-C5. -/
theorem test_codec :
    csInit (toVec 4 (hex 4 0x00000030)) (toVec 8 (zeros 8)) = toVec 16 (hex 16 0x00000030000000000000000000000001) ∧
    csIncr (toVec 16 (hex 16 0xAABBCCDD0102030405060708FFFFFFFF)) =
      toVec 16 (hex 16 0xAABBCCDD010203040506070800000000) ∧
    csIncr (toVec 16 (hex 16 0xAABBCCDDFFFFFFFFFFFFFFFF00FFFFFF)) =
      toVec 16 (hex 16 0xAABBCCDDFFFFFFFFFFFFFFFF01000000) ∧
    csDecode (toVec 16 (hex 16 0x006CB6DBC0543B59DA48D90B00000003)) =
      (toVec 4 (hex 4 0x006CB6DB), toVec 8 (hex 8 0xC0543B59DA48D90B), 3) := by decide +kernel

/-- The example of R115. -/
theorem test_sp_round :
    aesRound (toVec 16 (hex 16 0x00102030405060708090A0B0C0D0E0F0)) (toVec 16 (hex 16 0xD6AA74FDD2AF72FADAA678F1D6AB76FE)) =
      toVec 16 (hex 16 0x89D810E8855ACE682D1843D8CB128FE4) := by decide +kernel

/-- The first example of R117. -/
theorem test_key_expand :
    (aesKeyExpand (hex 16 0x000102030405060708090A0B0C0D0E0F)).getD 10 Block.zero =
      toVec 16 (hex 16 0x13111D7FE3944A17F307A78B4D2B30C5) := by decide +kernel

/-- V-A10 for n = 65: the keystream over a four-block group and a partial block of one byte, and the end counter 6. -/
theorem test_ctr_lengths :
    ctrTransform aes (keyedA .key16 (hex 20 0x7E24067817FAE0D743D6CE1F32539163006CB6DB)).rk 11
      (csInit (toVec 4 (hex 4 0x006CB6DB)) (toVec 8 (hex 8 0xC0543B59DA48D90B))) (zeros 65) =
    (hex 32 0x5105A305128F74DE71044BE582D7DD87FB3F0CEF52CF41DFE4FF2AC48D5CA037 ++
      hex 32 0xD9120579E14B64ACFA8BB70A7E2CBD6D24AA93FA9FB6A8406D334F6030F8692E ++
      hex 1 0x87, toVec 16 (hex 16 0x006CB6DBC0543B59DA48D90B00000006)) := by decide +kernel

/-- V-K1 and the second example of R161. -/
theorem test_quarter_round :
    (quarterRound 0 1 2 3 (Vector.ofFn fun i => [0x11111111, 0x01020304, 0x9B8D6F43, 0x01234567].getD i.val 0)).toList.take 4 =
      [0xEA2A92F4, 0xCB1CF8CE, 0x4581472E, 0x5881C4BB] ∧
    (quarterRound 0 1 2 3 (Vector.ofFn fun i => [0xFFFFFFFF, 1, 0, 0].getD i.val 0)).toList.take 4 =
      [0x00001000, 0x08080000, 0x00100000, 0x00100000] := by decide +kernel

/-- V-M7, V-M8: the tag at the top of the field. -/
theorem test_mac_finish_edges :
    macFinish { EngineB.reset with h := Limbs.ofVal (2 ^ 130 - 6) } = hex 16 0xFAFFFFFFFFFFFFFFFFFFFFFFFFFFFFFF ∧
    macFinish { EngineB.reset with h := Limbs.ofVal (2 ^ 130 - 6), s := Vector.replicate 4 0xFFFFFFFF } =
      hex 16 0xF9FFFFFFFFFFFFFFFFFFFFFFFFFFFFFF := by decide +kernel

/-- V-M12, V-M14, V-M16: the limb-level finish where limbs are not canonical. -/
theorem test_limb_finish :
    macFinishLimbs ⟨0x3FFFFFB, 0x3FFFFFF, 0x3FFFFFF, 0x3FFFFFF, 0x3FFFFFF⟩ (Vector.replicate 4 0) = zeros 16 ∧
    macFinishLimbs ⟨0x3FFFFFF, 0x3FFFFFF, 0x3FFFFFF, 0x3FFFFFF, 0x3FFFFFF⟩ (Vector.replicate 4 0) = 4 :: zeros 15 ∧
    macFinishLimbs ⟨0x4000004, 0x3FFFFFF, 0x3FFFFFF, 0x3FFFFFF, 0x3FFFFFF⟩ (Vector.replicate 4 0) = 9 :: zeros 15 := by
  decide +kernel

/-! ### Single commands against the spec's examples -/

/-- V-G2. -/
theorem test_a_construct :
    answers (exec .aConstruct (withArgs State.reset 0 0 0 1 24))
      (fun t => t.last == 0x80000000 && t.result == 1 && stateA t.engA == 0x9) = true := by decide +kernel

/-- V-G7: identifier, key size and capability all wrong; the identifier is reported. -/
theorem test_a_construct_first_test_wins :
    answers (exec .aConstruct (withArgs { State.reset with capA := false, result := 1 } 0 0 0 2 20))
      (fun t => t.last == 0x00000104 && t.result == 0 && stateA t.engA == 0) = true := by decide +kernel

/-- The example of R131. -/
theorem test_a_set_key :
    answers (exec .aSetKey (withArgs
        { State.reset with engA := freshA .key16, mem := place [(0x1000, hex 20 0xAE6852F8121067CC4BF7A5765577F39E00000030)] }
        0 0 0 0x1000 20))
      (fun t => t.last == 0x80000000 && stateA t.engA == 0x7 && t.engA.nonce.toList == hex 4 0x30 &&
        t.engA.rk[0].toList == hex 16 0xAE6852F8121067CC4BF7A5765577F39E && t.engA.rk[11] == Block.zero) = true := by
  decide +kernel

/-- V-A13: 20 bytes on a 24-byte-key instance. -/
theorem test_a_set_key_wrong_length :
    answers (exec .aSetKey (withArgs { State.reset with engA := freshA .key24 } 0 0 0 0x1000 20))
      (fun t => t.last == 0x00000107 && t.engA == freshA .key24) = true := by decide +kernel

/-- V-A3: two blocks and a partial block of 4 bytes, out of place; the byte after the output stays; the end counter is 4. -/
theorem test_a_encrypt :
    answers (exec (.aEncrypt false) (withArgs
        { State.reset with
          engA := keyedA .key16 (hex 20 0x7691BE035E5020A8AC6E618529F9A0DC00E0017B)
          mem := place [(0x1020, hex 8 0x27777F3F4A1786F0), (0x2000, (List.range 36).map (BitVec.ofNat 8)), (0x3024, [0xAA])] }
        0x2000 0x3000 36 0x1020 8))
      (fun t => t.last == 0x80000000 &&
        t.mem.readBytes 0x3000 37 ==
          hex 37 0xC1CF48A89F2FFDD9CF4652E9EFDB72D74540A42BDE6D7836D59A5CEAAEF3105325B2072FAA &&
        t.engA.cs.toList == hex 16 0x00E0017B27777F3F4A1786F000000004) = true := by decide +kernel

/-- The corner case of R291: no key and a wrong IV length (V-A12). -/
theorem test_a_encrypt_no_key :
    answers (exec (.aEncrypt false) (withArgs { State.reset with engA := freshA .key24 } 0x2000 0x3000 16 0x1020 7))
      (fun t => t.last == 0x00000109 && t.mem == []) = true := by decide +kernel

/-- V-A7 backwards, in place: a 32-byte key. -/
theorem test_a_decrypt_in_place :
    answers (exec (.aDecrypt true) (withArgs
        { State.reset with
          engA := keyedA .key32 (hex 36 0x776BEFF2851DB06F4C8A0542C8696F6C6A81AF1EEC96B4D37FC1D689E6C1C10400000060)
          mem := place [(0x1020, hex 8 0xDB5672C97AA8F0B2), (0x3000, hex 16 0x145AD01DBF824EC7560863DC71E3E0C0)] }
        0x3000 0 16 0x1020 8))
      (fun t => t.last == 0x80000000 && t.mem.readBytes 0x3000 16 == hex 16 0x53696E676C6520626C6F636B206D7367) = true := by
  decide +kernel

/-- R57: ranges that overlap in part are refused; identical ones are not. -/
theorem test_a_encrypt_overlap :
    exec (.aEncrypt false) (withArgs { State.reset with engA := keyedA .key16 [] } 0x2000 0x2001 16 0x1020 8) =
      .refused .partialOverlap ∧
    answers (exec (.aEncrypt false) (withArgs { State.reset with engA := keyedA .key16 [] } 0x2000 0x2000 16 0x1020 8))
      (fun t => t.last == 0x80000000) = true := by
  constructor
  · rfl
  · decide +kernel

/-- The examples of R140, R141, R142. -/
theorem test_a_queries :
    answers (exec .aGetBlockSize { State.reset with engA := freshA .key16 }) (fun t => t.result == 1) = true ∧
    answers (exec .aGetIvSize { State.reset with engA := freshA .key16 }) (fun t => t.result == 8) = true ∧
    answers (exec .aGetKeySize { State.reset with engA := freshA .key32 }) (fun t => t.result == 0x24) = true := by
  decide +kernel

/-- The example of R143, and V-A11's error. -/
theorem test_a_destroy :
    answers (exec .aDestroy { State.reset with engA := keyedA .key24 (hex 28 1), result := 5 })
      (fun t => stateA t.engA == 0 && t.engA == EngineA.reset && t.result == 5) = true ∧
    answers (exec .aDestroy State.reset) (fun t => t.last == 0x00000102) = true := by decide +kernel

/-- The example of R263. -/
theorem test_b_construct :
    answers (exec .bConstruct (withArgs State.reset 0 0 0 2 32))
      (fun t => t.last == 0x80000000 && t.result == 1 && stateB t.engB == 0x1) = true ∧
    answers (exec .bConstruct (withArgs State.reset 0 0 0 1 32))
      (fun t => t.last == 0x00000104 && t.result == 0) = true := by decide +kernel

/-- V-D1. -/
theorem test_b_set_key :
    answers (exec .bSetKey (withArgs
        { State.reset with
          engB := phasedB .active (zeros 32), mem := place [(0x1000, (List.range 32).map fun i => BitVec.ofNat 8 (0x80 + i))] }
        0 0 0 0x1000 32))
      (fun t => t.last == 0x80000000 && stateB t.engB == 0x3 &&
        t.engB.m.toList ==
          [0x61707865, 0x3320646E, 0x79622D32, 0x6B206574, 0x83828180, 0x87868584, 0x8B8A8988, 0x8F8E8D8C] ++
          [0x93929190, 0x97969594, 0x9B9A9998, 0x9F9E9D9C, 0, 0, 0, 0]) = true := by decide +kernel

/-- V-D2. -/
theorem test_b_init :
    answers (exec .bInit (withArgs
        { State.reset with
          engB := phasedB .keyed ((List.range 32).map fun i => BitVec.ofNat 8 (0x80 + i))
          mem := place [(0x1100, hex 12 0x070000004041424344454647)] }
        0 0 0 0x1100 12))
      (fun t => t.last == 0x80000000 && stateB t.engB == 0x5 && t.engB.m[12] == 1 && t.engB.m[13] == 7 &&
        t.engB.m[15] == 0x47464544 && t.engB.r.val == 0x0455E9A4057AB6080F47B42C052BAC7B &&
        t.engB.u.val == 0xDD6E5A6CDA71E844300CE19E00B6C30D && maskVal t.engB.s == 0xFF53D53E7875932AEBD9751073D6E10A &&
        t.engB.h == Limbs.zero) = true := by decide +kernel

/-- The MAC key of R193. -/
def macKey : Bytes := hex 32 0x85D6BE7857556D337F4452FE42D506A80103808AFB0DB2FD4ABFF6AF4149F51B

/-- V-M5: a pair, then an odd block. -/
theorem test_b_mac_update :
    answers (exec .bMacUpdate (withArgs
        { State.reset with
          engB := activeB (zeros 32) macKey 1
          mem := place [(0x2000, hex 48
            0x43727970746F6772617068696320466F72756D2052657365617263682047726F000102030405060708090A0B0C0D0E0F)] }
        0x2000 0 3 0 0))
      (fun t => t.last == 0x80000000 && t.engB.h.val == 0x2E475A0D50FCB55C237C292FA3A93420F && t.engB.m[12] == 1) = true := by
  decide +kernel

/-- The first example of R200 down to the limbs, and the error V-M19. -/
theorem test_b_mac_update_odd :
    (macUpdate 1 (hex 16 0x43727970746F6772617068696320466F) (activeB (zeros 32) macKey 1)).h =
      ⟨0x29C83FC, 0x37AE239, 0x2E9147D, 0x2127592, 0x2C88C77⟩ ∧
    answers (exec .bMacUpdate { State.reset with engB := phasedB .keyed (zeros 32) })
      (fun t => t.last == 0x0000010A) = true := by decide +kernel

/-- The example of R166. -/
theorem test_b_chacha_block :
    answers (exec .bChachaBlock (withArgs { State.reset with engB := activeB (zeros 32) [] 1 } 0x4000 0 0 0 0))
      (fun t => t.last == 0x80000000 && t.engB.m[12] == 2 && t.mem.readBytes 0x4000 64 ==
        hex 32 0x9F07E7BE5551387A98BA977C732D080DCB0F29A048E3656912C6533E32EE7AED ++
        hex 32 0x29B721769CE64E43D57133B074D839D531ED1F28510AFB45ACE10A1F4B794D6F) = true := by decide +kernel

/-- The example of R168: the counter wraps among the lanes. -/
theorem test_b_chacha_4block :
    answers (exec .bChacha4Block (withArgs { State.reset with engB := activeB (zeros 32) [] 0xFFFFFFFE } 0x4000 0 0 0 0))
      (fun t => t.last == 0x80000000 && t.engB.m[12] == 2 && t.engB.wrap) = true ∧
    slice (ksBlock4 (activeB (zeros 32) [] 0xFFFFFFFE)).1 128 16 = hex 16 0x76B8E0ADA0F13D90405D6AE55386BD28 ∧
    slice (ksBlock4 (activeB (zeros 32) [] 0xFFFFFFFE)).1 192 16 = hex 16 0x9F07E7BE5551387A98BA977C732D080D := by
  decide +kernel

/-- Engine B after V-D2. -/
def engineD2 : EngineB :=
  initEngineB (hex 12 0x070000004041424344454647) (phasedB .keyed ((List.range 32).map fun i => BitVec.ofNat 8 (0x80 + i)))

/-- The plaintext of R228: the ASCII bytes of "Ladies and Gentlemen of the class of '99: If I could offer you o". -/
def plainD3 : Bytes :=
  hex 32 0x4C616469657320616E642047656E746C656D656E206F662074686520636C6173 ++
  hex 32 0x73206F66202739393A204966204920636F756C64206F6666657220796F75206F

/-- The ciphertext of R228. -/
def cipherD3 : Bytes :=
  hex 32 0xD31A8D34648E60DB7B86AFBC53EF7EC2A4ADED51296E08FEA9E2B5A736EE62D6 ++
  hex 32 0x3DBEA45E8CA9671282FAFB69DA92728B1A71DE0A9E060B2905D6A5B67ECD3B36

/-- V-D3. -/
theorem test_b_encrypt :
    answers (exec .bEncrypt (withArgs { State.reset with engB := engineD2, mem := place [(0x2000, plainD3)] } 0x2000 0 1 0 0))
      (fun t => t.last == 0x80000000 && t.mem.readBytes 0x2000 64 == cipherD3 && t.engB.m[12] == 2 &&
        t.engB.h.val == 0x143BCF6C9715D7E1CC86000E47C78628C) = true := by decide +kernel

/-- P4, step 11: five blocks, a group of four and a single one. -/
theorem test_b_encrypt_five_blocks :
    let t := encTransform 5 ((List.range 320).map fun i => BitVec.ofNat 8 (5 * i + 1))
      (initEngineB (zeros 12) (phasedB .keyed (zeros 32)))
    t.1.take 16 = hex 16 0x9E01ECAE404B275EB194A4444E6F4F41 ∧ t.1.drop 304 = hex 16 0x8DADAD774F618535B3F6A5ADABBC3E70 ∧
      t.2.m[12] = 6 := by decide +kernel

/-- V-D4. -/
theorem test_b_decrypt :
    answers (exec .bDecrypt (withArgs { State.reset with engB := engineD2, mem := place [(0x2000, cipherD3)] } 0x2000 0 1 0 0))
      (fun t => t.last == 0x80000000 && t.mem.readBytes 0x2000 64 == plainD3 && t.engB.m[12] == 2 &&
        t.engB.h.val == 0x143BCF6C9715D7E1CC86000E47C78628C) = true := by decide +kernel

/-- The examples of R232: the tag straight after `B_INIT`, and the tag of V-D3. -/
theorem test_b_finish :
    answers (exec .bFinish (withArgs { State.reset with engB := engineD2 } 0 0x1400 0 0 0))
      (fun t => t.last == 0x80000000 && stateB t.engB == 0x7 &&
        t.mem.readBytes 0x1400 16 == hex 16 0x0AE1D6731075D9EB2A9375783ED553FF) = true ∧
    macFinish (macUpdate 4 cipherD3 engineD2) = hex 16 0x96434FF0F47539B44711D3E907CC1043 := by decide +kernel

/-- V-D8. -/
theorem test_b_finish_twice :
    answers (exec .bFinish { State.reset with engB := phasedB .finished (zeros 32) })
      (fun t => t.last == 0x0000010B && t.mem == []) = true := by decide +kernel

/-- V-D7. -/
theorem test_b_queries :
    answers (exec .bGetIvSize { State.reset with engB := phasedB .noKey [] }) (fun t => t.result == 12) = true ∧
    answers (exec .bGetBlockSize { State.reset with engB := phasedB .noKey [] }) (fun t => t.result == 1) = true ∧
    answers (exec .bGetIcvSize { State.reset with engB := phasedB .noKey [] }) (fun t => t.result == 16) = true := by
  decide +kernel

/-- The example of R237. -/
theorem test_b_destroy :
    answers (exec .bDestroy { State.reset with engB := engineD2 }) (fun t => t.engB == EngineB.reset) = true := by
  decide +kernel

/-- V-E5, V-E7 to V-E10: the port. -/
theorem test_port :
    answers (step { State.reset with pending := [.write 0 0x112] }) (fun t => t.last == 0x00000102) = true ∧
    answers (step { State.reset with pending := [.write 1 0xFFFFFFFF] }) (fun t => t == State.reset) = true ∧
    answers (step { State.reset with pending := [.write 12 5] }) (fun t => t == State.reset) = true ∧
    answers (step { State.reset with pending := [.write 5 0xDEADBEEF] })
      (fun t => t.argSrc == 0xDEADBEEF && t.last == 0) = true ∧
    answers (step { State.reset with last := 0x101, pending := [.read 0] }) (fun t => t.seen == [.port 0 0]) = true := by
  decide +kernel

/-! ### Witnesses: for each obligation with hypotheses, concrete values that meet them, clause by clause -/

/-- Reset with host actions waiting. -/
def waiting (acts : List HostAction) : State := { State.reset with pending := acts }

/-- Engine A keyed; source, destination and IV at the top of memory, source and destination side by side. -/
def topA : State :=
  withArgs { State.reset with engA := { freshA .key16 with keyValid := true } } 0xFFFFFFF0 0xFFFFFFE0 16 0xFFFFFFF8 8

/-- Engine B in a phase, the data range ending at the top of memory. -/
def topB (p : Phase) (src len : Word) : State :=
  withArgs { State.reset with engB := phasedB p (zeros 32) } src 0xFFFFFFF0 len 0xFFFFFFE0 32

theorem witness_DecodeAndEncodeAgree :
    decode 0x00000113 = .ok (.aDecrypt true) ∧ (Instr.aDecrypt true).wf = true ∧ encode (.aDecrypt true) = 0x00000113 := by
  decide

theorem witness_DecodeFollowsMatchAndMask :
    (0x00000112 : Word) &&& (Instr.aEncrypt true).matchMask = (Instr.aEncrypt true).matchWord ∧
    (Instr.aEncrypt true).inPlaceBit = (0x00000112 : Word).getLsbD 8 := by decide

/-- Reserved bits at both ends, opcodes beside the assigned ones, `IP` elsewhere; and a word that is not illegal. -/
theorem witness_IllegalWordsRaiseIllegalCommand :
    (waiting [.write 0 0x00000210]).pending = [.write 0 0x00000210] ∧
    (∀ w ∈ [(0x00000210 : Word), 0x80000010], w.extractLsb' 9 23 ≠ 0) ∧
    (∀ w ∈ [(0x0000000F : Word), 0x00000017, 0x0000001E, 0x0000002C, 0x0000002E, 0x00000030, 0x000000FF],
      w.extractLsb' 9 23 = 0 ∧ w.extractLsb' 0 8 ∉ assignedOpcodes) ∧
    (∀ w ∈ [(0x00000111 : Word), 0x00000114],
      w.getLsbD 8 = true ∧ w.extractLsb' 0 8 ≠ 0x12 ∧ w.extractLsb' 0 8 ≠ 0x13) ∧
    ∀ w ∈ [(0x00000112 : Word), 0x0000002F],
      ¬ (w.extractLsb' 9 23 ≠ 0 ∨ w.extractLsb' 0 8 ∉ assignedOpcodes ∨
        (w.getLsbD 8 = true ∧ w.extractLsb' 0 8 ≠ 0x12 ∧ w.extractLsb' 0 8 ≠ 0x13)) := by
  refine ⟨rfl, ?_, ?_, ?_, ?_⟩ <;> intro w hw <;> simp only [List.mem_cons, List.not_mem_nil, or_false] at hw
  · rcases hw with rfl | rfl <;> decide
  · rcases hw with rfl | rfl | rfl | rfl | rfl | rfl | rfl <;> decide
  · rcases hw with rfl | rfl <;> decide
  · rcases hw with rfl | rfl <;> decide

theorem witness_StepRunsTheDecodedCommand :
    decode 0x0000002F = .ok .bDestroy ∧ (waiting [.write 0 0x0000002F]).pending = [.write 0 0x0000002F] :=
  ⟨by decide, rfl⟩

/-- Every register, and the first number past them. -/
theorem witness_HostReadReturnsTheRegister :
    ∀ n ∈ List.range 11, (waiting [.read n]).pending = .read n :: [] := fun _ _ => rfl

theorem witness_HostWriteStoresOperandsOnly :
    ∀ n ∈ (List.range 11).drop 1, n ≠ 0 ∧ (waiting [.write n 7]).pending = .write n 7 :: [] := by decide

theorem witness_ResetZeroesTheCore : (waiting [.reset]).pending = .reset :: [] := rfl

/-- Each clause, with the top address. -/
theorem witness_HostActionsBetweenCommands :
    State.reset.pending = [] ∧
    ((waiting [.store 0xFFFFFFFF 1]).pending = .store 0xFFFFFFFF 1 :: [] ∧ (waiting [.store 0xFFFFFFFF 1]).mem.wf = true) ∧
    (waiting [.load 0xFFFFFFFF]).pending = .load 0xFFFFFFFF :: [] ∧ (waiting [.setCapA false]).pending = .setCapA false :: [] ∧
    (waiting [.setCapB false]).pending = .setCapB false :: [] := ⟨rfl, ⟨rfl, rfl⟩, rfl, rfl, rfl⟩

/-- A memory with a byte; the last byte written, the addresses beside the range. -/
theorem witness_MemoryReadsWhatWasWritten :
    (place [(5, [1])]).wf = true ∧ 1 < [(1 : Byte), 2].length ∧ (4 < 5 ∨ 5 + [(1 : Byte), 2].length ≤ 4) ∧
      (7 < 5 ∨ 5 + [(1 : Byte), 2].length ≤ 7) := by decide +kernel

theorem witness_MemoryFormIsCanonical :
    (place [(0, [1]), (4294967295, [2])]).wf = true ∧ (place [(4294967295, [2]), (0, [1])]).wf = true ∧
      ∀ a, (place [(0, [1]), (4294967295, [2])]).read a = (place [(4294967295, [2]), (0, [1])]).read a := by
  refine ⟨by decide +kernel, by decide +kernel, fun a => ?_⟩
  have h : place [(0, [1]), (4294967295, [2])] = place [(4294967295, [2]), (0, [1])] := by decide +kernel
  rw [h]

theorem witness_CounterIncrementStaysInItsField :
    (csDecode (toVec 16 (hex 16 0xAABBCCDD0102030405060708FFFFFFFF))).2.2 = 0xFFFFFFFF := by decide +kernel

theorem witness_RoundsUseEverySubKeyOnce : ∀ v ∈ [Variant.key16, .key24, .key32], v ≠ .none := by decide

theorem witness_KeyExpansionRecurrence :
    ∀ nk ∈ [4, 6, 8], (nk = 4 ∨ nk = 6 ∨ nk = 8) ∧ (zeros (4 * nk)).length = 4 * nk := by decide

theorem witness_SubstitutionTableFormula : (0 : Byte) = 0 ∧ (1 : Byte) ≠ 0 ∧ (0xFF : Byte) ≠ 0 := by decide

/-- The operands of the five clauses of a factory. -/
def factoryCase (alg size : Word) (cap : Bool) : State :=
  withArgs { State.reset with capA := cap, capB := cap } 0 0 0 alg size

/-- The five clauses in order. -/
theorem witness_ConstructA :
    topA.engA.present = true ∧
    ((factoryCase 2 16 true).engA.present = false ∧ (factoryCase 2 16 true).argAux ≠ 1) ∧
    ((factoryCase 1 17 true).engA.present = false ∧ (factoryCase 1 17 true).argAux = 1 ∧
      (factoryCase 1 17 true).argAuxlen ∉ [(16 : Word), 24, 32]) ∧
    (∀ n ∈ [(16 : Word), 24, 32], ∀ cap ∈ [true, false],
      (factoryCase 1 n cap).engA.present = false ∧ (factoryCase 1 n cap).argAux = 1 ∧
        (factoryCase 1 n cap).argAuxlen ∈ [(16 : Word), 24, 32] ∧ (factoryCase 1 n cap).capA = cap) := by
  refine ⟨rfl, ⟨rfl, by decide⟩, ⟨rfl, rfl, by decide⟩, fun n hn cap _ => ⟨rfl, rfl, hn, rfl⟩⟩

/-- A key operand that ends at the top of memory, for each variant; and a wrong length. -/
theorem witness_SetKeyA :
    (topA.engA.present = true ∧ topA.argAuxlen.toNat ≠ topA.engA.variant.ks + 4) ∧
    ∀ x ∈ [(Variant.key16, (0xFFFFFFEC : Word), (20 : Word)), (.key24, 0xFFFFFFE4, 28), (.key32, 0xFFFFFFDC, 36)],
      ∃ s : State, s.engA.present = true ∧ s.argAuxlen.toNat = s.engA.variant.ks + 4 ∧
        s.argAux.toNat + (s.engA.variant.ks + 4) ≤ 2 ^ 32 ∧ s.engA.variant = x.1 := by
  refine ⟨by decide +kernel, fun x hx => ⟨withArgs { State.reset with engA := freshA x.1 } 0 0 0 x.2.1 x.2.2, rfl, ?_⟩⟩
  simp only [List.mem_cons, List.not_mem_nil, or_false] at hx
  rcases hx with rfl | rfl | rfl <;> exact ⟨rfl, by decide +kernel, rfl⟩

/-- Both in-place bits and both commands; with `IP` = 0 the source and destination lie side by side. -/
theorem witness_CryptXorsTheKeystream :
    (topA.engA.present = true ∧ topA.engA.keyValid = true ∧ topA.argAuxlen = 8 ∧ topA.mem.wf = true) ∧
    (∀ i ∈ [Instr.aEncrypt false, .aEncrypt true, .aDecrypt false, .aDecrypt true], rangesFit i topA) ∧
    rangesCompatible (.aEncrypt false) topA ∧ rangesCompatible (.aEncrypt true) topA ∧
    rangesCompatible (.aDecrypt false) topA ∧ rangesCompatible (.aDecrypt true) topA := by
  have h : ∀ a : Nat, ¬ (inRange a (topA.argSrc, topA.argLen.toNat) ∧ inRange a (topA.argDst, topA.argLen.toNat)) := by
    intro a h
    have h1 : 4294967280 ≤ a := h.1.1
    have h2 : a < 4294967264 + 16 := h.2.2
    omega
  exact ⟨⟨rfl, rfl, rfl, rfl⟩, by decide +kernel, .inr h, trivial, .inr h, trivial⟩

theorem witness_ZeroLengthCrypt :
    ∃ s : State, s.engA.present = true ∧ s.engA.keyValid = true ∧ s.argAuxlen = 8 ∧ s.argLen = 0 ∧
      s.argAux.toNat + 8 ≤ 2 ^ 32 :=
  ⟨withArgs topA 0 0 0 0xFFFFFFF8 8, rfl, rfl, rfl, rfl, by decide +kernel⟩

/-- The IV ends where the data begin. -/
def roundTripA : State := withArgs topA 0xFFFFFFF0 0 16 0xFFFFFFE8 8

theorem witness_CryptRoundTrip :
    roundTripA.mem.wf = true ∧
    (∀ a, ¬ (inRange a (roundTripA.argAux, 8) ∧ inRange a (roundTripA.argSrc, roundTripA.argLen.toNat))) ∧
      ∃ t, exec (.aEncrypt true) roundTripA = .next t ∧ t.last = 0x80000000 := by
  refine ⟨rfl, fun a h => ?_, _, (exec_eq rfl _).trans (command_completes (by decide +kernel) (by decide +kernel)), rfl⟩
  have h1 : a < 4294967272 + 8 := h.1.2
  have h2 : 4294967280 ≤ a := h.2.1
  omega

theorem witness_QueriesReport :
    State.reset.engA.present = false ∧ State.reset.engB.present = false ∧ (freshA .key16).present = true ∧
      (freshA .key16).variant = .key16 ∧ (freshA .key24).variant = .key24 ∧ (freshA .key32).variant = .key32 ∧
      (phasedB .noKey []).present = true := ⟨rfl, rfl, rfl, rfl, rfl, rfl, rfl⟩

theorem witness_DestroyErases :
    State.reset.engA.present = false ∧ State.reset.engB.present = false ∧ topA.engA.present = true ∧
      ∀ p, (phasedB p []).present = true := ⟨rfl, rfl, rfl, fun _ => rfl⟩

theorem witness_QuarterRoundWords :
    (0 : Fin 16) ≠ 4 ∧ (0 : Fin 16) ≠ 8 ∧ (0 : Fin 16) ≠ 12 ∧ (4 : Fin 16) ≠ 8 ∧ (4 : Fin 16) ≠ 12 ∧ (8 : Fin 16) ≠ 12 ∧
      (15 : Fin 16) ≠ 0 ∧ (15 : Fin 16) ≠ 4 ∧ (15 : Fin 16) ≠ 8 ∧ (15 : Fin 16) ≠ 12 := by decide

/-- Both steps, on both sides of the wrap. -/
theorem witness_CounterAddRecordsTheWrap :
    (1 = 1 ∨ 1 = 4) ∧ (4 = 1 ∨ 4 = 4) ∧
    (2 ^ 32 ≤ (activeB [] [] 0xFFFFFFFF).m[12].toNat + 1 ∧ ¬ 2 ^ 32 ≤ (activeB [] [] 0xFFFFFFFE).m[12].toNat + 1) ∧
    (2 ^ 32 ≤ (activeB [] [] 0xFFFFFFFC).m[12].toNat + 4 ∧ ¬ 2 ^ 32 ≤ (activeB [] [] 0xFFFFFFFB).m[12].toNat + 4) := by
  decide +kernel

/-- Both commands, in both phases, up to the top of memory; a byte of the range and the addresses on both sides of it. -/
theorem witness_KeystreamCommandsXorInPlace :
    ∀ p ∈ [Phase.active, .finished],
      ((topB p 0xFFFFFFC0 0).engB.present = true ∧ (topB p 0xFFFFFFC0 0).mem.wf = true ∧
        ((topB p 0xFFFFFFC0 0).engB.phase = .active ∨ (topB p 0xFFFFFFC0 0).engB.phase = .finished)) ∧
      ((topB p 0xFFFFFFC0 0).argSrc.toNat + 64 * 1 ≤ 2 ^ 32 ∧ 0xFFFFFFBF < (topB p 0xFFFFFFC0 0).argSrc.toNat) ∧
      ((topB p 0xFFFFFF00 0).argSrc.toNat + 64 * 4 ≤ 2 ^ 32 ∧ (topB p 0xFFFFFF00 0).argSrc.toNat + 64 * 4 ≤ 0x100000000) ∧
      63 < 64 * 1 ∧ 255 < 64 * 4 := by
  intro p hp
  have h : p = .active ∨ p = .finished := by simpa using hp
  exact ⟨⟨rfl, rfl, h⟩, ⟨by show 4294967232 + 64 * 1 ≤ 2 ^ 32; decide, by show 0xFFFFFFBF < 4294967232; decide⟩,
    ⟨by show 4294967040 + 64 * 4 ≤ 2 ^ 32; decide, by show 4294967040 + 64 * 4 ≤ 0x100000000; decide⟩, by decide⟩

theorem witness_BlockValueLimbs : (zeros 16).length = 16 := by decide

theorem witness_MacInitDerivesTheKey : macKey.length = 32 := by decide +kernel

/-- Engine B in the middle of a message, with the MAC key of R193. -/
def engineM : EngineB := activeB (zeros 32) macKey 1

theorem engineM_inv : engineM.Inv := by
  refine ⟨?_, ?_, ?_, ?_, ?_, ?_, ?_⟩
  · exact nofun
  all_goals decide +kernel

theorem witness_PairLaw : engineM.u.val = engineM.r.val * engineM.r.val % Config.prime ∧ engineM.r ≠ Limbs.zero :=
  ⟨engineM_inv.2.2.1, by decide +kernel⟩

theorem witness_MacUpdateClosedForm : engineM.Inv := engineM_inv

/-- Two blocks that end at the top of memory. -/
theorem witness_MacUpdateCommand :
    ∃ s : State, s.engB.Inv ∧ s.engB.present = true ∧ s.engB.phase = .active ∧
      s.argSrc.toNat + 16 * s.argLen.toNat ≤ 2 ^ 32 ∧ s.argLen ≠ 0 :=
  ⟨withArgs { State.reset with engB := engineM } 0xFFFFFFE0 0 2 0 0, engineM_inv, rfl, rfl,
    by show 4294967264 + 16 * 2 ≤ 2 ^ 32; decide, by show (2 : Word) ≠ 0; decide⟩

/-- Each limb at the top of its range. -/
theorem witness_LimbFinishEqualsValueFinish :
    ∃ h : Limbs, h = ⟨0x3FFFFFFF, 0x3FFFFFFF, 0x3FFFFFFF, 0x3FFFFFFF, 0x3FFFFFFF⟩ ∧
      h.l0.toNat < 2 ^ 30 ∧ h.l1.toNat < 2 ^ 30 ∧ h.l2.toNat < 2 ^ 30 ∧ h.l3.toNat < 2 ^ 30 ∧ h.l4.toNat < 2 ^ 30 :=
  ⟨_, rfl, by decide⟩

/-- The five clauses in order. -/
theorem witness_ConstructB :
    (phasedB .noKey []).present = true ∧
    ((factoryCase 1 32 true).engB.present = false ∧ (factoryCase 1 32 true).argAux ≠ 2) ∧
    ((factoryCase 2 31 true).engB.present = false ∧ (factoryCase 2 31 true).argAux = 2 ∧
      (factoryCase 2 31 true).argAuxlen ≠ 32) ∧
    ∀ cap, (factoryCase 2 32 cap).engB.present = false ∧ (factoryCase 2 32 cap).argAux = 2 ∧
      (factoryCase 2 32 cap).argAuxlen = 32 ∧ (factoryCase 2 32 cap).capB = cap :=
  ⟨rfl, ⟨rfl, by decide⟩, ⟨rfl, rfl, by decide⟩, fun _ => ⟨rfl, rfl, rfl, rfl⟩⟩

/-- Wrong lengths on both sides; the key at the top of memory, in every phase. -/
theorem witness_SetKeyB :
    (withArgs (topB .keyed 0 0) 0 0 0 0 31).argAuxlen ≠ 32 ∧ (withArgs (topB .keyed 0 0) 0 0 0 0 33).argAuxlen ≠ 32 ∧
    ∀ p, (topB p 0 0).engB.present = true ∧ (topB p 0 0).argAuxlen = 32 ∧ (topB p 0 0).argAux.toNat + 32 ≤ 2 ^ 32 :=
  ⟨by show (31 : Word) ≠ 32; decide, by show (33 : Word) ≠ 32; decide,
    fun _ => ⟨rfl, rfl, by show 4294967264 + 32 ≤ 2 ^ 32; decide⟩⟩

/-- The operands of `B_INIT` with the IV at the top of memory. -/
def initCase (p : Phase) (n : Word) : State := withArgs (topB p 0 0) 0 0 0 0xFFFFFFF4 n

/-- Wrong lengths on both sides; in every phase that accepts the command. -/
theorem witness_InitB :
    ∀ p ∈ [Phase.keyed, .active, .finished],
      (initCase p 12).engB.present = true ∧ (initCase p 12).engB.phase ≠ .noKey ∧ (initCase p 11).argAuxlen ≠ 12 ∧
        (initCase p 13).argAuxlen ≠ 12 ∧ (initCase p 12).argAuxlen = 12 ∧ (initCase p 12).argAux.toNat + 12 ≤ 2 ^ 32 := by
  intro p hp
  have h : p ≠ .noKey := by
    rintro rfl
    exact absurd hp (by decide)
  exact ⟨rfl, h, by show (11 : Word) ≠ 12; decide, by show (13 : Word) ≠ 12; decide, rfl,
    by show 4294967284 + 12 ≤ 2 ^ 32; decide⟩

theorem witness_AeadClosedForm : (zeros 320).length = 64 * 5 ∧ (zeros 0).length = 64 * 0 := by decide +kernel

/-- Five blocks that end at the top of memory; a byte of the range and the addresses on both sides of it. -/
theorem witness_AeadCommands :
    ∃ s : State, s.engB.present = true ∧ s.engB.phase = .active ∧ s.mem.wf = true ∧
      s.argSrc.toNat + 64 * s.argLen.toNat ≤ 2 ^ 32 ∧ 319 < 64 * s.argLen.toNat ∧ 0xFFFFFEBF < s.argSrc.toNat ∧
      s.argSrc.toNat + 64 * s.argLen.toNat ≤ 0x100000000 :=
  ⟨topB .active 0xFFFFFEC0 5, rfl, rfl, rfl, by show 4294966976 + 64 * 5 ≤ 2 ^ 32; decide,
    by show 319 < 64 * 5; decide, by show 0xFFFFFEBF < 4294966976; decide, by show 4294966976 + 64 * 5 ≤ 0x100000000; decide⟩

theorem witness_AeadRoundTrip :
    (topB .active 0xFFFFFFC0 1).mem.wf = true ∧
      ∃ t, exec .bEncrypt (topB .active 0xFFFFFFC0 1) = .next t ∧ t.last = 0x80000000 :=
  ⟨rfl, _, (exec_eq rfl _).trans (command_completes (by decide +kernel) (by decide +kernel)), rfl⟩

theorem witness_FinishWritesTheTag :
    (topB .active 0 0).engB.present = true ∧ (topB .active 0 0).engB.phase = .active ∧
      (topB .active 0 0).mem.wf = true ∧ (topB .active 0 0).argDst.toNat + 16 ≤ 2 ^ 32 :=
  ⟨rfl, rfl, rfl, by show 4294967280 + 16 ≤ 2 ^ 32; decide⟩

/-- Every command of engine B but its factory and `B_INIT`. -/
def phaseCommands : List Instr :=
  [.bSetKey, .bMacUpdate, .bChachaBlock, .bChacha4Block, .bEncrypt, .bDecrypt, .bFinish] ++
  [.bGetIvSize, .bGetBlockSize, .bGetIcvSize, .bDestroy]

theorem phaseCommands_fit :
    ∀ p ∈ [Phase.noKey, .keyed, .active, .finished], ∀ i ∈ phaseCommands,
      i.onEngineA = false ∧ i ≠ .bConstruct ∧ i ≠ .bInit ∧ rangesFit i (topB p 0xFFFFFF00 4) := by decide +kernel

/-- A construction; every command of engine B, in every phase. -/
theorem witness_PhaseMachine :
    (∃ t, exec .bConstruct (factoryCase 2 32 true) = .next t ∧ t.last = 0x80000000) ∧
    (∀ p ∈ [Phase.noKey, .keyed, .active, .finished], ∀ i ∈ phaseCommands,
      i.onEngineA = false ∧ i ≠ .bConstruct ∧ (topB p 0xFFFFFF00 4).engB.present = true ∧
        rangesFit i (topB p 0xFFFFFF00 4) ∧ (i = .bSetKey → (topB p 0xFFFFFF00 4).argAuxlen = 32) ∧
        (i = .bInit → (topB p 0xFFFFFF00 4).argAuxlen = 12)) ∧
    ∀ p ∈ [Phase.noKey, .keyed, .active, .finished],
      Instr.bInit.onEngineA = false ∧ (initCase p 12).engB.present = true ∧ rangesFit .bInit (initCase p 12) ∧
        (initCase p 12).argAuxlen = 12 := by
  refine ⟨⟨_, rfl, rfl⟩, fun p hp i hi => ?_, by decide +kernel⟩
  obtain ⟨h1, h2, h3, h4⟩ := phaseCommands_fit p hp i hi
  exact ⟨h1, h2, rfl, h4, fun _ => rfl, fun h => absurd h h3⟩

/-- Words, and a state for each failing test, in the order of R291. -/
theorem witness_FirstFailingTestIsReported :
    (waiting [.write 0 0x00000200]).pending = [.write 0 0x00000200] ∧
    decode 0x00000200 = .error .reservedBits ∧
    (decode 0x00000012 = .ok (.aEncrypt false) ∧ reportedError (.aEncrypt false) State.reset = some .absent) ∧
    (decode 0x00000010 = .ok .aConstruct ∧ reportedError .aConstruct topA = some .present) ∧
    reportedError .aConstruct (factoryCase 2 20 false) = some .alg ∧
    reportedError .bConstruct (factoryCase 2 31 false) = some .keySize ∧
    reportedError .bConstruct (factoryCase 2 32 false) = some .capability ∧
    reportedError (.aEncrypt true) { topA with engA := freshA .key16, argAuxlen := 7 } = some .noKey ∧
    reportedError .bInit (topB .noKey 0 0) = some .noKey ∧ reportedError .bFinish (topB .keyed 0 0) = some .notInit ∧
    reportedError .bFinish (topB .finished 0 0) = some .finished ∧ reportedError .aSetKey topA = some .keyLength ∧
    reportedError .bInit (topB .active 0 0) = some .ivLength := by
  refine ⟨rfl, ?_⟩
  decide +kernel

/-- A command of each engine whose tests pass, with ranges at the top of memory. -/
theorem witness_CommandsCompleteWhenTestsPass :
    (reportedError (.aEncrypt false) topA = none ∧ rangesFit (.aEncrypt false) topA ∧
      rangesCompatible (.aEncrypt false) topA) ∧
    (reportedError .bEncrypt (topB .active 0xFFFFFEC0 5) = none ∧ rangesFit .bEncrypt (topB .active 0xFFFFFEC0 5) ∧
      rangesCompatible .bEncrypt (topB .active 0xFFFFFEC0 5)) := by
  have h := witness_CryptXorsTheKeystream
  exact ⟨⟨by decide +kernel, h.2.1 _ (by decide), h.2.2.1⟩, by decide +kernel, by decide +kernel, trivial⟩

/-- Source and destination that share one byte. -/
def overlapA : State := withArgs topA 0x100 0x10F 16 0 8

/-- A range one byte past the top; ranges that share one byte. -/
theorem witness_MeaninglessRangesAreRefused :
    (reportedError .bChachaBlock (topB .active 0xFFFFFFC1 0) = none ∧
      ¬ rangesFit .bChachaBlock (topB .active 0xFFFFFFC1 0)) ∧
    (reportedError (.aDecrypt false) overlapA = none ∧ rangesFit (.aDecrypt false) overlapA ∧
      ¬ rangesCompatible (.aDecrypt false) overlapA) := by
  refine ⟨⟨by decide +kernel, by decide +kernel⟩, by decide +kernel, by decide +kernel, ?_⟩
  rintro (h | h)
  · exact absurd h (by decide +kernel)
  · exact h 0x10F ⟨by decide +kernel, by decide +kernel⟩

theorem witness_FailuresRepeat :
    ∃ t, exec .bFinish State.reset = .next t ∧ t.last ≠ 0x80000000 := ⟨_, rfl, by decide⟩

/-- Both engines present and keyed, the host about to encrypt in place. -/
def bothKeyed : State := { topA with engB := engineM, pending := [.write 0 0x112] }

theorem bothKeyed_inv : bothKeyed.Inv :=
  ⟨.inl rfl, ⟨nofun, by decide +kernel, nofun, by decide +kernel⟩, engineM_inv, rfl⟩

theorem witness_StepKeepsTheInvariant : bothKeyed.Inv ∧ ∃ t, step bothKeyed = .next t := by
  have h : step bothKeyed = exec (.aEncrypt true) { bothKeyed with pending := [] } := rfl
  exact ⟨bothKeyed_inv, _, h.trans ((exec_eq rfl _).trans
    (command_completes (by decide +kernel) (by decide +kernel)))⟩

theorem witness_OperandsAreNeverModified : ∃ t, exec (.aEncrypt true) topA = .next t :=
  ⟨_, (exec_eq rfl _).trans (command_completes (by decide +kernel) (by decide +kernel))⟩

theorem witness_EnginesAreIndependent : Instr.aSetKey.onEngineA = true ∧ Instr.bSetKey.onEngineA = false := by decide

theorem witness_CapabilityIsSampledAtConstruction : Instr.bInit.isConstruct = false := by decide

/-- A command on both engines keyed. -/
theorem witness_RegistersHaveTheirWriters : bothKeyed.Inv ∧ ∃ t, exec (.aEncrypt true) bothKeyed = .next t :=
  ⟨bothKeyed_inv, _, (exec_eq rfl _).trans (command_completes (by decide +kernel) (by decide +kernel))⟩

/-- A success, a failure, and an address on each side of the written range. -/
theorem witness_MemoryFootprint :
    (∃ t, exec .bFinish (topB .active 0 0) = .next t ∧ t.last = 0x80000000) ∧
    (∃ t, exec .bFinish State.reset = .next t ∧ t.last ≠ 0x80000000) ∧
    ¬ inRange 0xFFFFFFEF (writeRange .bFinish (topB .active 0 0)) ∧
    inRange 0xFFFFFFFF (writeRange .bFinish (topB .active 0 0)) ∧ (topB .active 0 0).mem.wf = true :=
  ⟨⟨_, (exec_eq rfl _).trans (command_completes (by decide +kernel) (by decide +kernel)), rfl⟩,
    ⟨_, rfl, by decide⟩, by decide +kernel, by decide +kernel, rfl⟩

/-- A state that differs from `bothKeyed` in secrets alone. -/
def otherSecrets : State :=
  { bothKeyed with
    engA := { bothKeyed.engA with nonce := Vector.replicate 4 9 }
    engB := activeB (List.replicate 32 7) (zeros 32) 1 }

theorem witness_SecretsStayInside :
    visible bothKeyed = visible otherSecrets ∧ bothKeyed ≠ otherSecrets ∧
      bothKeyed.engB.m[12] = otherSecrets.engB.m[12] ∧ Instr.bInit.writesMemory = false := by
  refine ⟨rfl, fun h => ?_, by decide +kernel, by decide⟩
  have : bothKeyed.engA.nonce = otherSecrets.engA.nonce := by rw [h]
  exact absurd this (by decide +kernel)

end Sys2Proof.Tests
end

/-! ### Commands with one check and no range: the destroys -/

namespace Sys2Proof.Machine

/-- A command with one check and no range to refuse always answers: it fails with the check's error or takes its effect
(R282, R283). -/
theorem command_single_check (bad : Bool) (e : CmdError) (effect : State → State) (s : State) :
    command [(bad, e)] [] effect s = .next (if bad then raise e s else succeed (effect s)) := by
  cases bad with
  | true => exact command_fails rfl
  | false => exact command_completes rfl rfl

/-- `A_DESTROY` resets engine A when it is present (R143) and otherwise fails (R130). -/
theorem exec_aDestroy (s : State) :
    exec .aDestroy s =
      .next (if !s.engA.present then raise .absent s else succeed { s with engA := EngineA.reset }) :=
  (exec_eq rfl s).trans (command_single_check _ _ _ s)

/-- `B_DESTROY` resets engine B when it is present (R237) and otherwise fails (R221). -/
theorem exec_bDestroy (s : State) :
    exec .bDestroy s =
      .next (if !s.engB.present then raise .absent s else succeed { s with engB := EngineB.reset }) :=
  (exec_eq rfl s).trans (command_single_check _ _ _ s)

/-- Settles O28: each destroy has the presence check alone, and the two sides of that check are the clauses. -/
theorem destroyErases : Obligations.DestroyErases := by
  refine ⟨by decide, by decide, fun s => ⟨fun absent => ?_, fun absent => ?_, fun present => ?_, fun present => ?_⟩⟩
  · rw [exec_aDestroy, absent]; rfl
  · rw [exec_bDestroy, absent]; rfl
  · rw [exec_aDestroy, present]; rfl
  · rw [exec_bDestroy, present]; rfl

end Sys2Proof.Machine

/-! ### The footprint of a command in buffer memory (R66) -/

namespace Sys2Proof.Machine

/-- Two memories hold the same bytes in some ranges (R66). -/
abbrev AgreeOn (rs : List Range) (m m' : Memory) : Prop :=
  ∀ r ∈ rs, ∀ a, inRange a r → m.read a = m'.read a

/-- `MemRead` of a range gives the same bytes in every memory that agrees there (R51, R66). -/
theorem memRead_of_agreeOn {rs : List Range} {m : Memory} {s : State} (agree : AgreeOn rs m s.mem) {r : Range}
    (hr : r ∈ rs) : memRead { s with mem := m } r = memRead s r :=
  Memory.readBytes_congr fun a hlo hhi => agree r hr a ⟨hlo, hhi⟩

/-! #### Effects -/

/-- An effect stays within its ranges: it fills the write range with bytes that, like all it does to the registers, are the
same on every memory that agrees on the read ranges (R66). -/
def EffectWithin (reads : List Range) (write : Range) (effect : State → State) (s : State) : Prop :=
  ∃ out : Bytes, out.length = write.2 ∧ ∀ m, AgreeOn reads m s.mem →
    effect { s with mem := m } = { effect s with mem := m.writeBytes write.1.toNat out }

/-- An effect that commutes with a change of memory needs no range. -/
theorem effectWithin_of_commutes {effect : State → State} {s : State}
    (h : ∀ m, effect { s with mem := m } = { effect s with mem := m }) : EffectWithin [] (0, 0) effect s :=
  ⟨[], rfl, fun m _ => h m⟩

/-- An effect on the registers alone that takes from memory the bytes of one range. -/
theorem effectWithin_of_read {effect : State → State} {s : State} {r : Range} (f : Bytes → State)
    (h : ∀ m, effect { s with mem := m } = { f (memRead { s with mem := m } r) with mem := m }) :
    EffectWithin [r] (0, 0) effect s := by
  refine ⟨[], rfl, fun m agree => ?_⟩
  rw [h m, memRead_of_agreeOn agree (List.mem_singleton_self r)]
  exact congrArg (fun t : State => { t with mem := m }) (h s.mem).symm

/-- The length check of `A_SET_KEY` makes the range at `ARG_AUX` the one its key is read from (R131). -/
theorem aSetKey_within {s : State} (passed : firstError (checksOf .aSetKey s) = none) :
    EffectWithin (readRanges .aSetKey s) (writeRange .aSetKey s) (effectOf .aSetKey) s := by
  have hlen : s.argAuxlen.toNat = keyOperandLen s := by
    have h := firstError_eq_none.1 passed (s.argAuxlen.toNat != keyOperandLen s, .keyLength) (by simp [checksOf])
    simpa using h
  rw [readRanges, hlen]
  exact effectWithin_of_read (fun d => { s with engA := installKey aes d s.engA }) fun _ => rfl

/-- The output of counter mode is as long as its input (R133). -/
theorem length_ctrTransform (C : Config.Cipher) (rk : Schedule) (len : Nat) (nonce : Nonce) (iv : CtrIv) (inp : Bytes) :
    (ctrTransform C rk len (csInit nonce iv) inp).1.length = inp.length := by
  rw [ctrTransform_eq, length_xorBytes, length_ctrRun]
  omega

/-- `A_ENCRYPT` and `A_DECRYPT` read the IV and the source, and write the output range (R132, R133). -/
theorem ctrEffect_within (C : Config.Cipher) (inPlace : Bool) (s : State) :
    EffectWithin [s.auxRange Config.ctrIvLen, s.srcRange 1] (s.ctrOutRange inPlace) (ctrEffect C inPlace) s := by
  refine ⟨(ctrTransform C s.engA.rk s.engA.variant.len (csInit s.engA.nonce (ctrIv s)) (memRead s (s.srcRange 1))).1,
    ?_, fun m agree => ?_⟩
  · rw [length_ctrTransform, length_memRead]
    cases inPlace with
    | false => exact Nat.one_mul _
    | true => rfl
  · have hiv : memRead { s with mem := m } (s.auxRange Config.ctrIvLen) = memRead s (s.auxRange Config.ctrIvLen) :=
      memRead_of_agreeOn agree (by simp)
    have hsrc : memRead { s with mem := m } (s.srcRange 1) = memRead s (s.srcRange 1) :=
      memRead_of_agreeOn agree (by simp)
    exact congrArg₂
      (fun iv d =>
        let t := ctrTransform C s.engA.rk s.engA.variant.len (csInit s.engA.nonce (toVec 8 iv)) d
        memWrite (s.ctrOutRange inPlace).1 t.1 { s with mem := m, engA := { s.engA with cs := t.2 } })
      hiv hsrc

/-- The output range of counter mode is the write range of its two commands (R66, R71). -/
theorem ctrOutRange_eq (inPlace : Bool) (s : State) :
    s.ctrOutRange inPlace = (if inPlace then s.argSrc else s.argDst, s.argLen.toNat) := by
  cases inPlace with
  | false => rfl
  | true => exact congrArg (Prod.mk s.argSrc) (Nat.one_mul _)

/-- A keystream command reads and writes the n bytes at `ARG_SRC` (R166, R168). -/
theorem keystreamEffect_within {ks : EngineB → Bytes × EngineB} {n : Nat} (hks : ∀ b, (ks b).1.length = n) (s : State) :
    EffectWithin [(s.argSrc, n)] (s.argSrc, n) (keystreamEffect n ks) s := by
  refine ⟨xorBytes (memRead s (s.argSrc, n)) (ks s.engB).1, by simp [hks], fun m agree => ?_⟩
  exact congrArg (fun d => memWrite s.argSrc (xorBytes d (ks s.engB).1) { s with mem := m, engB := (ks s.engB).2 })
    (memRead_of_agreeOn agree (List.mem_singleton_self _))

/-- An in-place transform that keeps the length of n 64-byte blocks reads and writes the source range (R228, R230). -/
theorem aeadEffect_within {f : Nat → Bytes → EngineB → Bytes × EngineB}
    (hf : ∀ n d b, d.length = 64 * n → (f n d b).1.length = 64 * n) (s : State) :
    EffectWithin [s.srcRange 64] (s.srcRange 64) (aeadEffect f) s := by
  refine ⟨(f s.argLen.toNat (memRead s (s.srcRange 64)) s.engB).1, hf _ _ _ (length_memRead _ _), fun m agree => ?_⟩
  exact congrArg
    (fun d => memWrite s.argSrc (f s.argLen.toNat d s.engB).1
      { s with mem := m, engB := (f s.argLen.toNat d s.engB).2 })
    (memRead_of_agreeOn agree (List.mem_singleton_self _))

/-- The output of `B_ENCRYPT` is as long as its input (R228). -/
theorem length_encTransform (n : Nat) (d : Bytes) (b : EngineB) (hd : d.length = 64 * n) :
    (encTransform n d b).1.length = 64 * n := by
  rw [encTransform_eq n d b hd, length_xorBytes, length_ksRun, hd, Nat.min_self]

/-- The output of `B_DECRYPT` is as long as its input (R230). -/
theorem length_decTransform (n : Nat) (d : Bytes) (b : EngineB) (hd : d.length = 64 * n) :
    (decTransform n d b).1.length = 64 * n := by
  rw [decTransform_eq n d b hd, length_xorBytes, length_ksRun, hd, Nat.min_self]

/-- `B_FINISH` reads no memory and writes the tag's 16 bytes (R232). -/
theorem finishEffect_within (s : State) : EffectWithin [] (s.argDst, 16) finishEffect s :=
  ⟨macFinish s.engB, length_toLE _ _, fun _ _ => rfl⟩

/-- Every command's effect stays within the ranges of R66's table. -/
theorem effectOf_within {i : Instr} {s : State} (passed : firstError (checksOf i s) = none) :
    EffectWithin (readRanges i s) (writeRange i s) (effectOf i) s := by
  cases i with
  | aSetKey => exact aSetKey_within passed
  | aEncrypt inPlace | aDecrypt inPlace =>
    have h := ctrEffect_within aes inPlace s
    rw [ctrOutRange_eq, State.srcRange, Nat.one_mul] at h
    exact h
  | bSetKey => exact effectWithin_of_read (fun d => { s with engB := keyEngineB d s.engB }) fun _ => rfl
  | bInit => exact effectWithin_of_read (fun d => { s with engB := initEngineB d s.engB }) fun _ => rfl
  | bMacUpdate =>
    exact effectWithin_of_read (fun d => { s with engB := macUpdate s.argLen.toNat d s.engB }) fun _ => rfl
  | bChachaBlock => exact keystreamEffect_within (fun b => by rw [ksBlock_eq, length_ksRun]) s
  | bChacha4Block => exact keystreamEffect_within (fun b => by rw [ksBlock4_eq, length_ksRun]) s
  | bEncrypt => exact aeadEffect_within length_encTransform s
  | bDecrypt => exact aeadEffect_within length_decTransform s
  | bFinish => exact finishEffect_within s
  | aConstruct | aGetBlockSize | aGetIvSize | aGetKeySize | aDestroy
  | bConstruct | bGetIvSize | bGetBlockSize | bGetIcvSize | bDestroy =>
    exact effectWithin_of_commutes fun _ => rfl

/-! #### Commands -/

/-- No error's `LAST` is that of success (R282, R283). -/
theorem lastErr_ne_lastOk (e : CmdError) : lastErr e ≠ lastOk := by
  cases e <;> decide

/-- How the answer `t` of a command depends on memory: it is a failure, the same on every memory; or it is a success that
fills the write range with bytes that are the same on every memory agreeing on the read ranges. -/
def AnswersWithin (reads : List Range) (write : Range) (run : State → Answer) (s t : State) : Prop :=
  (t.last ≠ lastOk ∧ ∀ m, run { s with mem := m } = .next { t with mem := m }) ∨
  (t.last = lastOk ∧ ∃ out : Bytes, out.length = write.2 ∧ ∀ m, AgreeOn reads m s.mem →
    run { s with mem := m } = .next { t with mem := m.writeBytes write.1.toNat out })

/-- A command whose effect stays within its ranges answers within them. -/
theorem command_answersWithin {checks : List Check} {bars : List Bar} {effect : State → State} {reads : List Range}
    {write : Range} {s t : State} (within : firstError checks = none → EffectWithin reads write effect s)
    (h : command checks bars effect s = .next t) : AnswersWithin reads write (command checks bars effect) s t := by
  rcases command_next h with ⟨e, failed, rfl⟩ | ⟨passed, meaningful, rfl⟩
  · exact .inl ⟨lastErr_ne_lastOk e, fun _ => command_fails failed⟩
  · obtain ⟨out, hlen, hout⟩ := within passed
    refine .inr ⟨rfl, out, hlen, fun m agree => ?_⟩
    rw [command_completes passed meaningful, hout m agree]
    rfl

/-- A factory fails at once when its engine is present, and otherwise is a command on the state with `RESULT` cleared
(R262, R263). -/
theorem factory_answersWithin {here : Bool} {checks : List Check} {effect : State → State} {reads : List Range}
    {write : Range} {s t : State} (within : firstError checks = none → EffectWithin reads write effect (clearResult s))
    (h : (if here then .next (raise .present s) else command checks [] effect (clearResult s)) = Host.Outcome.next t) :
    AnswersWithin reads write
      (fun s => if here then .next (raise .present s) else command checks [] effect (clearResult s)) s t := by
  cases here with
  | true =>
    cases h
    exact .inl ⟨lastErr_ne_lastOk _, fun _ => rfl⟩
  | false => exact command_answersWithin (checks := checks) (bars := []) within h

/-- Memory plays no part in a command's checks (R66). -/
theorem checksOf_withMem (i : Instr) (s : State) (m : Memory) : checksOf i { s with mem := m } = checksOf i s := by
  cases i <;> rfl

/-- Memory plays no part in where a command's ranges lie (R66). -/
theorem barsOf_withMem (i : Instr) (s : State) (m : Memory) : barsOf i { s with mem := m } = barsOf i s := by
  cases i <;> rfl

/-- Every command answers within the ranges of R66's table. -/
theorem exec_answersWithin {i : Instr} {s t : State} (h : exec i s = .next t) :
    AnswersWithin (readRanges i s) (writeRange i s) (exec i) s t := by
  cases hc : i.isConstruct with
  | true =>
    have hi : i = .aConstruct ∨ i = .bConstruct := by simpa [Instr.isConstruct] using hc
    rcases hi with rfl | rfl
    · exact factory_answersWithin (here := s.engA.present) (effectOf_within (i := .aConstruct) (s := clearResult s)) h
    · exact factory_answersWithin (here := s.engB.present) (effectOf_within (i := .bConstruct) (s := clearResult s)) h
  | false =>
    rw [exec_eq hc] at h
    have onMem : ∀ m, exec i { s with mem := m } =
        command (checksOf i s) (barsOf i s) (effectOf i) { s with mem := m } := fun m => by
      rw [exec_eq hc, checksOf_withMem, barsOf_withMem]
    simpa only [AnswersWithin, onMem] using command_answersWithin effectOf_within h

/-- Two canonical memories agree on a range that the same bytes have filled (R51). -/
theorem read_writeBytes_agree {m m' : Memory} {r : Range} {out : Bytes} (hm : m.wf = true) (hm' : m'.wf = true)
    (hlen : out.length = r.2) {a : Nat} (ha : inRange a r) :
    (m.writeBytes r.1.toNat out).read a = (m'.writeBytes r.1.toNat out).read a := by
  obtain ⟨hlo, hhi⟩ := ha
  obtain ⟨k, rfl⟩ := Nat.exists_eq_add_of_le hlo
  have hk : k < out.length := by omega
  rw [Memory.read_writeBytes_inside (Memory.wf_iff.1 hm).1 hk, Memory.read_writeBytes_inside (Memory.wf_iff.1 hm').1 hk]

/-- Settles O59: `exec_answersWithin` taken at the command's own memory gives the frame, and at another memory the equal
outcome. -/
theorem memoryFootprint : Obligations.MemoryFootprint := by
  intro i s t h
  rcases exec_answersWithin h with ⟨failed, onMem⟩ | ⟨succeeded, out, hlen, onMem⟩
  · have ht : t = { t with mem := s.mem } := Host.Outcome.next.inj (h.symm.trans (onMem s.mem))
    have hmem : t.mem = s.mem := by rw [ht]
    exact ⟨fun _ _ => by rw [hmem], fun _ => hmem,
      fun m _ _ _ => ⟨_, onMem m, rfl, fun last => absurd last failed⟩⟩
  · have ht : t = { t with mem := s.mem.writeBytes (writeRange i s).1.toNat out } :=
      Host.Outcome.next.inj (h.symm.trans (onMem s.mem fun _ _ _ _ => rfl))
    have hmem : t.mem = s.mem.writeBytes (writeRange i s).1.toNat out := by rw [ht]
    refine ⟨fun a outside => ?_, fun failed => absurd succeeded failed, fun m hs hm agree =>
      ⟨_, onMem m (agree succeeded), rfl, fun _ a ha => ?_⟩⟩
    · rw [hmem]
      exact Memory.read_writeBytes_outside _ (by omega)
    · rw [hmem]
      exact read_writeBytes_agree hm hs hlen ha

end Sys2Proof.Machine

/-! ### The command word: the decoder by its fields (R71, R73, R74, R76) -/

namespace Sys2Proof

/-! #### The fields of a word -/

/-- The three fields of format C determine a word (R71). -/
theorem word_eq_iff {v w : Word} :
    v = w ↔ v.extractLsb' 9 23 = w.extractLsb' 9 23 ∧ v.extractLsb' 0 8 = w.extractLsb' 0 8 ∧
      v.getLsbD 8 = w.getLsbD 8 := by
  refine ⟨fun h => by simp [h], fun ⟨hrsv, hopc, hip⟩ => BitVec.eq_of_getLsbD_eq fun k hk => ?_⟩
  rcases Nat.lt_trichotomy k 8 with h | rfl | h
  · simpa [h] using congrArg (·.getLsbD k) hopc
  · exact hip
  · have := congrArg (·.getLsbD (k - 9)) hrsv
    simpa [show k - 9 < 23 by omega, show 9 + (k - 9) = k by omega] using this

/-- `IP` is bit 8 of the word (R71). -/
theorem extractLsb'_ip_eq_one_iff (w : Word) : w.extractLsb' 8 1 = 1 ↔ w.getLsbD 8 = true := by
  have h : w.extractLsb' 8 1 = BitVec.ofBool (w.getLsbD 8) :=
    BitVec.eq_of_getLsbD_eq fun k hk => by simp [show k = 0 by omega]
  rw [h]
  cases w.getLsbD 8 <;> decide

/-! #### The opcode and the in-place bit of a command -/

/-- The fields of a command are legal: its opcode is in the opcode map, and it has `IP` = 1 only where the opcode
allows it (R71, R76). -/
theorem opcode_legal (i : Instr) :
    i.opcode ∈ assignedOpcodes ∧ (i.inPlaceBit = true → i.opcode ∈ inPlaceOpcodes) := by
  have h := Laws.instr_wf i
  simp only [Instr.wf, FormatC.wf, Bool.and_eq_true] at h
  obtain ⟨⟨-, hopc⟩, hip⟩ := h
  refine ⟨by simpa [FormatC.opcodeAssigned, Instr.format] using hopc, fun hi => ?_⟩
  simpa [FormatC.inPlaceLegal, Instr.format, hi] using hip

/-- The opcode map sends a command's opcode and in-place bit to the command (R74). -/
@[simp] theorem commandOf_opcode (i : Instr) : commandOf i.opcode i.inPlaceBit = some i := by
  cases i <;> rfl

/-- Every assigned opcode has an entry in the opcode map (R74). -/
theorem commandOf_isSome : ∀ opc ∈ assignedOpcodes, ∀ b, (commandOf opc b).isSome = true := by decide

/-- A command the opcode map gives has the opcode looked up, and the in-place bit handed over where that opcode has one
(R71, R74). -/
theorem fields_of_commandOf {opc : BitVec 8} {b : Bool} {i : Instr} (h : commandOf opc b = some i) :
    i.opcode = opc ∧ i.inPlaceBit = (b && decide (opc ∈ inPlaceOpcodes)) := by
  have hopc : i.opcode = opc := by
    unfold commandOf at h
    split at h <;> cases h <;> exact BitVec.eq_of_toNat_eq (Eq.symm ‹_›)
  subst hopc
  refine ⟨rfl, ?_⟩
  cases i with
  | aEncrypt | aDecrypt =>
    cases h
    exact (Bool.and_true b).symm
  | _ => exact (Bool.and_false b).symm

/-- Where the in-place bit is legal, the opcode map is the inverse of a command's opcode and in-place bit (R74). -/
theorem commandOf_eq_some_iff {opc : BitVec 8} {b : Bool} {i : Instr} (legal : b = true → opc ∈ inPlaceOpcodes) :
    commandOf opc b = some i ↔ i.opcode = opc ∧ i.inPlaceBit = b := by
  refine ⟨fun h => ?_, ?_⟩
  · obtain ⟨hopc, hip⟩ := fields_of_commandOf h
    refine ⟨hopc, hip.trans ?_⟩
    cases b with
    | false => rfl
    | true => simp [legal]
  · rintro ⟨rfl, rfl⟩
    exact commandOf_opcode i

/-! #### The decoder -/

/-- `IP` = 1 with an opcode other than 0x12 and 0x13 is an in-place bit the opcode does not allow (R71, R76). -/
theorem inPlace_illegal_iff {opc : BitVec 8} {b : Bool} :
    (b = true ∧ opc ≠ 0x12 ∧ opc ≠ 0x13) ↔ ¬ (b = true → opc ∈ inPlaceOpcodes) := by
  simp [inPlaceOpcodes]

/-- The three tests of the decoder (R73, R76). -/
theorem decode_eq_ok_iff_tests {w : Word} {i : Instr} :
    decode w = .ok i ↔ w.extractLsb' 9 23 = 0 ∧ commandOf (w.extractLsb' 0 8) (w.getLsbD 8) = some i ∧
      (w.getLsbD 8 = true → w.extractLsb' 0 8 ∈ inPlaceOpcodes) := by
  have lookup : (w.extractLsb' 8 1 == 1) = w.getLsbD 8 := by
    rw [Bool.eq_iff_iff, beq_iff_eq, extractLsb'_ip_eq_one_iff]
  simp only [decode, FormatC.ofWord, lookup, extractLsb'_ip_eq_one_iff, inPlace_illegal_iff]
  generalize w.extractLsb' 9 23 = rsv, w.extractLsb' 0 8 = opc, w.getLsbD 8 = b
  by_cases hrsv : rsv = 0
  · rw [if_neg (not_not.2 hrsv), and_iff_right hrsv]
    cases commandOf opc b with
    | none => simp
    | some j =>
      by_cases legal : b = true → opc ∈ inPlaceOpcodes
      · simp only [if_neg (not_not.2 legal), and_iff_left legal, Except.ok.injEq, Option.some.injEq]
      · simp only [legal, not_false_eq_true, if_true, and_false, reduceCtorEq]
  · simp only [ne_eq, hrsv, not_false_eq_true, if_true, false_and, reduceCtorEq]

/-- A word decodes to a command exactly when its reserved bits are 0 and its other fields are the command's (R71, R73,
R74). -/
theorem decode_eq_ok_iff {w : Word} {i : Instr} :
    decode w = .ok i ↔
      w.extractLsb' 9 23 = 0 ∧ i.opcode = w.extractLsb' 0 8 ∧ i.inPlaceBit = w.getLsbD 8 := by
  rw [decode_eq_ok_iff_tests]
  constructor
  · rintro ⟨hrsv, h, legal⟩
    exact ⟨hrsv, (commandOf_eq_some_iff legal).1 h⟩
  · rintro ⟨hrsv, hopc, hip⟩
    have legal := (opcode_legal i).2
    rw [hopc, hip] at legal
    exact ⟨hrsv, (commandOf_eq_some_iff legal).2 ⟨hopc, hip⟩, legal⟩

/-- A word decodes to a command exactly when it is of none of R76's three illegal kinds. -/
theorem exists_decode_eq_ok_iff {w : Word} :
    (∃ i, decode w = .ok i) ↔ w.extractLsb' 9 23 = 0 ∧ w.extractLsb' 0 8 ∈ assignedOpcodes ∧
      (w.getLsbD 8 = true → w.extractLsb' 0 8 ∈ inPlaceOpcodes) := by
  constructor
  · rintro ⟨i, h⟩
    obtain ⟨hrsv, hopc, hip⟩ := decode_eq_ok_iff.1 h
    have legal := opcode_legal i
    rw [hopc, hip] at legal
    exact ⟨hrsv, legal⟩
  · rintro ⟨hrsv, assigned, legal⟩
    obtain ⟨i, hi⟩ := Option.isSome_iff_exists.1 (commandOf_isSome _ assigned (w.getLsbD 8))
    exact ⟨i, decode_eq_ok_iff_tests.2 ⟨hrsv, hi, legal⟩⟩

/-! #### Match and mask (R74) -/

/-- The mask covers `RSV` and `OPC`, and covers `IP` unless the opcode has an in-place bit. -/
theorem matchMask_fields (i : Instr) :
    i.matchMask.extractLsb' 9 23 = BitVec.allOnes 23 ∧ i.matchMask.extractLsb' 0 8 = BitVec.allOnes 8 ∧
      i.matchMask.getLsbD 8 = decide (i.opcode ∉ inPlaceOpcodes) := by
  cases i with
  | aEncrypt inPlace | aDecrypt inPlace => cases inPlace <;> decide
  | _ => decide

/-- The match word is the opcode, with `RSV` and `IP` 0. -/
theorem matchWord_fields (i : Instr) :
    i.matchWord.extractLsb' 9 23 = 0 ∧ i.matchWord.extractLsb' 0 8 = i.opcode ∧ i.matchWord.getLsbD 8 = false := by
  refine ⟨BitVec.eq_of_getLsbD_eq fun k _ => ?_, BitVec.eq_of_getLsbD_eq fun k hk => ?_, ?_⟩
  · simp only [Instr.matchWord, BitVec.getLsbD_extractLsb', BitVec.getLsbD_setWidth,
      BitVec.getLsbD_of_ge i.opcode (9 + k) (by omega)]
    simp
  · simp [Instr.matchWord, hk, Nat.lt_trans hk]
  · simp [Instr.matchWord]

/-- A word meets the match and mask of a command exactly when its reserved bits are 0, its opcode is the command's, and
bit 8 is 0 unless it is free. -/
theorem and_matchMask_eq_matchWord_iff (w : Word) (i : Instr) :
    w &&& i.matchMask = i.matchWord ↔ w.extractLsb' 9 23 = 0 ∧ w.extractLsb' 0 8 = i.opcode ∧
      (w.getLsbD 8 = true → i.opcode ∈ inPlaceOpcodes) := by
  obtain ⟨maskRsv, maskOpc, maskIp⟩ := matchMask_fields i
  obtain ⟨wordRsv, wordOpc, wordIp⟩ := matchWord_fields i
  rw [word_eq_iff, BitVec.extractLsb'_and, BitVec.extractLsb'_and, BitVec.getLsbD_and, maskRsv, maskOpc, maskIp,
    wordRsv, wordOpc, wordIp, BitVec.and_allOnes, BitVec.and_allOnes]
  simp

/-- Settles O2: both sides fix the reserved bits and the opcode, and with the in-place bit of the command being bit 8 of
the word, bit 8 is 0 unless it is free (`opcode_legal`). -/
theorem decodeFollowsMatchAndMask : Obligations.DecodeFollowsMatchAndMask := by
  intro w i
  rw [decode_eq_ok_iff, and_matchMask_eq_matchWord_iff]
  constructor
  · rintro ⟨hrsv, hopc, hip⟩
    exact ⟨⟨hrsv, hopc.symm, fun bit => (opcode_legal i).2 (hip.trans bit)⟩, hip⟩
  · rintro ⟨⟨hrsv, hopc, -⟩, hip⟩
    exact ⟨hrsv, hopc.symm, hip⟩

namespace Machine

/-! #### An illegal word written to `CMD` (R76, R284) -/

/-- A step whose action is a write to `CMD` runs the word (R20, R24). -/
theorem step_of_write_cmd {s : State} {w : Word} {rest : List HostAction} (h : s.pending = .write 0 w :: rest) :
    step s = runCommand w { s with pending := rest } := by
  rw [step, takeAction, h]
  rfl

/-- A word that decodes to no command raises `IllegalCommand` in every state (R76, R284). -/
theorem runCommand_of_illegal {w : Word} (h : ¬ ∃ i, decode w = .ok i) (s : State) :
    runCommand w s = .next (raise .illegalCommand s) := by
  unfold runCommand
  split
  · rfl
  · exact absurd ⟨_, ‹_›⟩ h

/-- Settles O3: R76's three kinds are the words that decode to no command (`exists_decode_eq_ok_iff`), and writing such
a word raises `IllegalCommand` whatever the state. -/
theorem illegalWordsRaiseIllegalCommand : Obligations.IllegalWordsRaiseIllegalCommand := by
  intro s w rest hpending illegal
  have illegal_iff : illegal ↔ ¬ ∃ i, decode w = .ok i := by
    rw [exists_decode_eq_ok_iff, not_and_or, not_and_or, ← inPlace_illegal_iff]
  rw [illegal_iff, not_not]
  refine ⟨fun h => ?_, id⟩
  rw [step_of_write_cmd hpending, runCommand_of_illegal h]
  rfl

end Machine

end Sys2Proof

/-! ### The counter-state codec: byte layout, both round trips, the increment (R91, R92, R94) -/

namespace Sys2Proof.Machine

/-! #### The bytes of an encoded counter state (R91) -/

/-- Bytes 0 to 11 of a counter state are its nonce and its IV, whatever its counter. -/
theorem csEncode_getD_of_lt (n : Nonce) (iv : CtrIv) (c : Word) {j : Nat} (hj : j < 12) :
    (csEncode n iv c).toList.getD j 0 = (n.toList ++ iv.toList).getD j 0 := by
  rw [csEncode_toList, List.getD_append _ _ _ _ (by simpa using hj)]

theorem csEncode_getD_nonce (n : Nonce) (iv : CtrIv) (c : Word) (j : Fin 4) :
    (csEncode n iv c).toList.getD j.val 0 = n[j] := by
  rw [csEncode_getD_of_lt n iv c (by omega), List.getD_append _ _ _ _ (by simp), List.getD_eq_getElem _ _ (by simp)]
  simp

theorem csEncode_getD_iv (n : Nonce) (iv : CtrIv) (c : Word) (j : Fin 8) :
    (csEncode n iv c).toList.getD (4 + j.val) 0 = iv[j] := by
  rw [csEncode_getD_of_lt n iv c (by omega), List.getD_append_right _ _ _ _ (by simp),
    List.getD_eq_getElem _ _ (by simp)]
  simp

theorem csEncode_getD_counter (n : Nonce) (iv : CtrIv) (c : Word) (j : Fin 4) :
    (csEncode n iv c).toList.getD (12 + j.val) 0 = c.extractLsb' (8 * (3 - j.val)) 8 := by
  have hcounter : (csEncode n iv c).toList.getD (12 + j.val) 0 = (toBE32 c).getD j.val 0 := by
    rw [csEncode_toList, List.getD_append_right _ _ _ _ (by simp)]
    simp
  rw [hcounter, toBE32_bytes]
  fin_cases j <;> rfl

/-! #### Every block is a counter state (R92) -/

/-- The three fields of R91 are side by side and cover the block. -/
theorem slice_nonce_iv_counter {bs : Bytes} (h : bs.length = 16) :
    slice bs 0 4 ++ slice bs 4 8 ++ slice bs 12 4 = bs := by
  have hcounter : slice bs 12 4 = bs.drop 12 := List.take_of_length_le (by simp [h])
  have hiv : slice bs 4 8 ++ bs.drop 12 = bs.drop 4 := by
    simpa [slice, List.drop_drop] using List.take_append_drop 8 (bs.drop 4)
  rw [List.append_assoc, hcounter, hiv]
  exact List.take_append_drop 4 bs

/-- Encoding a decoded counter state (R92). -/
@[simp] theorem csEncode_csDecode (b : Block) : csEncode (csDecode b).1 (csDecode b).2.1 (csDecode b).2.2 = b := by
  apply Vector.toList_inj.mp
  calc (csEncode (csDecode b).1 (csDecode b).2.1 (csDecode b).2.2).toList
      = slice b.toList 0 4 ++ slice b.toList 4 8 ++ slice b.toList 12 4 := by
        rw [csEncode_toList, csDecode, toList_toVec (by simp), toList_toVec (by simp), toBE32_be32 (by simp)]
    _ = b.toList := slice_nonce_iv_counter (by simp)

/-- Settles O13: the layout field by field, and the two round trips `csDecode_csEncode` and `csEncode_csDecode`. -/
theorem codecLosesNothing : Obligations.CodecLosesNothing :=
  ⟨fun n iv c => ⟨csEncode_getD_nonce n iv c, csEncode_getD_iv n iv c, csEncode_getD_counter n iv c,
    csDecode_csEncode n iv c⟩, csEncode_csDecode⟩

/-! #### The increment (R94) -/

/-- The increment by the fields of any block. -/
theorem csIncr_eq (b : Block) : csIncr b = csEncode (csDecode b).1 (csDecode b).2.1 ((csDecode b).2.2 + 1) := rfl

theorem csDecode_csIncr (b : Block) :
    csDecode (csIncr b) = ((csDecode b).1, (csDecode b).2.1, (csDecode b).2.2 + 1) := by
  rw [csIncr_eq, csDecode_csEncode]

/-- Bytes 0 to 11 hold no part of the counter, so the increment leaves them. -/
theorem csIncr_getD_of_lt (b : Block) {j : Nat} (hj : j < 12) :
    (csIncr b).toList.getD j 0 = b.toList.getD j 0 := by
  conv_rhs => rw [← csEncode_csDecode b]
  rw [csIncr_eq, csEncode_getD_of_lt _ _ _ hj, csEncode_getD_of_lt _ _ _ hj]

/-- Settles O14: the increment read by its fields (`csDecode_csIncr`), whose last conjunct is the sum modulo 2^32 at
0xFFFFFFFF, and by its bytes (`csIncr_getD_of_lt`). -/
theorem counterIncrementStaysInItsField : Obligations.CounterIncrementStaysInItsField := by
  intro b
  refine ⟨csDecode_csIncr b, fun j => csIncr_getD_of_lt b j.isLt, fun atTop => ?_⟩
  rw [csDecode_csIncr, atTop]
  rfl

end Sys2Proof.Machine

/-! ### The round engine: the order of the sub-keys (R101) and the four-lane path (R103) -/

namespace Sys2Proof.Machine

open Sys2Proof.Config (Cipher)

/-! #### The sub-keys of the single-block path, in index order (R101) -/

theorem subKey_zero (rk : Schedule) : subKey rk 0 = rk[0] := by
  rw [subKey, List.getD_eq_getElem _ _ (by simp), Vector.getElem_toList]

/-- The n middle rounds from sub-key i on take the sub-keys i to i + n - 1, each once and in order. -/
theorem middle1_eq_foldl (C : Cipher) (rk : Schedule) (n i : Nat) (t : Block) :
    middle1 C rk n i t = (List.range' i n).foldl (fun t k => C.spRound t (subKey rk k)) t := by
  induction n generalizing i t with
  | zero => rfl
  | succ n ih => rw [middle1, ih, List.range'_succ, List.foldl_cons]

/-- Settles O16: the middle rounds are the fold over the indices 1 to L - 2 (`middle1_eq_foldl`), here counted from 0. The
equation needs no bound on L, so the premise on the variant is not used. -/
theorem roundsUseEverySubKeyOnce : Obligations.RoundsUseEverySubKeyOnce := by
  intro C rk v x _
  have from_zero : List.range' 1 (v.len - 2) = (List.range (v.len - 2)).map (1 + ·) := List.range'_eq_map_range
  rw [rounds1, middle1_eq_foldl, from_zero, List.foldl_map, subKey_zero]
  simp only [subKey, Nat.add_comm 1]

/-! #### The interleaved path, lane by lane (R103) -/

@[simp] theorem onLanes_get (f : Block → Block) (x : Lanes) (j : Fin 4) : (onLanes f x)[j] = f x[j] := by
  simp [onLanes]

/-- Lanes exchange no data in a middle round (R107), so each goes through all of them as on the single-block path. -/
@[simp] theorem middle4_get (C : Cipher) (rk : Schedule) (n i : Nat) (x : Lanes) (j : Fin 4) :
    (middle4 C rk n i x)[j] = middle1 C rk n i x[j] := by
  induction n generalizing i x with
  | zero => rfl
  | succ n ih => rw [middle4, ih, onLanes_get, middle1]

/-- Settles O15: the first XOR and the final round act on each lane alone (`onLanes_get`), and so do the interleaved middle
rounds (`middle4_get`). -/
theorem fourLanesEqualOneLane : Obligations.FourLanesEqualOneLane := by
  intro C rk len x j
  rw [rounds4, onLanes_get, middle4_get, onLanes_get, rounds1]

end Sys2Proof.Machine

/-! ### The six queries (R140 to R142, R234 to R236) -/

namespace Sys2Proof.Machine

/-- Engine A's queries (R140 to R142). -/
abbrev queriesA : List Instr := [.aGetBlockSize, .aGetIvSize, .aGetKeySize]

/-- Engine B's queries (R234 to R236). -/
abbrev queriesB : List Instr := [.bGetIvSize, .bGetBlockSize, .bGetIcvSize]

/-- A query of engine A fails when the engine is absent (R130) and otherwise takes its effect. -/
theorem exec_queryA {i : Instr} (hi : i ∈ queriesA) (s : State) :
    exec i s = .next (if !s.engA.present then raise .absent s else succeed (effectOf i s)) := by
  obtain rfl | rfl | rfl : i = .aGetBlockSize ∨ i = .aGetIvSize ∨ i = .aGetKeySize := by simpa using hi
  all_goals exact (exec_eq rfl s).trans (command_single_check _ _ _ s)

/-- A query of engine B fails when the engine is absent (R221) and otherwise takes its effect. -/
theorem exec_queryB {i : Instr} (hi : i ∈ queriesB) (s : State) :
    exec i s = .next (if !s.engB.present then raise .absent s else succeed (effectOf i s)) := by
  obtain rfl | rfl | rfl : i = .bGetIvSize ∨ i = .bGetBlockSize ∨ i = .bGetIcvSize := by simpa using hi
  all_goals exact (exec_eq rfl s).trans (command_single_check _ _ _ s)

theorem exec_queryA_of_absent {s : State} (absent : s.engA.present = false) {i : Instr} (hi : i ∈ queriesA) :
    exec i s = .next (raise .absent s) := by
  rw [exec_queryA hi, absent]; rfl

theorem exec_queryB_of_absent {s : State} (absent : s.engB.present = false) {i : Instr} (hi : i ∈ queriesB) :
    exec i s = .next (raise .absent s) := by
  rw [exec_queryB hi, absent]; rfl

theorem exec_queryA_of_present {s : State} (present : s.engA.present = true) {i : Instr} (hi : i ∈ queriesA) :
    exec i s = .next (succeed (effectOf i s)) := by
  rw [exec_queryA hi, present]; rfl

theorem exec_queryB_of_present {s : State} (present : s.engB.present = true) {i : Instr} (hi : i ∈ queriesB) :
    exec i s = .next (succeed (effectOf i s)) := by
  rw [exec_queryB hi, present]; rfl

/-- The key operand is the variant's data key and the 4 nonce bytes (R142). -/
theorem keyOperandLen_of_variant {s : State} {v : Variant} (h : s.engA.variant = v) : keyOperandLen s = v.ks + 4 := by
  rw [keyOperandLen, h]; rfl

/-- Settles O27: the words by R74's map; a query has the presence check alone, so each clause on `exec` is one side of it,
and the key size is the length of the key operand by variant (`keyOperandLen_of_variant`). -/
theorem queriesReport : Obligations.QueriesReport := by
  refine ⟨by decide, fun s => ⟨fun absent _ hi => exec_queryA_of_absent absent hi,
    fun absent _ hi => exec_queryB_of_absent absent hi, fun present => ?_, fun present => ?_⟩⟩
  · have answer := @exec_queryA_of_present s present
    refine ⟨answer (by decide), answer (by decide), BitVec.ofNat 32 (keyOperandLen s), answer (by decide), ?_⟩
    refine ⟨fun h => ?_, fun h => ?_, fun h => ?_⟩ <;> rw [keyOperandLen_of_variant h] <;> rfl
  · have answer := @exec_queryB_of_present s present
    exact ⟨answer (by decide), answer (by decide), answer (by decide)⟩

end Sys2Proof.Machine

/-! ### The phase machine of engine B (R220) -/

namespace Sys2Proof.Machine

/-! #### What the effects do to presence and phase -/

@[simp] theorem macUpdate_phase (n : Nat) (d : Bytes) (b : EngineB) : (macUpdate n d b).phase = b.phase := by
  rw [macUpdate_frame]

@[simp] theorem macUpdate_present (n : Nat) (d : Bytes) (b : EngineB) : (macUpdate n d b).present = b.present := by
  rw [macUpdate_frame]

/-- `B_ENCRYPT` and `B_DECRYPT` advance the counter of engine B and replace its hash; presence and phase stay (R228,
R230). -/
theorem effectOf_crypt_phase_present {i : Instr} (crypt : i = .bEncrypt ∨ i = .bDecrypt) (s : State) :
    (effectOf i s).engB.phase = s.engB.phase ∧ (effectOf i s).engB.present = s.engB.present := by
  obtain ⟨h, after⟩ : ∃ h, (effectOf i s).engB = advanced s.argLen.toNat h s.engB := by
    have len := length_memRead s (s.srcRange 64)
    rcases crypt with rfl | rfl
    · exact ⟨_, congrArg Prod.snd (encTransform_eq _ _ s.engB len)⟩
    · exact ⟨_, congrArg Prod.snd (decTransform_eq _ _ s.engB len)⟩
  rw [after]
  exact ⟨rfl, rfl⟩

/-- Where R220's table accepts a command its effect enters the phase of the table, and `B_DESTROY` alone leaves the
instance absent. -/
theorem effectOf_phase_present {i : Instr} {s : State} {p : Phase} (notConstruct : i ≠ .bConstruct)
    (present : s.engB.present = true) (accepted : phaseAfter i s.engB.phase = some p) :
    (effectOf i s).engB.phase = p ∧ (effectOf i s).engB.present = decide (i ≠ .bDestroy) := by
  cases i with
  | bConstruct => exact absurd rfl notConstruct
  | aConstruct | aSetKey | aEncrypt | aDecrypt | aGetBlockSize | aGetIvSize | aGetKeySize | aDestroy
  | bGetIvSize | bGetBlockSize | bGetIcvSize | bSetKey => exact ⟨Option.some.inj accepted, present⟩
  | bDestroy => exact ⟨Option.some.inj accepted, rfl⟩
  | bInit =>
    obtain ⟨-, ⟨⟩⟩ := Option.ite_none_left_eq_some.1 accepted
    exact ⟨rfl, present⟩
  | bChachaBlock | bChacha4Block | bFinish =>
    obtain ⟨-, ⟨⟩⟩ := Option.ite_none_right_eq_some.1 accepted
    exact ⟨rfl, present⟩
  | bMacUpdate =>
    obtain ⟨active, ⟨⟩⟩ := Option.ite_none_right_eq_some.1 accepted
    exact ⟨(macUpdate_phase ..).trans active, (macUpdate_present ..).trans present⟩
  | bEncrypt | bDecrypt =>
    obtain ⟨active, ⟨⟩⟩ := Option.ite_none_right_eq_some.1 accepted
    exact (effectOf_crypt_phase_present (by simp) s).imp (·.trans active) (·.trans present)

/-! #### The checks of a present engine B, by its phase (R221) -/

section
variable {s : State} (present : s.engB.present = true)
include present

theorem firstError_requirePresentB_append (cs : List Check) :
    firstError (requirePresentB s ++ cs) = firstError cs := by
  simp [requirePresentB, present]

theorem firstError_requireKeyedB_append (cs : List Check) :
    firstError (requireKeyedB s ++ cs) =
      if s.engB.phase = .noKey then some (phaseError s.engB.phase) else firstError cs := by
  rw [requireKeyedB, List.append_assoc, firstError_requirePresentB_append present]
  cases s.engB.phase <;> rfl

theorem firstError_requireMatrixB_append (cs : List Check) :
    firstError (requireMatrixB s ++ cs) =
      if s.engB.phase = .active ∨ s.engB.phase = .finished then firstError cs else some (phaseError s.engB.phase) := by
  rw [requireMatrixB, List.append_assoc, firstError_requireKeyedB_append present]
  cases s.engB.phase <;> rfl

theorem firstError_requireMatrixB :
    firstError (requireMatrixB s) =
      if s.engB.phase = .active ∨ s.engB.phase = .finished then none else some (phaseError s.engB.phase) := by
  simpa using firstError_requireMatrixB_append present []

theorem firstError_requireActiveB :
    firstError (requireActiveB s) = if s.engB.phase = .active then none else some (phaseError s.engB.phase) := by
  rw [requireActiveB, firstError_requireMatrixB_append present]
  cases s.engB.phase <;> rfl

/-- With its operand length right, a command's checks report the phases R220's table does not accept, and no others. -/
theorem firstError_checksOf_eq_phaseError {i : Instr} (onB : i.onEngineA = false) (notConstruct : i ≠ .bConstruct)
    (key : i = .bSetKey → s.argAuxlen = 32) (iv : i = .bInit → s.argAuxlen = 12) :
    firstError (checksOf i s) =
      if (phaseAfter i s.engB.phase).isSome then none else some (phaseError s.engB.phase) := by
  cases i with
  | bConstruct => exact absurd rfl notConstruct
  | bSetKey =>
    rw [checksOf, firstError_requirePresentB_append present, key rfl]
    rfl
  | bInit =>
    rw [checksOf, firstError_requireKeyedB_append present, iv rfl]
    cases s.engB.phase <;> rfl
  | bChachaBlock | bChacha4Block =>
    rw [checksOf, firstError_requireMatrixB present]
    cases s.engB.phase <;> rfl
  | bMacUpdate | bEncrypt | bDecrypt | bFinish =>
    rw [checksOf, firstError_requireActiveB present]
    cases s.engB.phase <;> rfl
  | bGetIvSize | bGetBlockSize | bGetIcvSize | bDestroy =>
    exact firstError_requirePresentB_append present []
  | _ => simp [Instr.onEngineA, Instr.opcode] at onB

end

/-! #### Ranges (R51) and the factory (R263) -/

theorem firstBar_mustFit {r : Range} (fit : r.1.toNat + r.2 ≤ 2 ^ 32) : firstBar [mustFit r] = none := by
  rw [mustFit, (fits_iff r).2 fit]
  rfl

/-- With its ranges below 2^32, a command of engine B meets no situation the spec refuses (R51, R66). -/
theorem firstBar_barsOf_eq_none {i : Instr} {s : State} (onB : i.onEngineA = false) (fit : rangesFit i s) :
    firstBar (barsOf i s) = none := by
  cases i with
  | bSetKey | bInit | bMacUpdate | bChachaBlock | bChacha4Block | bEncrypt | bDecrypt | bFinish =>
    exact firstBar_mustFit (fit _ (.head _))
  | bConstruct | bGetIvSize | bGetBlockSize | bGetIcvSize | bDestroy => rfl
  | _ => simp [Instr.onEngineA, Instr.opcode] at onB

/-- A factory that succeeds leaves the instance present and without a key (R263). -/
theorem exec_bConstruct_enters_noKey {s t : State} (h : exec .bConstruct s = .next t) (ok : t.last = lastOk) :
    t.engB.present = true ∧ t.engB.phase = .noKey := by
  rcases exec_next h with ⟨e, rfl⟩ | ⟨-, e, rfl⟩ | ⟨-, -, -, -, rfl⟩
  · exact absurd ok (lastErr_ne_lastOk e)
  · exact absurd ok (lastErr_ne_lastOk e)
  · exact ⟨rfl, rfl⟩

/-- Settles O47: the checks report a phase exactly where R220's table has no next phase
(`firstError_checksOf_eq_phaseError`); where it has one the command completes, since its ranges fit, and its effect enters
that phase (`effectOf_phase_present`). -/
theorem phaseMachine : Obligations.PhaseMachine := by
  refine ⟨fun s t => exec_bConstruct_enters_noKey, fun s i onB notConstruct present fit key iv => ?_⟩
  have notFactory : i.isConstruct = false := by
    have notA : i ≠ .aConstruct := by rintro rfl; cases onB
    simp [Instr.isConstruct, notA, notConstruct]
  have checks := firstError_checksOf_eq_phaseError present onB notConstruct key iv
  rw [exec_eq notFactory]
  cases after : phaseAfter i s.engB.phase with
  | none =>
    rw [after] at checks
    exact command_fails checks
  | some p =>
    rw [after] at checks
    exact ⟨_, command_completes checks (firstBar_barsOf_eq_none onB fit), rfl,
      effectOf_phase_present notConstruct present after⟩

end Sys2Proof.Machine

/-! ### The factories (R262, R263) -/

namespace Sys2Proof.Machine

/-- What a factory answers once its instance is absent: the first of its three tests that holds is its failure, and it
takes its effect when none does (R262, R263). -/
theorem command_factory_checks (badAlg badSize noCap : Prop) [Decidable badAlg] [Decidable badSize] [Decidable noCap]
    (effect : State → State) (s : State) :
    command [(decide badAlg, .alg), (decide badSize, .keySize), (decide noCap, .capability)] [] effect s =
      .next (if badAlg then raise .alg s else if badSize then raise .keySize s
        else if noCap then raise .capability s else succeed (effect s)) := by
  split_ifs with alg size cap
  · exact command_fails (by simp [alg])
  · exact command_fails (by simp [alg, size])
  · exact command_fails (by simp [alg, size, cap])
  · exact command_completes (by simp [alg, size, cap]) firstBar_nil

/-! #### Engine A -/

/-- The key sizes in bytes `A_CONSTRUCT` accepts (R262). -/
abbrev keySizesA : List Word := [16, 24, 32]

/-- The variant an accepted key size selects (R262). -/
theorem ofKeySize_of_mem {n : Word} (hn : n ∈ keySizesA) :
    Variant.ofKeySize n = if n = 16 then .key16 else if n = 24 then .key24 else .key32 := by
  obtain rfl | rfl | rfl : n = 16 ∨ n = 24 ∨ n = 32 := by simpa using hn
  all_goals rfl

/-- A key size selects no variant exactly when `A_CONSTRUCT` does not accept it (R262). -/
theorem ofKeySize_eq_none_iff {n : Word} : Variant.ofKeySize n = .none ↔ n ∉ keySizesA := by
  constructor
  · intro noVariant hn
    rw [ofKeySize_of_mem hn] at noVariant
    split_ifs at noVariant
  · intro hn
    obtain ⟨h16, h24, h32⟩ : n ≠ 16 ∧ n ≠ 24 ∧ n ≠ 32 := by simpa using hn
    rw [Variant.ofKeySize, if_neg h16, if_neg h24, if_neg h32]

/-- What `A_CONSTRUCT` tests after presence, in R262's order. -/
theorem checksOf_aConstruct (s : State) :
    checksOf .aConstruct s =
      [(decide (s.argAux ≠ 1), .alg), (decide (s.argAuxlen ∉ keySizesA), .keySize),
        (decide (s.capA = false), .capability)] := by
  simp only [← ofKeySize_eq_none_iff]
  simp [checksOf, Config.algCtr, beq_eq_decide, bne]

/-- `A_CONSTRUCT` on a present instance (R262). -/
theorem exec_aConstruct_of_present {s : State} (present : s.engA.present = true) :
    exec .aConstruct s = .next (raise .present s) := by
  rw [exec_aConstruct, if_pos present]

/-- `A_CONSTRUCT` on an absent instance (R262). -/
theorem exec_aConstruct_of_absent {s : State} (absent : s.engA.present = false) :
    exec .aConstruct s = .next
      (if s.argAux ≠ 1 then raise .alg (clearResult s)
      else if s.argAuxlen ∉ keySizesA then raise .keySize (clearResult s)
      else if s.capA = false then raise .capability (clearResult s)
      else succeed (effectOf .aConstruct (clearResult s))) := by
  rw [exec_aConstruct, if_neg (by simp [absent]), checksOf_aConstruct, command_factory_checks]

/-- Settles O21: the word by R74's map; a present instance fails at once (`exec_aConstruct_of_present`), and on an absent
one (`exec_aConstruct_of_absent`) each clause is a branch, the last with the variant of the size (`ofKeySize_of_mem`). -/
theorem constructA : Obligations.ConstructA := by
  refine ⟨by decide, fun s => ⟨exec_aConstruct_of_present, fun absent alg => ?_, fun absent alg size => ?_,
    fun absent alg size cap => ?_, fun absent alg size cap => ?_⟩⟩
  all_goals rw [exec_aConstruct_of_absent absent]
  · rw [if_pos alg]; rfl
  · rw [if_neg (not_not_intro alg), if_pos size]; rfl
  · rw [if_neg (not_not_intro alg), if_neg (not_not_intro size), if_pos cap]; rfl
  · rw [if_neg (not_not_intro alg), if_neg (not_not_intro size), if_neg (by simp [cap]), ← ofKeySize_of_mem size]; rfl

/-! #### Engine B -/

/-- What `B_CONSTRUCT` tests after presence, in R263's order. -/
theorem checksOf_bConstruct (s : State) :
    checksOf .bConstruct s =
      [(decide (s.argAux ≠ 2), .alg), (decide (s.argAuxlen ≠ 32), .keySize), (decide (s.capB = false), .capability)] := by
  simp [checksOf, Config.algAead, Config.aeadKeyLen, ← BitVec.toNat_inj, beq_eq_decide, bne]

/-- `B_CONSTRUCT` on a present instance (R263). -/
theorem exec_bConstruct_of_present {s : State} (present : s.engB.present = true) :
    exec .bConstruct s = .next (raise .present s) := by
  rw [exec_bConstruct, if_pos present]

/-- `B_CONSTRUCT` on an absent instance (R263). -/
theorem exec_bConstruct_of_absent {s : State} (absent : s.engB.present = false) :
    exec .bConstruct s = .next
      (if s.argAux ≠ 2 then raise .alg (clearResult s)
      else if s.argAuxlen ≠ 32 then raise .keySize (clearResult s)
      else if s.capB = false then raise .capability (clearResult s)
      else succeed (effectOf .bConstruct (clearResult s))) := by
  rw [exec_bConstruct, if_neg (by simp [absent]), checksOf_bConstruct, command_factory_checks]

/-- Settles O40: the word by R74's map; a present instance fails at once (`exec_bConstruct_of_present`), and on an absent
one (`exec_bConstruct_of_absent`) each clause is a branch. -/
theorem constructB : Obligations.ConstructB := by
  refine ⟨by decide, fun s => ⟨exec_bConstruct_of_present, fun absent alg => ?_, fun absent alg size => ?_,
    fun absent alg size cap => ?_, fun absent alg size cap => ?_⟩⟩
  all_goals rw [exec_bConstruct_of_absent absent]
  · rw [if_pos alg]; rfl
  · rw [if_neg (not_not_intro alg), if_pos size]; rfl
  · rw [if_neg (not_not_intro alg), if_neg (not_not_intro size), if_pos cap]; rfl
  · rw [if_neg (not_not_intro alg), if_neg (not_not_intro size), if_neg (by simp [cap])]; rfl

end Sys2Proof.Machine

/-! ### The order of errors (R291) -/

namespace Sys2Proof.Machine

/-! #### The tests of R291 are the checks of a command -/

theorem decide_argAuxlen_ne (s : State) (n : Word) :
    decide (s.argAuxlen ≠ n) = (s.argAuxlen.toNat != n.toNat) := by
  simp [bne, beq_eq_decide, BitVec.toNat_inj]

/-- The tests of R291 are a command's own checks, in the same order; the two lists differ only in how an equality is
decided. -/
theorem tests_eq_checksOf {i : Instr} (notFactory : i.isConstruct = false) (s : State) :
    presenceCheck i s :: factoryChecks i s ++ stateChecks i s ++ lengthChecks i s = checksOf i s := by
  cases i with
  | aConstruct | bConstruct => cases notFactory
  | aSetKey => simp only [lengthChecks, ← bne_iff_ne, Bool.decide_eq_true]; rfl
  | bSetKey => rw [lengthChecks, decide_argAuxlen_ne]; rfl
  | aEncrypt inPlace | aDecrypt inPlace => cases inPlace <;> rw [lengthChecks, decide_argAuxlen_ne] <;> rfl
  | bInit => rw [stateChecks, lengthChecks, decide_argAuxlen_ne, ← beq_eq_decide]; rfl
  | bChachaBlock | bChacha4Block | bMacUpdate | bEncrypt | bDecrypt | bFinish =>
    simp only [stateChecks, ← beq_eq_decide]; rfl
  | aGetBlockSize | aGetIvSize | aGetKeySize | aDestroy | bGetIvSize | bGetBlockSize | bGetIcvSize | bDestroy => rfl

/-- A command other than a factory reports the first of its checks that fails. -/
theorem reportedError_eq {i : Instr} (notFactory : i.isConstruct = false) (s : State) :
    reportedError i s = firstError (checksOf i s) := by
  rw [reportedError, tests_eq_checksOf notFactory]

/-- `A_CONSTRUCT` tests presence before its other checks (R262). -/
theorem reportedError_aConstruct (s : State) :
    reportedError .aConstruct s = if s.engA.present then some .present else firstError (checksOf .aConstruct s) := by
  rw [checksOf_aConstruct, Bool.decide_eq_false]; rfl

/-- `B_CONSTRUCT` tests presence before its other checks (R263). -/
theorem reportedError_bConstruct (s : State) :
    reportedError .bConstruct s = if s.engB.present then some .present else firstError (checksOf .bConstruct s) := by
  rw [checksOf_bConstruct, Bool.decide_eq_false]; rfl

/-! #### What a failing command leaves (R283) -/

/-- No test of a factory after presence reports `Present`, so that error alone leaves `RESULT` (R262, R263). -/
theorem factory_check_ne_present {i : Instr} (factory : i.isConstruct = true) {s : State} {e : CmdError}
    (failed : firstError (checksOf i s) = some e) : e ≠ .present := by
  obtain ⟨pre, post, checks, -⟩ := firstError_eq_some failed
  have reported : (true, e) ∈ checksOf i s := by simp [checks]
  rintro rfl
  obtain rfl | rfl : i = .aConstruct ∨ i = .bConstruct := by simpa [Instr.isConstruct] using factory
  all_goals simp [checksOf] at reported

/-- A factory whose tests report an error sets `LAST`, and `RESULT` to 0 unless its instance is present (R262, R263). -/
theorem factory_fails {here : Bool} {checks : List Check} {effect : State → State} {s : State} {e : CmdError}
    (notPresent : firstError checks = some e → e ≠ .present)
    (failed : (if here then some .present else firstError checks) = some e) :
    (if here then .next (raise .present s) else command checks [] effect (clearResult s) : Answer) =
      .next { s with last := lastErr e, result := if e ≠ .present then 0 else s.result } := by
  cases here with
  | true => cases failed; rfl
  | false =>
    have failed : firstError checks = some e := failed
    rw [if_neg Bool.false_ne_true, if_pos (notPresent failed), command_fails failed]
    rfl

/-- A command with a failing test has the effect of R283 and no other. -/
theorem exec_of_reportedError {i : Instr} {s : State} {e : CmdError} (failed : reportedError i s = some e) :
    exec i s = .next
      { s with last := lastErr e, result := if i.isConstruct = true ∧ e ≠ .present then 0 else s.result } := by
  cases kind : i.isConstruct with
  | false =>
    rw [reportedError_eq kind] at failed
    rw [exec_eq kind, command_fails failed]
    rfl
  | true =>
    have notPresent := @factory_check_ne_present i kind s e
    obtain rfl | rfl : i = .aConstruct ∨ i = .bConstruct := by simpa [Instr.isConstruct] using kind
    · rw [reportedError_aConstruct] at failed
      simpa [exec_aConstruct] using factory_fails (effect := effectOf .aConstruct) notPresent failed
    · rw [reportedError_bConstruct] at failed
      simpa [exec_bConstruct] using factory_fails (effect := effectOf .bConstruct) notPresent failed

/-- A word that decodes runs its command (R24). -/
theorem runCommand_of_decode {w : Word} {i : Instr} (h : decode w = .ok i) (s : State) : runCommand w s = exec i s := by
  rw [runCommand, h]

/-- Settles O49: a word that decodes to no command raises `IllegalCommand`, and a command's failing tests are its own
checks (`reportedError_eq` and the factories' two equations), so the first of them is its failure
(`exec_of_reportedError`). -/
theorem firstFailingTestIsReported : Obligations.FirstFailingTestIsReported := by
  intro s w rest hpending
  rw [step_of_write_cmd hpending]
  refine ⟨fun why illegal => ?_, fun i e legal failed => ?_⟩
  · exact runCommand_of_illegal (by simp [illegal]) _
  · rw [runCommand_of_decode legal]
    exact exec_of_reportedError (s := { s with pending := rest }) failed

end Sys2Proof.Machine

/-! ### Reset (R43, R310) -/

namespace Sys2Proof.Machine

/-- With a host action waiting the core takes the oldest one (R20). -/
theorem step_of_pending {s : State} {act : HostAction} {rest : List HostAction} (h : s.pending = act :: rest) :
    step s = hostStep act { s with pending := rest } := by
  rw [step, takeAction, h]

/-- Every flag and every byte of engine A at reset (R43). -/
theorem EngineA.reset_fields :
    EngineA.reset.present = false ∧ EngineA.reset.keyValid = false ∧ EngineA.reset.variant = .none ∧
    (∀ i : Fin 15, ∀ j : Fin 16, EngineA.reset.rk[i][j] = 0) ∧ (∀ j : Fin 4, EngineA.reset.nonce[j] = 0) ∧
    ∀ j : Fin 16, EngineA.reset.cs[j] = 0 := by
  simp [EngineA.reset, Block.zero]

/-- Every flag and every word of engine B at reset (R43). -/
theorem EngineB.reset_fields :
    EngineB.reset.present = false ∧ EngineB.reset.phase = .noKey ∧ EngineB.reset.wrap = false ∧
    (∀ j : Fin 16, EngineB.reset.m[j] = 0) ∧ EngineB.reset.r = Limbs.zero ∧ EngineB.reset.u = Limbs.zero ∧
    EngineB.reset.h = Limbs.zero ∧ ∀ j : Fin 4, EngineB.reset.s[j] = 0 := by
  simp [EngineB.reset]

/-- Settles O9: the step taken is `resetCore`, which writes the port's registers and puts both engines in their reset
states. -/
theorem resetZeroesTheCore : Obligations.ResetZeroesTheCore := by
  intro s rest hpending
  exact ⟨resetCore { s with pending := rest }, step_of_pending hpending, rfl, EngineA.reset_fields,
    EngineB.reset_fields⟩

end Sys2Proof.Machine

/-! ### The capability inputs (R260, R326) -/

namespace Sys2Proof.Machine

/-- A change of the state that leaves a command's checks and bars as they are, and commutes with writes to `LAST` and with
the command's effect, commutes with the command. -/
theorem command_mapNext {f : State → State} {checks : List Check} {bars : List Bar} {effect : State → State} {s : State}
    (onLast : ∀ (t : State) (w : Word), f { t with last := w } = { f t with last := w })
    (onEffect : effect (f s) = f (effect s)) :
    command checks bars effect (f s) = mapNext f (command checks bars effect s) := by
  rcases command_cases checks bars effect s with ⟨e, failed, h⟩ | ⟨passed, r, barred, h⟩ | ⟨passed, meaningful, h⟩
  · rw [h, command_fails failed]
    exact congrArg Host.Outcome.next (onLast s (lastErr e)).symm
  · rw [h, command, passed, barred]
    rfl
  · rw [h, command_completes passed meaningful, onEffect]
    exact congrArg Host.Outcome.next (onLast (effect s) lastOk).symm

/-- The state with the capability inputs at the levels `x` and `y` (R261). -/
abbrev State.withCaps (x y : Bool) (s : State) : State := { s with capA := x, capB := y }

/-- Of the checks, only the factories' test the capability inputs (R260). -/
theorem checksOf_withCaps {i : Instr} (notFactory : i.isConstruct = false) (s : State) (x y : Bool) :
    checksOf i (s.withCaps x y) = checksOf i s := by
  cases i with
  | aConstruct | bConstruct => cases notFactory
  | _ => rfl

/-- The capability inputs play no part in where a command's ranges lie (R66). -/
theorem barsOf_withCaps (i : Instr) (s : State) (x y : Bool) : barsOf i (s.withCaps x y) = barsOf i s := by
  cases i <;> rfl

/-- A write to buffer memory neither reads nor writes a capability input (R51). -/
theorem memWrite_withCaps (a : Word) (bs : Bytes) (s : State) (x y : Bool) :
    memWrite a bs (s.withCaps x y) = (memWrite a bs s).withCaps x y := rfl

/-- A keystream command neither reads nor writes a capability input, whatever its generator (R166, R168). -/
theorem keystreamEffect_withCaps (n : Nat) (ks : EngineB → Bytes × EngineB) (s : State) (x y : Bool) :
    keystreamEffect n ks (s.withCaps x y) = (keystreamEffect n ks s).withCaps x y :=
  memWrite_withCaps s.argSrc _ { s with engB := (ks s.engB).2 } x y

/-- `B_FINISH` neither reads nor writes a capability input (R232). -/
theorem finishEffect_withCaps (s : State) (x y : Bool) :
    finishEffect (s.withCaps x y) = (finishEffect s).withCaps x y :=
  memWrite_withCaps s.argDst (macFinish s.engB) { s with engB := { s.engB with phase := .finished } } x y

/-- No effect, the factories' included, reads or writes a capability input (R260). -/
theorem effectOf_withCaps (i : Instr) (s : State) (x y : Bool) :
    effectOf i (s.withCaps x y) = (effectOf i s).withCaps x y := by
  cases i with
  | bChachaBlock | bChacha4Block => exact keystreamEffect_withCaps ..
  | bFinish => exact finishEffect_withCaps ..
  | _ => rfl

/-- Settles O57: a command that is no factory is `command` of checks, bars and an effect in which the capability inputs play
no part (`checksOf_withCaps`, `barsOf_withCaps`, `effectOf_withCaps`). -/
theorem capabilityIsSampledAtConstruction : Obligations.CapabilityIsSampledAtConstruction := by
  intro i s x y notFactory
  rw [exec_eq notFactory, exec_eq notFactory, checksOf_withCaps notFactory, barsOf_withCaps]
  exact command_mapNext (f := State.withCaps x y) (fun _ _ => rfl) (effectOf_withCaps i s x y)

end Sys2Proof.Machine

/-! ### The command word: encoding and decoding (R71, R74) -/

namespace Sys2Proof

/-- The bits of a word put together from fields: eight of `OPC`, one of `IP`, then `RSV` (R71). -/
theorem FormatC.getLsbD_toWord (f : FormatC) (k : Nat) :
    f.toWord.getLsbD k =
      if k < 8 then f.opc.getLsbD k else if k - 8 < 1 then f.ip.getLsbD (k - 8) else f.rsv.getLsbD (k - 8 - 1) := by
  rw [FormatC.toWord, ← BitVec.getLsbD_append, ← BitVec.getLsbD_append]

/-- The fields of a word put together from fields are those fields (R71). -/
@[simp] theorem FormatC.ofWord_toWord (f : FormatC) : FormatC.ofWord f.toWord = f := by
  obtain ⟨opc, ip, rsv⟩ := f
  simp only [FormatC.ofWord, FormatC.mk.injEq]
  refine ⟨?_, ?_, ?_⟩ <;> refine BitVec.eq_of_getLsbD_eq fun k hk => ?_ <;>
    simp only [BitVec.getLsbD_extractLsb', FormatC.getLsbD_toWord, hk, decide_true, Bool.true_and]
  · rw [if_pos (by omega), Nat.zero_add]
  · rw [if_neg (by omega), if_pos (by omega), Nat.add_sub_cancel_left]
  · rw [if_neg (by omega), if_neg (by omega)]
    congr 1
    omega

/-- The reserved bits of an encoding are 0, and its other fields are the command's (R71, R74). -/
theorem encode_fields (i : Instr) :
    (encode i).extractLsb' 9 23 = 0 ∧ (encode i).extractLsb' 0 8 = i.opcode ∧ (encode i).getLsbD 8 = i.inPlaceBit := by
  have h : FormatC.ofWord (encode i) = i.format := FormatC.ofWord_toWord i.format
  obtain ⟨hopc, hip, hrsv⟩ := FormatC.mk.inj h
  refine ⟨hrsv, hopc, ?_⟩
  rw [Bool.eq_iff_iff, ← extractLsb'_ip_eq_one_iff, hip]
  cases i.inPlaceBit <;> decide

/-- Settles O1: a word decodes to a command exactly when its three fields are the command's (`decode_eq_ok_iff`), which are
those of the command's encoding (`encode_fields`), and the fields determine a word (`word_eq_iff`). -/
theorem decodeAndEncodeAgree : Obligations.DecodeAndEncodeAgree := by
  intro w i
  obtain ⟨hrsv, hopc, hip⟩ := encode_fields i
  rw [decode_eq_ok_iff, word_eq_iff, hrsv, hopc, hip, eq_comm (a := w.extractLsb' 9 23)]
  exact (and_iff_right (Laws.instr_wf i)).symm

/-- Settles O4: each word's three fields are read off and looked up in the opcode map. -/
theorem sampleWordsDecode : Obligations.SampleWordsDecode := by
  refine ⟨?_, ?_, ?_, ?_, ?_, ?_, ?_, ?_⟩ <;> decide

namespace Machine

/-! ### The host port (R20 to R29) -/

/-- A word put in front of the host's actions is the next one taken (R70). -/
theorem step_withFetchWord (s : State) (w : Word) : step (s.withFetchWord 32 w.toNat) = runCommand w s := by
  have hw : BitVec.ofNat 32 (w.toNat % 2 ^ 32) = w := by
    rw [Nat.mod_eq_of_lt w.isLt, BitVec.ofNat_toNat, BitVec.setWidth_eq]
  rw [State.withFetchWord, hw]
  rfl

/-- Settles O5: both steps run the word (`step_of_write_cmd`, `step_withFetchWord`), which is to run its command. -/
theorem stepRunsTheDecodedCommand : Obligations.StepRunsTheDecodedCommand := by
  intro s w i h
  refine ⟨fun rest hpending => ?_, ?_⟩
  · rw [step_of_write_cmd hpending, runCommand_of_decode h]
  · rw [step_withFetchWord, runCommand_of_decode h]

/-- The registers by number (R21, R24, R29). -/
theorem portRead_eq (s : State) (n : Nat) :
    portRead s n =
      if n = 1 then s.last else if n = 2 then s.result else if n = 3 then stateA s.engA
      else if n = 4 then stateB s.engB else if n = 5 then s.argSrc else if n = 6 then s.argDst
      else if n = 7 then s.argLen else if n = 8 then s.argAux else if n = 9 then s.argAuxlen else 0 := by
  unfold portRead
  split <;> simp_all

/-- Settles O6: a `HostRead` is recorded with the register's value (`portRead_eq`). -/
theorem hostReadReturnsTheRegister : Obligations.HostReadReturnsTheRegister := by
  intro s n rest hpending
  rw [step_of_pending hpending, ← portRead_eq]
  rfl

/-- What a `HostWrite` stores, by number (R21, R29). -/
theorem portWrite_eq (n : Nat) (v : Word) (s : State) :
    portWrite n v s =
      { s with
        argSrc := if n = 5 then v else s.argSrc
        argDst := if n = 6 then v else s.argDst
        argLen := if n = 7 then v else s.argLen
        argAux := if n = 8 then v else s.argAux
        argAuxlen := if n = 9 then v else s.argAuxlen } := by
  unfold portWrite
  split <;> simp_all

/-- Settles O7: a write to a register other than `CMD` is `portWrite`, register by register (`portWrite_eq`). -/
theorem hostWriteStoresOperandsOnly : Obligations.HostWriteStoresOperandsOnly := by
  intro s n v rest hn hpending
  rw [step_of_pending hpending, hostStep, if_neg hn, portWrite_eq]

/-- Settles O8: each view is a small table in the flags, read field by field. -/
theorem stateViewsShowTheFlags : Obligations.StateViewsShowTheFlags := by
  refine ⟨fun a => ?_, fun b => ?_⟩
  · obtain ⟨present, keyValid, variant, -, -, -⟩ := a
    simp only [stateA]
    cases variant <;> revert present keyValid <;> decide
  · obtain ⟨present, phase, wrap, -, -, -, -, -⟩ := b
    simp only [stateB]
    cases phase <;> revert present wrap <;> decide

/-- Settles O48: the code and the class of each error, put in their fields. -/
theorem outcomeCodes : Obligations.OutcomeCodes := by
  refine ⟨?_, ?_, ?_, ?_, ?_, ?_, ?_, ?_, ?_, ?_, ?_, ?_⟩ <;> decide

/-- Settles O10: each action's step is `hostStep`'s arm; a store keeps the canonical form and is read back
(`Memory.read_write_self`), and leaves every other byte (`Memory.read_write_ne`). -/
theorem hostActionsBetweenCommands : Obligations.HostActionsBetweenCommands := by
  intro s
  refine ⟨fun idle => ?_, fun rest => ⟨fun a b hpending wf => ?_, fun a => step_of_pending, fun v => step_of_pending,
    fun v => step_of_pending⟩⟩
  · rw [step, takeAction, idle]
  · refine ⟨s.mem.write a.toNat b, step_of_pending hpending, Memory.wf_write b wf a.isLt, fun x => ?_⟩
    split
    · next hx => rw [hx, Memory.read_write_self (Memory.wf_iff.1 wf).1]
    · next hx => exact Memory.read_write_ne _ _ hx

/-! ### Buffer memory (R51) -/

/-- `MemRead` of the bytes written gives them back (R51). -/
theorem Memory.readBytes_writeBytes {m : Memory} (wf : m.wf = true) (a : Nat) (bs : Bytes) :
    (m.writeBytes a bs).readBytes a bs.length = bs := by
  refine List.ext_getElem (by simp) fun i _ hi => ?_
  rw [Memory.getElem_readBytes, Memory.read_writeBytes_inside (Memory.wf_iff.1 wf).1 hi]

/-- Settles O11: the bytes of the range, the addresses outside it, and the range read back. -/
theorem memoryReadsWhatWasWritten : Obligations.MemoryReadsWhatWasWritten := by
  intro m a bs wf
  exact ⟨fun i hi => Memory.read_writeBytes_inside (Memory.wf_iff.1 wf).1 hi,
    fun a' outside => Memory.read_writeBytes_outside m outside, Memory.readBytes_writeBytes wf a bs⟩

/-- A listed byte reads otherwise than unlisted, so in canonical form the smallest listed address is seen in the reads. -/
theorem Memory.read_cons_ne_unlisted {k lo : Nat} {v : Byte} {m : Memory} (wf : Memory.wfFrom lo ((k, v) :: m) = true) :
    Memory.read ((k, v) :: m) k ≠ Memory.unlisted k := by
  simp only [Memory.wfFrom, Bool.and_eq_true, decide_eq_true_eq] at wf
  obtain ⟨⟨-, hv⟩, -⟩ := wf
  simpa [Memory.read] using hv

/-- In canonical form a memory starts at the first address that reads otherwise than unlisted, and its tail is in
canonical form above that address; so memories that read alike are equal, entry by entry. -/
theorem Memory.ext_of_wfFrom {m m' : Memory} {lo : Nat} (wf : m.wfFrom lo = true) (wf' : m'.wfFrom lo = true)
    (alike : ∀ a, m.read a = m'.read a) : m = m' := by
  induction m generalizing m' lo with
  | nil =>
    cases m' with
    | nil => rfl
    | cons c' m' => exact absurd (alike c'.1).symm (Memory.read_cons_ne_unlisted wf')
  | cons c m ih =>
    cases m' with
    | nil => exact absurd (alike c.1) (Memory.read_cons_ne_unlisted wf)
    | cons c' m' =>
      obtain ⟨k, v⟩ := c
      obtain ⟨k', v'⟩ := c'
      have listed := Memory.read_cons_ne_unlisted wf
      have listed' := Memory.read_cons_ne_unlisted wf'
      simp only [Memory.wfFrom, Bool.and_eq_true, decide_eq_true_eq] at wf wf'
      obtain ⟨-, tail⟩ := wf
      obtain ⟨-, tail'⟩ := wf'
      have below : ∀ {a k : Nat} {v : Byte} {m : Memory}, m.wfFrom (k + 1) = true → a < k →
          Memory.read ((k, v) :: m) a = Memory.unlisted a := fun tail ha => by
        rw [Memory.read, if_neg (by omega), Memory.read_of_wfFrom_lt tail (by omega)]
      have hk : k = k' := by
        rcases Nat.lt_trichotomy k k' with h | h | h
        · exact absurd ((alike k).trans (below tail' h)) listed
        · exact h
        · exact absurd ((alike k').symm.trans (below tail h)) listed'
      subst hk
      have hv : v = v' := by simpa [Memory.read] using alike k
      subst hv
      rw [ih tail tail' fun a => ?_]
      by_cases ha : a = k
      · rw [Memory.read_of_wfFrom_lt tail (by omega), Memory.read_of_wfFrom_lt tail' (by omega)]
      · simpa [Memory.read, ha] using alike a

/-- Settles O12: the canonical form from address 0 on determines a memory by its reads (`Memory.ext_of_wfFrom`). -/
theorem memoryFormIsCanonical : Obligations.MemoryFormIsCanonical := fun _ _ wf wf' =>
  Memory.ext_of_wfFrom (Memory.wf_iff.1 wf).1 (Memory.wf_iff.1 wf').1

end Machine

end Sys2Proof

/-! ### What every command answers, from its tests, its ranges and its effect (R280 to R285) -/

namespace Sys2Proof.Machine

/-! #### The tests pass -/

/-- The state a command takes its effect on: a factory first sets `RESULT` to 0 (R262, R263). -/
def State.cleared (i : Instr) (s : State) : State := if i.isConstruct then clearResult s else s

/-- Checks that pass play no further part. -/
theorem command_of_passed {checks : List Check} (passed : firstError checks = none) (bars : List Bar)
    (effect : State → State) (s : State) : command checks bars effect s = command [] bars effect s := by
  simp [command, passed]

/-- A factory's tests pass when its instance is absent and its checks pass. -/
theorem not_present_of_passed {here : Bool} {checks : List Check}
    (passed : (if here then some CmdError.present else firstError checks) = none) :
    here = false ∧ firstError checks = none := by
  cases here with
  | true => cases passed
  | false => exact ⟨rfl, passed⟩

/-- Where no test of R291 fails, the checks pass. -/
theorem checks_of_reportedError_none {i : Instr} {s : State} (passed : reportedError i s = none) :
    firstError (checksOf i s) = none := by
  cases kind : i.isConstruct with
  | false => rwa [← reportedError_eq kind]
  | true =>
    obtain rfl | rfl : i = .aConstruct ∨ i = .bConstruct := by simpa [Instr.isConstruct] using kind
    · exact (not_present_of_passed ((reportedError_aConstruct s).symm.trans passed)).2
    · exact (not_present_of_passed ((reportedError_bConstruct s).symm.trans passed)).2

/-- Where no test of R291 fails, a command is its bars and its effect. -/
theorem exec_of_passed {i : Instr} {s : State} (passed : reportedError i s = none) :
    exec i s = command [] (barsOf i s) (effectOf i) (s.cleared i) := by
  have checks := checks_of_reportedError_none passed
  cases kind : i.isConstruct with
  | false =>
    rw [exec_eq kind, command_of_passed checks, State.cleared, kind]
    rfl
  | true =>
    obtain rfl | rfl : i = .aConstruct ∨ i = .bConstruct := by simpa [Instr.isConstruct] using kind
    · obtain ⟨absent, -⟩ := not_present_of_passed ((reportedError_aConstruct s).symm.trans passed)
      rw [exec_aConstruct, absent, command_of_passed checks]
      rfl
    · obtain ⟨absent, -⟩ := not_present_of_passed ((reportedError_bConstruct s).symm.trans passed)
      rw [exec_bConstruct, absent, command_of_passed checks]
      rfl

/-- A command whose tests pass and whose ranges have a meaning takes its effect (R280, R282). -/
theorem exec_completes {i : Instr} {s : State} (passed : reportedError i s = none)
    (meaningful : firstBar (barsOf i s) = none) : exec i s = .next (succeed (effectOf i (s.cleared i))) := by
  rw [exec_of_passed passed, command_completes firstError_nil meaningful]

/-- So does a command other than a factory, by its own checks. -/
theorem exec_of_checks {i : Instr} {s : State} (notFactory : i.isConstruct = false)
    (passed : firstError (checksOf i s) = none) (meaningful : firstBar (barsOf i s) = none) :
    exec i s = .next (succeed (effectOf i s)) :=
  (exec_eq notFactory s).trans (command_completes passed meaningful)

/-- A command whose tests pass is refused for the first of its bars that holds (U3, U4). -/
theorem exec_refused {i : Instr} {s : State} {r : Refusal} (passed : reportedError i s = none)
    (barred : firstBar (barsOf i s) = some r) : exec i s = .refused r := by
  rw [exec_of_passed passed, command, firstError_nil, barred]

/-! #### The ranges have a meaning -/

/-- The ranges whose end a command's bars test, in order (R51, R66). -/
def fittedRanges (i : Instr) (s : State) : List Range :=
  match i with
  | .aSetKey => [s.auxRange (keyOperandLen s)]
  | .aEncrypt inPlace | .aDecrypt inPlace => [s.auxRange Config.ctrIvLen, s.srcRange 1, s.ctrOutRange inPlace]
  | .bSetKey => [s.auxRange Config.aeadKeyLen]
  | .bInit => [s.auxRange Config.aeadIvLen]
  | .bMacUpdate => [s.srcRange 16]
  | .bChachaBlock => [(s.argSrc, 64)]
  | .bChacha4Block => [(s.argSrc, 256)]
  | .bEncrypt | .bDecrypt => [s.srcRange 64]
  | .bFinish => [(s.argDst, Config.icvLen)]
  | .aConstruct | .aGetBlockSize | .aGetIvSize | .aGetKeySize | .aDestroy => []
  | .bConstruct | .bGetIvSize | .bGetBlockSize | .bGetIcvSize | .bDestroy => []

/-- The bar on overlapping ranges of the two commands that have a source and a destination (R57). -/
def overlapBars (i : Instr) (s : State) : List Bar :=
  match i with
  | .aEncrypt inPlace | .aDecrypt inPlace => [mustBeCompatible (s.srcRange 1) (s.ctrOutRange inPlace)]
  | _ => []

/-- The bars of a command test first where its ranges end, then whether they overlap (log entry 7). -/
theorem barsOf_eq (i : Instr) (s : State) : barsOf i s = (fittedRanges i s).map mustFit ++ overlapBars i s := by
  cases i <;> rfl

/-- Ranges that fit raise no bar; the first that does not is the first bar that holds. -/
theorem firstBar_map_mustFit (rs : List Range) (bars : List Bar) :
    firstBar (rs.map mustFit ++ bars) =
      if ∀ r ∈ rs, r.1.toNat + r.2 ≤ 2 ^ 32 then firstBar bars else some .rangePastTop := by
  induction rs with
  | nil => simp
  | cons r rs ih =>
    simp only [List.map_cons, List.cons_append, mustFit, firstBar_cons, ih, List.forall_mem_cons, ← fits_iff]
    cases fits r with
    | true => simp only [true_and, Bool.not_true, Bool.false_eq_true, if_false]
    | false => exact (if_neg (by simp)).symm

/-- With a right key length the ranges the bars test are the ranges of R66's table. -/
theorem rangesFit_iff {i : Instr} {s : State} (passed : firstError (checksOf i s) = none) :
    rangesFit i s ↔ ∀ r ∈ fittedRanges i s, r.1.toNat + r.2 ≤ 2 ^ 32 := by
  cases i with
  | aSetKey =>
    have hlen : s.argAuxlen.toNat = keyOperandLen s := by
      have h := firstError_eq_none.1 passed (s.argAuxlen.toNat != keyOperandLen s, .keyLength) (by simp [checksOf])
      simpa using h
    simp [rangesFit, readRanges, writeRange, fittedRanges, State.auxRange, hlen]
  | aEncrypt inPlace | aDecrypt inPlace =>
    simp [rangesFit, readRanges, writeRange, fittedRanges, State.auxRange, State.srcRange, ctrOutRange_eq,
      Config.ctrIvLen]
  | bSetKey | bInit | bMacUpdate | bChachaBlock | bChacha4Block | bEncrypt | bDecrypt | bFinish =>
    simp [rangesFit, readRanges, writeRange, fittedRanges, State.auxRange, State.srcRange, Config.aeadKeyLen,
      Config.aeadIvLen, Config.icvLen]
  | _ => simp [rangesFit, readRanges, writeRange, fittedRanges]

/-- Ranges of one length are compatible when they are identical or share no byte (R57). -/
theorem compatible_iff (a b : Word) (n : Nat) :
    compatible (a, n) (b, n) = true ↔ a = b ∨ ∀ x, ¬ (inRange x (a, n) ∧ inRange x (b, n)) := by
  have apart : disjoint (a, n) (b, n) = true ↔ n = 0 ∨ a.toNat + n ≤ b.toNat ∨ b.toNat + n ≤ a.toNat := by
    simp [disjoint, or_assoc]
  rw [compatible, Bool.or_eq_true, apart]
  simp only [BEq.rfl, Bool.and_true, beq_iff_eq, inRange]
  refine or_congr_right ⟨fun h x => by omega, fun h => ?_⟩
  have hb := h b.toNat
  have ha := h a.toNat
  omega

/-- The overlap bar holds exactly where source and destination partly overlap (R57). -/
theorem firstBar_overlapBars (i : Instr) (s : State) [Decidable (rangesCompatible i s)] :
    firstBar (overlapBars i s) = if rangesCompatible i s then none else some .partialOverlap := by
  have meets : ∀ inPlace : Bool, compatible (s.srcRange 1) (s.ctrOutRange inPlace) = true ↔
      s.argSrc = (if inPlace then s.argSrc else s.argDst) ∨
        ∀ a, ¬ (inRange a (s.argSrc, s.argLen.toNat) ∧
          inRange a (if inPlace then s.argSrc else s.argDst, s.argLen.toNat)) := fun inPlace => by
    rw [ctrOutRange_eq, State.srcRange, Nat.one_mul, compatible_iff]
  have bar : ∀ inPlace : Bool, firstBar [mustBeCompatible (s.srcRange 1) (s.ctrOutRange inPlace)] =
      if compatible (s.srcRange 1) (s.ctrOutRange inPlace) then none else some .partialOverlap := fun inPlace => by
    cases h : compatible (s.srcRange 1) (s.ctrOutRange inPlace) <;> simp [mustBeCompatible, h]
  cases i with
  | aEncrypt inPlace | aDecrypt inPlace =>
    rw [overlapBars, bar]
    refine if_congr ((meets inPlace).trans ?_) rfl rfl
    cases inPlace with
    | false => rfl
    | true => exact iff_of_true (.inl rfl) trivial
  | _ => exact (if_pos trivial).symm

/-- The first bar of a command whose checks pass: a range past the top before an overlap (log entry 7). -/
theorem firstBar_barsOf {i : Instr} {s : State} (passed : firstError (checksOf i s) = none)
    [Decidable (rangesCompatible i s)] :
    firstBar (barsOf i s) =
      if rangesFit i s then (if rangesCompatible i s then none else some .partialOverlap)
      else some .rangePastTop := by
  rw [barsOf_eq, firstBar_map_mustFit, firstBar_overlapBars]
  exact if_congr (rangesFit_iff passed).symm rfl rfl

/-- A command that takes its effect has ranges that fit (R51). -/
theorem rangesFit_of_firstBar {i : Instr} {s : State} (passed : firstError (checksOf i s) = none)
    (meaningful : firstBar (barsOf i s) = none) : rangesFit i s := by
  classical
  rw [firstBar_barsOf passed] at meaningful
  by_contra past
  rw [if_neg past] at meaningful
  cases meaningful

/-- Settles O50: no bar holds, so the command takes its effect and succeeds (`exec_completes`). -/
theorem commandsCompleteWhenTestsPass : Obligations.CommandsCompleteWhenTestsPass := by
  classical
  intro i s passed fit compat
  refine ⟨_, exec_completes passed ?_, rfl⟩
  rw [firstBar_barsOf (checks_of_reportedError_none passed), if_pos fit, if_pos compat]

/-- Settles O51: the first bar that holds is the refusal (`firstBar_barsOf`, `exec_refused`). -/
theorem meaninglessRangesAreRefused : Obligations.MeaninglessRangesAreRefused := by
  classical
  intro i s passed
  have bar := firstBar_barsOf (checks_of_reportedError_none passed)
  refine ⟨fun past => exec_refused passed ?_, fun fit overlap => exec_refused passed ?_⟩
  · rw [bar, if_neg past]
  · rw [bar, if_pos fit, if_neg overlap]

/-! #### Failures -/

/-- The state a failing command leaves (R262, R263, R283). -/
def State.failed (i : Instr) (e : CmdError) (s : State) : State :=
  { s with last := lastErr e, result := if i.isConstruct = true ∧ e ≠ .present then 0 else s.result }

/-- Every command that answers a next state failed or took its effect. -/
theorem exec_next_cases {i : Instr} {s t : State} (h : exec i s = .next t) :
    (∃ e, reportedError i s = some e ∧ t = s.failed i e) ∨
    (reportedError i s = none ∧ firstBar (barsOf i s) = none ∧ t = succeed (effectOf i (s.cleared i))) := by
  cases err : reportedError i s with
  | some e =>
    rw [exec_of_reportedError err] at h
    exact .inl ⟨e, rfl, (Host.Outcome.next.inj h).symm⟩
  | none =>
    cases bar : firstBar (barsOf i s) with
    | some r =>
      rw [exec_refused err bar] at h
      cases h
    | none =>
      rw [exec_completes err bar] at h
      exact .inr ⟨rfl, rfl, (Host.Outcome.next.inj h).symm⟩

/-- No test reads `LAST` or `RESULT`, the only registers a failure writes (R285). -/
theorem reportedError_failed (i j : Instr) (e : CmdError) (s : State) :
    reportedError i (s.failed j e) = reportedError i s := by
  cases i <;> rfl

/-- A failure that repeats changes nothing. -/
theorem failed_failed (i : Instr) (e : CmdError) (s : State) : (s.failed i e).failed i e = s.failed i e := by
  simp only [State.failed, State.mk.injEq, and_true, true_and]
  split <;> rfl

/-- Settles O52: a command that does not succeed failed with the error its tests report (`exec_next_cases`), and they
report it again on the state it left. -/
theorem failuresRepeat : Obligations.FailuresRepeat := by
  intro i s t h notOk
  rcases exec_next_cases h with ⟨e, err, rfl⟩ | ⟨-, -, rfl⟩
  · rw [exec_of_reportedError ((reportedError_failed i i e s).trans err)]
    exact congrArg Host.Outcome.next (failed_failed i e s)
  · exact absurd rfl notOk

/-! #### What a command leaves -/

/-- A keystream command writes engine B and buffer memory alone, whatever its generator (R166, R168). -/
theorem keystreamEffect_frame (n : Nat) (ks : EngineB → Bytes × EngineB) (s : State) :
    keystreamEffect n ks s = { s with engB := (ks s.engB).2, mem := (keystreamEffect n ks s).mem } := rfl

/-- An effect writes `RESULT`, the engines and buffer memory alone (R22). -/
theorem effectOf_frame (i : Instr) (s : State) :
    effectOf i s =
      { s with
        result := (effectOf i s).result, engA := (effectOf i s).engA, engB := (effectOf i s).engB
        mem := (effectOf i s).mem } := by
  cases i with
  | bChachaBlock | bChacha4Block => rw [effectOf, keystreamEffect_frame]
  | _ => rfl

/-- A command writes `LAST`, `RESULT`, the engines and buffer memory alone (R22). -/
theorem exec_frame {i : Instr} {s t : State} (h : exec i s = .next t) :
    t = { s with last := t.last, result := t.result, engA := t.engA, engB := t.engB, mem := t.mem } := by
  rcases exec_next_cases h with ⟨e, -, rfl⟩ | ⟨-, -, rfl⟩
  · rfl
  · rw [effectOf_frame, State.cleared]
    split <;> rfl

/-- Settles O55: of the fields a command writes (`exec_frame`) none is an operand, an input or the host's. -/
theorem operandsAreNeverModified : Obligations.OperandsAreNeverModified := by
  intro i s t h
  rw [exec_frame h]
  exact ⟨rfl, rfl, rfl, rfl, rfl, rfl, rfl, rfl, rfl⟩

end Sys2Proof.Machine

/-! ### What commands do not depend on, and what they do not write (R26 to R42, R264) -/

namespace Sys2Proof.Machine

/-! #### Two runs compared -/

/-- Two runs of a command that take the same tests and bars answer alike, when their failures look alike and their effects
do. -/
theorem exec_mapNext_congr {f g : State → State} {i : Instr} {s s' : State}
    (tests : reportedError i s = reportedError i s') (bars : barsOf i s = barsOf i s')
    (onFail : ∀ e, f (s.failed i e) = g (s'.failed i e))
    (onEffect : f (succeed (effectOf i (s.cleared i))) = g (succeed (effectOf i (s'.cleared i)))) :
    mapNext f (exec i s) = mapNext g (exec i s') := by
  cases err : reportedError i s with
  | some e =>
    rw [exec_of_reportedError err, exec_of_reportedError (tests.symm.trans err)]
    exact congrArg Host.Outcome.next (onFail e)
  | none =>
    cases bar : firstBar (barsOf i s) with
    | some r => rw [exec_refused err bar, exec_refused (tests.symm.trans err) (bars ▸ bar)]; rfl
    | none =>
      rw [exec_completes err bar, exec_completes (tests.symm.trans err) (bars ▸ bar)]
      exact congrArg Host.Outcome.next onEffect

@[simp] theorem mapNext_id (a : Answer) : mapNext id a = a := by
  cases a <;> rfl

/-! #### The two engines (R264) -/

/-- The state with another engine A. -/
abbrev State.withEngA (a : EngineA) (s : State) : State := { s with engA := a }

/-- The state with another engine B. -/
abbrev State.withEngB (b : EngineB) (s : State) : State := { s with engB := b }

/-- A command of engine A tests, reads and writes nothing of engine B. -/
theorem exec_withEngB {i : Instr} (onA : i.onEngineA = true) (s : State) (b : EngineB) :
    exec i (s.withEngB b) = mapNext (State.withEngB b) (exec i s) := by
  rw [← mapNext_id (exec i (s.withEngB b))]
  cases i with
  | aEncrypt inPlace | aDecrypt inPlace =>
    cases inPlace <;> exact exec_mapNext_congr rfl rfl (fun _ => rfl) rfl
  | aConstruct | aSetKey | aGetBlockSize | aGetIvSize | aGetKeySize | aDestroy =>
    exact exec_mapNext_congr rfl rfl (fun _ => rfl) rfl
  | _ => simp [Instr.onEngineA, Instr.opcode] at onA

/-- A keystream command reads and writes nothing of engine A, whatever its generator (R166, R168). -/
theorem keystreamEffect_withEngA (n : Nat) (ks : EngineB → Bytes × EngineB) (s : State) (a : EngineA) :
    keystreamEffect n ks (s.withEngA a) = (keystreamEffect n ks s).withEngA a := rfl

/-- A command of engine B tests, reads and writes nothing of engine A. -/
theorem exec_withEngA {i : Instr} (onB : i.onEngineA = false) (s : State) (a : EngineA) :
    exec i (s.withEngA a) = mapNext (State.withEngA a) (exec i s) := by
  rw [← mapNext_id (exec i (s.withEngA a))]
  cases i with
  | bChachaBlock | bChacha4Block =>
    exact exec_mapNext_congr rfl rfl (fun _ => rfl) (congrArg succeed (keystreamEffect_withEngA ..))
  | bConstruct | bSetKey | bInit | bMacUpdate | bEncrypt | bDecrypt | bFinish | bGetIvSize | bGetBlockSize
  | bGetIcvSize | bDestroy => exact exec_mapNext_congr rfl rfl (fun _ => rfl) rfl
  | _ => simp [Instr.onEngineA, Instr.opcode] at onB

/-- Settles O56: `exec_withEngB` and `exec_withEngA`. -/
theorem enginesAreIndependent : Obligations.EnginesAreIndependent := fun _ s =>
  ⟨fun onA b => exec_withEngB onA s b, fun onB a => exec_withEngA onB s a⟩

/-! #### The effects on one engine leave the other -/

theorem effectOf_engA_of_onEngineB {i : Instr} (onB : i.onEngineA = false) (s : State) :
    (effectOf i s).engA = s.engA := by
  cases i with
  | bChachaBlock | bChacha4Block => rw [effectOf, keystreamEffect_frame]
  | bConstruct | bSetKey | bInit | bMacUpdate | bEncrypt | bDecrypt | bFinish | bGetIvSize | bGetBlockSize
  | bGetIcvSize | bDestroy => rfl
  | _ => simp [Instr.onEngineA, Instr.opcode] at onB

theorem effectOf_engB_of_onEngineA {i : Instr} (onA : i.onEngineA = true) (s : State) :
    (effectOf i s).engB = s.engB := by
  cases i with
  | aConstruct | aSetKey | aEncrypt | aDecrypt | aGetBlockSize | aGetIvSize | aGetKeySize | aDestroy => rfl
  | _ => simp [Instr.onEngineA, Instr.opcode] at onA

/-! #### Engine B after each of its effects -/

/-- A keystream command advances the counter (R166, R168). -/
theorem keystreamEffect_engB {ks : EngineB → Bytes × EngineB} {k : Nat} (hk : KeystreamStep ks k) (n : Nat)
    (s : State) :
    (keystreamEffect n ks s).engB = ctrAdd k s.engB := by
  rw [keystreamEffect_frame, hk]

/-- `B_ENCRYPT` and `B_DECRYPT` advance the counter and replace the hash by one that pairs of blocks were absorbed in
(R228, R230). -/
theorem effectOf_crypt_engB {i : Instr} (crypt : i = .bEncrypt ∨ i = .bDecrypt) (s : State) :
    ∃ d, (effectOf i s).engB =
      advanced s.argLen.toNat (macPairs (2 * s.argLen.toNat) d s.engB).h s.engB := by
  have len := length_memRead s (s.srcRange 64)
  rcases crypt with rfl | rfl
  · exact ⟨_, congrArg Prod.snd (encTransform_eq _ _ s.engB len)⟩
  · exact ⟨_, congrArg Prod.snd (decTransform_eq _ _ s.engB len)⟩

/-! #### Which commands write which register (R26, R30 to R39) -/

@[simp] theorem cleared_engA (i : Instr) (s : State) : (s.cleared i).engA = s.engA := by
  unfold State.cleared; split <;> rfl

@[simp] theorem cleared_engB (i : Instr) (s : State) : (s.cleared i).engB = s.engB := by
  unfold State.cleared; split <;> rfl

@[simp] theorem cleared_mem (i : Instr) (s : State) : (s.cleared i).mem = s.mem := by
  unfold State.cleared; split <;> rfl

theorem cleared_of_not_construct {i : Instr} (notFactory : i.isConstruct = false) (s : State) : s.cleared i = s := by
  rw [State.cleared, notFactory]; rfl

/-- `B_ENCRYPT` and `B_DECRYPT` leave the MAC key (R228, R230). -/
theorem effectOf_crypt_mac_key {i : Instr} (crypt : i = .bEncrypt ∨ i = .bDecrypt) (s : State) :
    (effectOf i s).engB.r = s.engB.r ∧ (effectOf i s).engB.u = s.engB.u ∧ (effectOf i s).engB.s = s.engB.s := by
  obtain ⟨d, after⟩ := effectOf_crypt_engB crypt s
  rw [after]
  exact ⟨rfl, rfl, rfl⟩

section
variable {i : Instr} (s : State)

theorem effectOf_result (notFactory : i.isConstruct = false) (notQuery : i.isQuery = false) :
    (effectOf i s).result = s.result := by
  cases i with
  | aConstruct | bConstruct => cases notFactory
  | aGetBlockSize | aGetIvSize | aGetKeySize | bGetIvSize | bGetBlockSize | bGetIcvSize => cases notQuery
  | bChachaBlock | bChacha4Block => rw [effectOf, keystreamEffect_frame]
  | _ => rfl

theorem effectOf_present_variant_A (notWriter : i ∉ [Instr.aConstruct, .aDestroy]) :
    (effectOf i s).engA.present = s.engA.present ∧ (effectOf i s).engA.variant = s.engA.variant := by
  cases i with
  | aConstruct | aDestroy => exact absurd (by decide) notWriter
  | _ => exact ⟨rfl, rfl⟩

/-- The factory writes the flag `a_key_valid` too, which a state of the invariant has 0 already (R262). -/
theorem effectOf_key_A (notWriter : i ∉ [Instr.aSetKey, .aDestroy]) (noKey : i = .aConstruct → s.engA.keyValid = false) :
    (effectOf i s).engA.keyValid = s.engA.keyValid ∧ (effectOf i s).engA.rk = s.engA.rk ∧
      (effectOf i s).engA.nonce = s.engA.nonce := by
  cases i with
  | aSetKey | aDestroy => exact absurd (by decide) notWriter
  | aConstruct => exact ⟨(noKey rfl).symm, rfl, rfl⟩
  | _ => exact ⟨rfl, rfl, rfl⟩

theorem effectOf_cs (notWriter : i ∉ [Instr.aEncrypt false, .aEncrypt true, .aDecrypt false, .aDecrypt true, .aDestroy]) :
    (effectOf i s).engA.cs = s.engA.cs := by
  cases i with
  | aEncrypt inPlace | aDecrypt inPlace => cases inPlace <;> exact absurd (by decide) notWriter
  | aDestroy => exact absurd (by decide) notWriter
  | _ => rfl

theorem effectOf_present_B (notWriter : i ∉ [Instr.bConstruct, .bDestroy]) :
    (effectOf i s).engB.present = s.engB.present := by
  cases i with
  | bConstruct | bDestroy => exact absurd (by decide) notWriter
  | bMacUpdate => exact macUpdate_present ..
  | bEncrypt | bDecrypt => exact (effectOf_crypt_phase_present (by simp) s).2
  | _ => rfl

theorem effectOf_phase_B (notWriter : i ∉ [Instr.bConstruct, .bSetKey, .bInit, .bFinish, .bDestroy]) :
    (effectOf i s).engB.phase = s.engB.phase := by
  cases i with
  | bConstruct | bSetKey | bInit | bFinish | bDestroy => exact absurd (by decide) notWriter
  | bMacUpdate => exact macUpdate_phase ..
  | bEncrypt | bDecrypt => exact (effectOf_crypt_phase_present (by simp) s).1
  | _ => rfl

/-- The factory writes the flag `b_wrap` too, which a state of the invariant has 0 already (R263). -/
theorem effectOf_wrap_m
    (notWriter : i ∉ [Instr.bSetKey, .bInit, .bChachaBlock, .bChacha4Block, .bEncrypt, .bDecrypt, .bDestroy])
    (noWrap : i = .bConstruct → s.engB.wrap = false) :
    (effectOf i s).engB.wrap = s.engB.wrap ∧ (effectOf i s).engB.m = s.engB.m := by
  cases i with
  | bSetKey | bInit | bChachaBlock | bChacha4Block | bEncrypt | bDecrypt | bDestroy =>
    exact absurd (by decide) notWriter
  | bConstruct => exact ⟨(noWrap rfl).symm, rfl⟩
  | bMacUpdate => rw [effectOf, macUpdate_frame]; exact ⟨rfl, rfl⟩
  | _ => exact ⟨rfl, rfl⟩

theorem effectOf_mac_key (notWriter : i ∉ [Instr.bSetKey, .bInit, .bDestroy]) :
    (effectOf i s).engB.r = s.engB.r ∧ (effectOf i s).engB.u = s.engB.u ∧ (effectOf i s).engB.s = s.engB.s := by
  cases i with
  | bSetKey | bInit | bDestroy => exact absurd (by decide) notWriter
  | bMacUpdate => rw [effectOf, macUpdate_frame]; exact ⟨rfl, rfl, rfl⟩
  | bEncrypt | bDecrypt => exact effectOf_crypt_mac_key (by simp) s
  | _ => exact ⟨rfl, rfl, rfl⟩

theorem effectOf_hash (notWriter : i ∉ [Instr.bSetKey, .bInit, .bMacUpdate, .bEncrypt, .bDecrypt, .bDestroy]) :
    (effectOf i s).engB.h = s.engB.h := by
  cases i with
  | bSetKey | bInit | bMacUpdate | bEncrypt | bDecrypt | bDestroy => exact absurd (by decide) notWriter
  | _ => rfl

end

/-- A factory takes its effect on an absent engine A alone (R262). -/
theorem absent_of_passed_A {s : State} (passed : reportedError .aConstruct s = none) : s.engA.present = false :=
  (not_present_of_passed ((reportedError_aConstruct s).symm.trans passed)).1

/-- A factory takes its effect on an absent engine B alone (R263). -/
theorem absent_of_passed_B {s : State} (passed : reportedError .bConstruct s = none) : s.engB.present = false :=
  (not_present_of_passed ((reportedError_bConstruct s).symm.trans passed)).1

/-- Settles O58: a failure writes `LAST`, and a factory's failure `RESULT`; an effect leaves each register of which its
command is no writer, the factories' by what the invariant says of an absent engine. -/
theorem registersHaveTheirWriters : Obligations.RegistersHaveTheirWriters := by
  intro i s t ⟨_, ⟨absentA, _⟩, ⟨absentB, _⟩, _⟩ h
  rcases exec_next_cases h with ⟨e, -, rfl⟩ | ⟨passed, -, rfl⟩
  · refine ⟨fun changed => .inl (by_contra fun notFactory => ?_), by simp [State.failed]⟩
    simp [State.failed, notFactory] at changed
  · have noKey : i = .aConstruct → (s.cleared i).engA.keyValid = false := by
      rintro rfl
      rw [cleared_engA, absentA (absent_of_passed_A passed)]
      rfl
    have noWrap : i = .bConstruct → (s.cleared i).engB.wrap = false := by
      rintro rfl
      rw [cleared_engB, absentB (absent_of_passed_B passed)]
      rfl
    rw [← cleared_engA i s, ← cleared_engB i s]
    refine ⟨fun changed => by_contra fun notWriter => ?_, not_imp_comm.1 fun other => (effectOf_present_variant_A _ other).1,
      not_imp_comm.1 fun other => (effectOf_present_variant_A _ other).2, fun changed => by_contra fun other => ?_,
      not_imp_comm.1 (effectOf_cs _), not_imp_comm.1 (effectOf_present_B _), not_imp_comm.1 (effectOf_phase_B _),
      fun changed => by_contra fun other => ?_, fun changed => by_contra fun other => ?_,
      not_imp_comm.1 (effectOf_hash _)⟩
    · obtain ⟨notFactory, notQuery⟩ := not_or.1 notWriter
      rw [Bool.not_eq_true] at notFactory notQuery
      rw [cleared_of_not_construct notFactory] at changed
      exact changed (effectOf_result s notFactory notQuery)
    · simp [effectOf_key_A _ other noKey] at changed
    · simp [effectOf_wrap_m _ other noWrap] at changed
    · simp [effectOf_mac_key _ other] at changed

end Sys2Proof.Machine

/-! ### What secret state can reach (R42) -/

namespace Sys2Proof.Machine

/-- The part of engine B that is not secret (R42). -/
def EngineB.flags (b : EngineB) : EngineB :=
  { b with m := EngineB.reset.m, r := Limbs.zero, u := Limbs.zero, h := Limbs.zero, s := EngineB.reset.s }

/-- The visible state with buffer memory left out: all that a host can see of the core (R42). -/
def shown (s : State) : State := { visible s with mem := [] }

/-! #### Tests and ranges read no secret -/

/-- The tests of a command read flags and operands alone (R291). -/
theorem reportedError_visible (i : Instr) (s : State) : reportedError i (visible s) = reportedError i s := by
  cases i <;> rfl

/-- The ranges of a command are operands alone (R66). -/
theorem barsOf_visible (i : Instr) (s : State) : barsOf i (visible s) = barsOf i s := by
  cases i <;> rfl

/-- A HostRead reads flags and operands alone (R21, R27, R28). -/
theorem portRead_visible (s : State) (n : Nat) : portRead (visible s) n = portRead s n := by
  rw [portRead_eq, portRead_eq]
  rfl

theorem visible_cleared (i : Instr) (s : State) : visible (s.cleared i) = (visible s).cleared i := by
  unfold State.cleared; split <;> rfl

/-- Two states that look alike run a command alike, as far as `f` shows, when their effects do. -/
theorem exec_mapNext_of_visible {f : State → State} {i : Instr} {s s' : State} (alike : visible s = visible s')
    (onFail : ∀ e, f (s.failed i e) = f (s'.failed i e))
    (onEffect : f (succeed (effectOf i (s.cleared i))) = f (succeed (effectOf i (s'.cleared i)))) :
    mapNext f (exec i s) = mapNext f (exec i s') := by
  refine exec_mapNext_congr ?_ ?_ onFail onEffect
  · rw [← reportedError_visible, alike, reportedError_visible]
  · rw [← barsOf_visible, alike, barsOf_visible]

/-! #### Effects, as far as they can be seen -/

/-- `MacUpdate` writes the hash alone, a secret (R198). -/
theorem macUpdate_flags (n : Nat) (d : Bytes) (b : EngineB) : (macUpdate n d b).flags = b.flags := by
  rw [macUpdate_frame]
  rfl

/-- Row 3 of a new message starts with the counter 0 (R224). -/
@[simp] theorem nonceRow_counter (iv : Bytes) (m : Matrix) : (nonceRow iv m)[12] = 0 := by
  simp [nonceRow]

/-- `B_INIT` starts the data counter at 1, which records no wrap, whatever the key (R224). -/
@[simp] theorem initEngineB_wrap (iv : Bytes) (b : EngineB) : (initEngineB iv b).wrap = false := by
  show (false || counterWraps (nonceRow iv b.m)[12] 1) = false
  rw [nonceRow_counter]
  rfl

/-- The flags after `B_INIT` (R224). -/
theorem initEngineB_flags (iv : Bytes) (b : EngineB) :
    (initEngineB iv b).flags = { b.flags with phase := .active, wrap := false } := by
  rw [← initEngineB_wrap iv b]
  rfl

/-- Either in-place transform shows what an advance of the counter shows; the hash is secret (R229). -/
theorem effectOf_crypt_flags {i : Instr} (crypt : i = .bEncrypt ∨ i = .bDecrypt) (s : State) :
    (effectOf i s).engB.flags = (ctrAdd s.argLen.toNat s.engB).flags := by
  obtain ⟨d, after⟩ := effectOf_crypt_engB crypt s
  rw [after]
  rfl

/-- What is seen of a command that writes no buffer memory does not depend on secrets. -/
theorem visible_effectOf {i : Instr} (keeps : i.writesMemory = false) (s : State) :
    visible (effectOf i s) = visible (effectOf i (visible s)) := by
  cases i with
  | aEncrypt inPlace | aDecrypt inPlace => cases inPlace <;> simp [Instr.writesMemory] at keeps
  | bChachaBlock | bChacha4Block | bEncrypt | bDecrypt | bFinish => simp [Instr.writesMemory] at keeps
  | bInit =>
    have flags := fun b => initEngineB_flags (memRead s (s.auxRange Config.aeadIvLen)) b
    exact congrArg (fun b => { visible s with engB := b }) ((flags s.engB).trans (flags s.engB.flags).symm)
  | bMacUpdate =>
    have flags := fun b => macUpdate_flags s.argLen.toNat (memRead s (s.srcRange 16)) b
    exact congrArg (fun b => { visible s with engB := b }) ((flags s.engB).trans (flags s.engB.flags).symm)
  | _ => rfl

/-- The keystream blocks a command takes. -/
def blocksTaken (i : Instr) (s : State) : Nat :=
  match i with
  | .bChachaBlock => 1
  | .bChacha4Block => 4
  | .bEncrypt | .bDecrypt => s.argLen.toNat
  | _ => 0

/-- A command that writes buffer memory shows the counter's wrap and, for `B_FINISH`, the phase; all else it writes is
secret or in memory. -/
theorem shown_effectOf {i : Instr} (writes : i.writesMemory = true) (s : State) :
    shown (effectOf i s) =
      { visible s with
        mem := []
        engB := { (visible s).engB with
          wrap := (visible s).engB.wrap || counterWraps s.engB.m[12] (blocksTaken i (visible s))
          phase := if i = .bFinish then .finished else (visible s).engB.phase } } := by
  have noBlock : (s.engB.wrap || counterWraps s.engB.m[12] 0) = s.engB.wrap := by
    have := s.engB.m[12].isLt
    simp [counterWraps]
    omega
  cases i with
  | aEncrypt | aDecrypt => exact congrArg (fun w => { shown s with engB := { s.engB.flags with wrap := w } }) noBlock.symm
  | bFinish =>
    exact congrArg (fun w => { shown s with engB := { s.engB.flags with wrap := w, phase := .finished } }) noBlock.symm
  | bChachaBlock =>
    exact congrArg (fun b => { shown s with engB := b.flags }) (keystreamEffect_engB keystreamStep_one 64 s)
  | bChacha4Block =>
    exact congrArg (fun b => { shown s with engB := b.flags }) (keystreamEffect_engB keystreamStep_four 256 s)
  | bEncrypt => exact congrArg (fun b => { shown s with engB := b }) (effectOf_crypt_flags (.inl rfl) s)
  | bDecrypt => exact congrArg (fun b => { shown s with engB := b }) (effectOf_crypt_flags (.inr rfl) s)
  | _ => simp [Instr.writesMemory] at writes

/-- Settles O60: host reads, tests and ranges read no secret; the effects that write no buffer memory show none
(`visible_effectOf`), and the others show the wrap of the counter alone (`shown_effectOf`). -/
theorem secretsStayInside : Obligations.SecretsStayInside := by
  intro s s' alike
  have cleared : ∀ i, visible (s.cleared i) = visible (s'.cleared i) := fun i => by
    rw [visible_cleared, alike, visible_cleared]
  have keeping : ∀ i : Instr, i.writesMemory = false →
      visible (effectOf i (s.cleared i)) = visible (effectOf i (s'.cleared i)) := fun i keeps => by
    rw [visible_effectOf keeps, cleared, ← visible_effectOf keeps]
  refine ⟨fun n => ?_, fun i keeps => ?_, fun counter i => ?_⟩
  · rw [← portRead_visible, alike, portRead_visible]
  · exact exec_mapNext_of_visible alike (fun e => congrArg (State.failed i e) alike) (congrArg succeed (keeping i keeps))
  · have effect : shown (effectOf i (s.cleared i)) = shown (effectOf i (s'.cleared i)) := by
      cases writes : i.writesMemory with
      | false => exact congrArg (fun t => { t with mem := [] }) (keeping i writes)
      | true => rw [shown_effectOf writes, shown_effectOf writes, cleared, cleared_engB, cleared_engB, counter]
    exact exec_mapNext_of_visible (f := shown) alike
      (fun e => congrArg (fun t => { State.failed i e t with mem := [] }) alike) (congrArg succeed effect)

end Sys2Proof.Machine

/-! ### The MAC accumulator (R190 to R202) -/

namespace Sys2Proof.Machine

/-! #### Block values and the MAC key -/

/-- Settles O34: a block's number has 128 bits, so the implicit bit reaches limb 4 alone. -/
theorem blockValueLimbs : Obligations.BlockValueLimbs := by
  intro b hb
  have lt : leNat b < 2 ^ 128 := by
    have h := leNat_lt b
    rw [hb] at h
    exact h
  simp only [blockVal, Limbs.ofVal, BitVec.toNat_ofNat]
  refine ⟨by omega, by omega, Limbs.val_ofVal (by omega), ?_, ?_, ?_, ?_, ?_⟩ <;> omega

/-- The number of a clamped MAC key fits the limbs and is below P (R193). -/
theorem and_clamp_lt_prime (x : Nat) : x &&& Config.clamp < Config.prime :=
  (and_clamp_lt x).trans (by decide)

@[simp] theorem macInit_r_val (k : Bytes) (b : EngineB) :
    (macInit k b).r.val = leNat (slice k 0 16) &&& Config.clamp :=
  Limbs.val_ofVal ((and_clamp_lt _).trans (by decide))

@[simp] theorem macInit_u_val (k : Bytes) (b : EngineB) :
    (macInit k b).u.val = (macInit k b).r.val * (macInit k b).r.val % Config.prime := by
  rw [macInit_r_val]
  exact Limbs.val_ofVal ((mod_prime_lt _).trans (by decide))

theorem macInit_r_canonical (k : Bytes) (b : EngineB) : (macInit k b).r.canonical = true :=
  Limbs.canonical_ofVal (and_clamp_lt_prime _)

theorem macInit_u_canonical (k : Bytes) (b : EngineB) : (macInit k b).u.canonical = true :=
  Limbs.canonical_ofVal (mod_prime_lt _)

/-- The mask is the second half of the 32 bytes (R193). -/
theorem macInit_maskVal {k : Bytes} (hk : k.length = 32) (b : EngineB) :
    maskVal (macInit k b).s = leNat (slice k 16 16) :=
  maskVal_wordAt (by rw [length_slice, hk]; rfl)

/-- Settles O35: r, u and s field by field. -/
theorem macInitDerivesTheKey : Obligations.MacInitDerivesTheKey := by
  intro k b hk
  refine ⟨macInit_r_val k b, and_clamp_lt _, ?_, rfl, macInit_maskVal hk b, macInit_r_canonical k b,
    macInit_u_canonical k b, rfl⟩
  rw [macInit_u_val, macInit_r_val]
  rfl

/-! #### Single blocks (R195, R197) -/

/-- n blocks absorbed singly, one after another: the form R197 compares the pairs with. -/
def macSingles : Nat → Bytes → EngineB → EngineB
  | 0, _, b => b
  | n + 1, d, b => macSingles n (d.drop 16) (absorbOne (d.take 16) b)

/-- u is the square of r (R37). -/
abbrev EngineB.Square (b : EngineB) : Prop := b.u.val = b.r.val * b.r.val % Config.prime

/-- A later hash replaces an earlier one. -/
@[simp] theorem setHash_setHash (v w : Nat) (b : EngineB) : setHash v (setHash w b) = setHash v b := rfl

/-- Absorbing two blocks singly, written out: r is multiplied in twice, as u is once (R197). -/
theorem absorbPair_eq {b : EngineB} (square : b.Square) (b0 b1 : Bytes) :
    absorbPair b0 b1 b = absorbOne b1 (absorbOne b0 b) := by
  simp only [absorbOne, absorbPair, setHash_setHash, setHash_val, setHash_r]
  refine setHash_congr b ?_
  have once : b.u.val ≡ b.r.val * b.r.val [MOD Config.prime] := by
    rw [square]
    exact Nat.mod_modEq _ _
  calc (b.h.val + blockVal b0) * b.u.val + blockVal b1 * b.r.val
      ≡ (b.h.val + blockVal b0) * (b.r.val * b.r.val) + blockVal b1 * b.r.val [MOD Config.prime] :=
        (once.mul_left _).add_right _
    _ = ((b.h.val + blockVal b0) * b.r.val + blockVal b1) * b.r.val := by ring
    _ ≡ ((b.h.val + blockVal b0) * b.r.val % Config.prime + blockVal b1) * b.r.val [MOD Config.prime] :=
        ((Nat.mod_modEq _ _).symm.add_right _).mul_right _

/-- Single blocks cut in two. -/
theorem macSingles_add (n k : Nat) (d : Bytes) (b : EngineB) :
    macSingles (n + k) d b = macSingles k (d.drop (16 * n)) (macSingles n d b) := by
  induction n generalizing d b with
  | zero => simp [macSingles]
  | succ n ih =>
    rw [show n + 1 + k = (n + k) + 1 by omega, macSingles, macSingles, ih, List.drop_drop]
    congr 2
    omega

/-- One more block, absorbed last. -/
theorem macSingles_succ (n : Nat) (d : Bytes) (b : EngineB) :
    macSingles (n + 1) d b = absorbOne (slice d (16 * n) 16) (macSingles n d b) :=
  macSingles_add n 1 d b

/-- n pairs are 2n single blocks (R197). -/
theorem macPairs_eq_macSingles {b : EngineB} (square : b.Square) (n : Nat) (d : Bytes) :
    macPairs n d b = macSingles (2 * n) d b := by
  induction n generalizing d b with
  | zero => rfl
  | succ n ih =>
    rw [macPairs, ih (b := absorbPair _ _ b) square, absorbPair_eq square,
      show 2 * (n + 1) = 2 * n + 1 + 1 by omega, macSingles, macSingles, List.drop_drop]
    rfl

/-- `MacUpdate` absorbs its blocks as if singly (R197, R198). -/
theorem macUpdate_eq_macSingles {b : EngineB} (square : b.Square) (n : Nat) (d : Bytes) :
    macUpdate n d b = macSingles n d b := by
  obtain ⟨a, rfl | rfl⟩ := Nat.even_or_odd' n
  · rw [macUpdate_even, macPairs_eq_macSingles square]
  · rw [macUpdate_odd, macPairs_eq_macSingles square, macSingles_succ, show 16 * (2 * a) = 32 * a by omega]

/-- `MacUpdate` leaves the key and its square (R198). -/
theorem macUpdate_square {b : EngineB} (square : b.Square) (n : Nat) (d : Bytes) : (macUpdate n d b).Square := by
  rw [macUpdate_frame]
  exact square

/-- Settles O36: a pair is two single blocks (`absorbPair_eq`), so `MacUpdate` is a run of single blocks
(`macUpdate_eq_macSingles`), which may be cut anywhere. -/
theorem pairLaw : Obligations.PairLaw := by
  intro b square
  refine ⟨absorbPair_eq square, fun n k d => ?_⟩
  rw [macUpdate_eq_macSingles (macUpdate_square square n d), macUpdate_eq_macSingles square,
    macUpdate_eq_macSingles square, macSingles_add]

/-! #### The closed form (R198) -/

/-- One more block in the closed form: it and the hash before are multiplied by r. -/
theorem hashAfter_succ (h r : Nat) (d : Bytes) (n : Nat) :
    hashAfter h r d (n + 1) = (hashAfter h r d n + blockVal (slice d (16 * n) 16)) * r % Config.prime := by
  have powers : ∀ j ∈ List.range n, blockVal (slice d (16 * j) 16) * r ^ (n + 1 - j) =
      blockVal (slice d (16 * j) 16) * r ^ (n - j) * r := fun j hj => by
    rw [show n + 1 - j = (n - j) + 1 by have := List.mem_range.1 hj; omega, Nat.pow_succ, Nat.mul_assoc]
  have last : n + 1 - n = 1 := by omega
  rw [hashAfter, List.range_succ, List.map_append, List.sum_append, List.map_congr_left powers, List.sum_map_mul_right,
    List.map_singleton, List.sum_singleton, last, pow_one, hashAfter]
  generalize (List.map (fun j => blockVal (slice d (16 * j) 16) * r ^ (n - j)) (List.range n)).sum = before
  calc h * r ^ (n + 1) + (before * r + blockVal (slice d (16 * n) 16) * r)
      = (h * r ^ n + before + blockVal (slice d (16 * n) 16)) * r := by ring
    _ ≡ ((h * r ^ n + before) % Config.prime + blockVal (slice d (16 * n) 16)) * r [MOD Config.prime] :=
        ((Nat.mod_modEq _ _).symm.add_right _).mul_right _

/-- The closed form is a residue modulo P. -/
theorem hashAfter_lt (h r : Nat) (d : Bytes) (n : Nat) : hashAfter h r d n < Config.prime := mod_prime_lt _

/-- n single blocks leave the closed form in canonical limbs (R198). -/
theorem macSingles_eq_hashAfter {b : EngineB} (canonical : b.h.canonical = true) (n : Nat) (d : Bytes) :
    macSingles n d b = { b with h := Limbs.ofVal (hashAfter b.h.val b.r.val d n) } := by
  induction n with
  | zero =>
    have start : hashAfter b.h.val b.r.val d 0 = b.h.val := by
      simpa [hashAfter] using Nat.mod_eq_of_lt (Limbs.val_lt_prime canonical)
    rw [start, Limbs.ofVal_val canonical]
    rfl
  | succ n ih =>
    have val := Limbs.val_ofVal ((hashAfter_lt b.h.val b.r.val d n).trans (by decide))
    rw [macSingles_succ, ih, hashAfter_succ, absorbOne, val]
    rfl

/-- Settles O37: `MacUpdate` is a run of single blocks, whose hash is the closed form (`macSingles_eq_hashAfter`). -/
theorem macUpdateClosedForm : Obligations.MacUpdateClosedForm := by
  intro b n d ⟨_, ⟨_, _, canonical⟩, square, _⟩
  rw [macUpdate_eq_macSingles square, macSingles_eq_hashAfter canonical]
  exact ⟨rfl, Limbs.val_ofVal ((hashAfter_lt _ _ _ _).trans (by decide))⟩

/-- In the phase `ACTIVE` the checks of the commands that need it pass (R221). -/
theorem firstError_requireActiveB_of_active {s : State} (present : s.engB.present = true)
    (active : s.engB.phase = .active) : firstError (requireActiveB s) = none := by
  rw [firstError_requireActiveB present, if_pos active]

/-- Settles O38: the checks and the range pass, and the effect is the closed form over the bytes read. -/
theorem macUpdateCommand : Obligations.MacUpdateCommand := by
  intro s inv present active fit
  rw [exec_of_checks (i := .bMacUpdate) rfl (firstError_requireActiveB_of_active present active) (firstBar_mustFit fit), effectOf,
    (macUpdateClosedForm s.engB _ _ inv).1]
  rfl

end Sys2Proof.Machine

/-! ### The limb-level finish (R202) -/

namespace Sys2Proof.Machine

/-! #### Words as numbers -/

theorem toNat_shiftRight_26 (x : Word) : (x >>> 26).toNat = x.toNat / 2 ^ 26 := by
  rw [BitVec.toNat_ushiftRight, Nat.shiftRight_eq_div_pow]

theorem toNat_and_limbMask (x : Word) : (x &&& limbMask).toNat = x.toNat % 2 ^ 26 := by
  rw [BitVec.toNat_and]
  exact Nat.and_two_pow_sub_one_eq_mod x.toNat 26

/-! #### Carries -/

/-- Each limb's carry added to the next, no limb masked yet. -/
def carryChain (x : Limbs) : Limbs :=
  let l1 := x.l1 + (x.l0 >>> 26)
  let l2 := x.l2 + (l1 >>> 26)
  let l3 := x.l3 + (l2 >>> 26)
  { l0 := x.l0, l1 := l1, l2 := l2, l3 := l3, l4 := x.l4 + (l3 >>> 26) }

/-- The limbs masked and the carry out of limb 4 brought back at limb 0 as five times itself. -/
def foldTop (x : Limbs) : Limbs :=
  { l0 := (x.l0 &&& limbMask) + timesFive (x.l4 >>> 26)
    l1 := x.l1 &&& limbMask, l2 := x.l2 &&& limbMask, l3 := x.l3 &&& limbMask, l4 := x.l4 &&& limbMask }

/-- The carry of limb 0 alone. -/
def carryLow (x : Limbs) : Limbs := { x with l0 := x.l0 &&& limbMask, l1 := x.l1 + (x.l0 >>> 26) }

/-- The first stage of the finish is the carry chain and the fold, twice, and limb 0's carry (R202). -/
theorem propagate_eq (h : Limbs) :
    propagate h = carryLow (foldTop (carryChain (foldTop (carryChain h)))) := rfl

/-- Every limb is at most 2^30: then no sum of a carry leaves 32 bits. -/
structure Limbs.Small (x : Limbs) : Prop where
  l0 : x.l0.toNat ≤ 2 ^ 30
  l1 : x.l1.toNat ≤ 2 ^ 30
  l2 : x.l2.toNat ≤ 2 ^ 30
  l3 : x.l3.toNat ≤ 2 ^ 30
  l4 : x.l4.toNat ≤ 2 ^ 30

/-- A carry added to a limb, as numbers. -/
theorem toNat_add_carry {x y : Word} (hx : x.toNat ≤ 2 ^ 30) : (x + (y >>> 26)).toNat = x.toNat + y.toNat / 2 ^ 26 := by
  have hy := y.isLt
  rw [BitVec.toNat_add, toNat_shiftRight_26, Nat.mod_eq_of_lt (by omega)]

/-- The carry chain moves every carry up: the low 26 bits of limbs 0 to 3 and the whole of limb 4 hold the value (R40). -/
theorem carryChain_val {x : Limbs} (small : x.Small) :
    (carryChain x).l0.toNat % 2 ^ 26 + 2 ^ 26 * ((carryChain x).l1.toNat % 2 ^ 26) +
      2 ^ 52 * ((carryChain x).l2.toNat % 2 ^ 26) + 2 ^ 78 * ((carryChain x).l3.toNat % 2 ^ 26) +
      2 ^ 104 * (carryChain x).l4.toNat = x.val := by
  obtain ⟨-, h1, h2, h3, h4⟩ := small
  simp only [carryChain, toNat_add_carry h1, toNat_add_carry h2, toNat_add_carry h3, toNat_add_carry h4, Limbs.val]
  omega

/-- The carry out of limb 4 is small. -/
theorem carryChain_top {x : Limbs} (small : x.Small) : (carryChain x).l4.toNat / 2 ^ 26 ≤ 17 := by
  obtain ⟨-, h1, h2, h3, h4⟩ := small
  have := x.l0.isLt
  simp only [carryChain, toNat_add_carry h1, toNat_add_carry h2, toNat_add_carry h3, toNat_add_carry h4]
  omega

/-- A carry pass takes a multiple q of P off the value and leaves limbs of 26 bits, but for 5q in limb 0 (R202). -/
theorem foldTop_carryChain {x : Limbs} (small : x.Small) :
    ∃ q, (foldTop (carryChain x)).val + q * Config.prime = x.val ∧
      (foldTop (carryChain x)).l0.toNat < 2 ^ 26 + 5 * q ∧ (foldTop (carryChain x)).l1.toNat < 2 ^ 26 ∧
      (foldTop (carryChain x)).l2.toNat < 2 ^ 26 ∧ (foldTop (carryChain x)).l3.toNat < 2 ^ 26 ∧
      (foldTop (carryChain x)).l4.toNat < 2 ^ 26 := by
  have val := carryChain_val small
  have top := carryChain_top small
  generalize carryChain x = c at val top
  have l0 : (foldTop c).l0.toNat = c.l0.toNat % 2 ^ 26 + 5 * (c.l4.toNat / 2 ^ 26) := by
    have five : (timesFive (c.l4 >>> 26)).toNat = 5 * (c.l4.toNat / 2 ^ 26) := by
      rw [timesFive, BitVec.toNat_mul, toNat_shiftRight_26]
      exact Nat.mod_eq_of_lt (by show 5 * _ < _; omega)
    rw [foldTop, BitVec.toNat_add, toNat_and_limbMask, five, Nat.mod_eq_of_lt (by omega)]
  refine ⟨c.l4.toNat / 2 ^ 26, ?_⟩
  simp only [Limbs.val, l0] at val ⊢
  simp only [foldTop, toNat_and_limbMask, Config.prime]
  omega

/-- Limbs of 26 bits, but for limb 1, which may be one more: what the first stage leaves (R202). -/
structure Limbs.Carried (x : Limbs) : Prop where
  l0 : x.l0.toNat < 2 ^ 26
  l1 : x.l1.toNat ≤ 2 ^ 26
  l2 : x.l2.toNat < 2 ^ 26
  l3 : x.l3.toNat < 2 ^ 26
  l4 : x.l4.toNat < 2 ^ 26

/-- The first stage keeps the value modulo P and leaves limbs of 26 bits (R202). -/
theorem propagate_spec {h : Limbs} (small : h.Small) :
    (propagate h).Carried ∧ (propagate h).val % Config.prime = h.val % Config.prime := by
  obtain ⟨q, hval, h0, h1, h2, h3, h4⟩ := foldTop_carryChain small
  rw [propagate_eq]
  generalize foldTop (carryChain h) = y at hval h0 h1 h2 h3 h4
  have hq : q ≤ 17 := by
    obtain ⟨s0, s1, s2, s3, s4⟩ := small
    simp only [Limbs.val, Config.prime] at hval
    omega
  obtain ⟨p, yval, y0, y1, y2, y3, y4⟩ := foldTop_carryChain (x := y) ⟨by omega, by omega, by omega, by omega, by omega⟩
  generalize foldTop (carryChain y) = z at yval y0 y1 y2 y3 y4
  have hp : p ≤ 1 := by
    simp only [Limbs.val, Config.prime] at yval
    omega
  have z0 : (carryLow z).l0.toNat = z.l0.toNat % 2 ^ 26 := toNat_and_limbMask z.l0
  have z1 : (carryLow z).l1.toNat = z.l1.toNat + z.l0.toNat / 2 ^ 26 := toNat_add_carry (by omega)
  refine ⟨⟨by omega, by omega, y2, y3, y4⟩, ?_⟩
  have low : (carryLow z).val = z.val := by
    simp only [Limbs.val, z0, z1]
    simp only [carryLow]
    omega
  rw [low, ← hval, ← yval, Nat.add_mul_mod_self_right, Nat.add_mul_mod_self_right]

/-! #### Reduction (R202) -/

/-- The second stage is a carry pass of h + 5, less 2^130. -/
theorem lessPrime_eq (h : Limbs) :
    lessPrime h =
      { l0 := (carryChain { h with l0 := h.l0 + 5 }).l0 &&& limbMask
        l1 := (carryChain { h with l0 := h.l0 + 5 }).l1 &&& limbMask
        l2 := (carryChain { h with l0 := h.l0 + 5 }).l2 &&& limbMask
        l3 := (carryChain { h with l0 := h.l0 + 5 }).l3 &&& limbMask
        l4 := (carryChain { h with l0 := h.l0 + 5 }).l4 - 0x4000000 } := rfl

/-- The select takes g where the sign bit of its limb 4 is 0. -/
theorem selectReduced_eq (h g : Limbs) : selectReduced h g = if g.l4.toNat < 2 ^ 31 then g else h := by
  have sign : (g.l4 >>> 31).toNat = g.l4.toNat / 2 ^ 31 := by
    rw [BitVec.toNat_ushiftRight, Nat.shiftRight_eq_div_pow]
  have lt := g.l4.isLt
  split
  · next pos =>
    have mask : g.l4 >>> 31 - 1 = BitVec.allOnes 32 := by
      have zero : g.l4 >>> 31 = 0 := BitVec.eq_of_toNat_eq (by rw [sign]; simp; omega)
      rw [zero]
      decide
    simp only [selectReduced, mask, BitVec.not_allOnes, BitVec.and_zero, BitVec.zero_or, BitVec.and_allOnes]
  · next neg =>
    have mask : g.l4 >>> 31 - 1 = 0#32 := by
      have one : g.l4 >>> 31 = 1 := BitVec.eq_of_toNat_eq (by rw [sign]; simp; omega)
      rw [one]
      decide
    simp only [selectReduced, mask, BitVec.not_zero, BitVec.and_zero, BitVec.or_zero, BitVec.and_allOnes]

/-- The second and third stage take P off a value of P or more (R202). -/
theorem selectReduced_val {x : Limbs} (carried : x.Carried) :
    (selectReduced x (lessPrime x)).val = x.val % Config.prime := by
  obtain ⟨h0, h1, h2, h3, h4⟩ := carried
  have plus5 : (x.l0 + 5).toNat = x.l0.toNat + 5 := by
    rw [BitVec.toNat_add]
    exact Nat.mod_eq_of_lt (by show _ + 5 < _; omega)
  have val := carryChain_val (x := { x with l0 := x.l0 + 5 })
    ⟨plus5.trans_le (by omega), h1.trans (by decide), h2.le.trans (by decide), h3.le.trans (by decide),
      h4.le.trans (by decide)⟩
  have twice : x.val < 2 * Config.prime := by
    simp only [Limbs.val, Config.prime]
    omega
  rw [selectReduced_eq, lessPrime_eq]
  generalize carryChain { x with l0 := x.l0 + 5 } = c at val
  have sum : c.l0.toNat % 2 ^ 26 + 2 ^ 26 * (c.l1.toNat % 2 ^ 26) + 2 ^ 52 * (c.l2.toNat % 2 ^ 26) +
      2 ^ 78 * (c.l3.toNat % 2 ^ 26) + 2 ^ 104 * c.l4.toNat = x.val + 5 := by
    rw [val]
    simp only [Limbs.val, plus5]
    omega
  have top : (c.l4 - 0x4000000).toNat = (c.l4.toNat + (2 ^ 32 - 2 ^ 26)) % 2 ^ 32 := by
    rw [BitVec.toNat_sub, Nat.add_comm]
    rfl
  simp only [top]
  have small : c.l4.toNat ≤ 2 ^ 27 := by
    simp only [Config.prime] at twice
    omega
  split
  · next above =>
    have reached : 2 ^ 26 ≤ c.l4.toNat := by omega
    rw [Nat.mod_eq_sub_mod (by simp only [Config.prime]; omega), Nat.mod_eq_of_lt (by omega), Limbs.val]
    simp only [toNat_and_limbMask, top, Config.prime]
    omega
  · next below =>
    exact (Nat.mod_eq_of_lt (by simp only [Config.prime]; omega)).symm

/-- Settles O39: the first stage keeps the value modulo P (`propagate_spec`), the next two reduce it
(`selectReduced_val`), and the last is the tag by value. -/
theorem limbFinishEqualsValueFinish : Obligations.LimbFinishEqualsValueFinish := by
  intro h s h0 h1 h2 h3 h4
  obtain ⟨carried, val⟩ := propagate_spec ⟨h0.le, h1.le, h2.le, h3.le, h4.le⟩
  rw [macFinishLimbs, selectReduced_val carried, val]

end Sys2Proof.Machine

/-! ### The keystream generator (R161 to R170) -/

namespace Sys2Proof.Machine

/-! #### The quarter-round (R161) -/

/-- Two lines of the quarter-round, half of it. -/
def halfRound (a b c d : Fin 16) (n k : Nat) (x : Matrix) : Matrix := arx c d b k (arx a b d n x)

/-- Half a quarter-round on four different words: each line writes two words and leaves the two of the other. -/
theorem halfRound_words {a b c d : Fin 16} (hab : a ≠ b) (hac : a ≠ c) (had : a ≠ d) (hbc : b ≠ c) (hbd : b ≠ d)
    (hcd : c ≠ d) {n k : Nat} (hn : 0 < n ∧ n < 32) (hk : 0 < k ∧ k < 32) (x : Matrix) :
    let a1 := x[a] + x[b]
    let d1 := (x[d] ^^^ a1).rotateLeft n
    let c1 := x[c] + d1
    (halfRound a b c d n k x)[a] = a1 ∧ (halfRound a b c d n k x)[d] = d1 ∧ (halfRound a b c d n k x)[c] = c1 ∧
      (halfRound a b c d n k x)[b] = (x[b] ^^^ c1).rotateLeft k := by
  have firstA := arx_sum n x had (b := b)
  have firstD := arx_rot n x had (b := b)
  have firstB := arx_other n x hab.symm hbd (b := b)
  have firstC := arx_other n x hac.symm hcd (b := b)
  rw [rotl32_eq_rotateLeft _ hn.1 hn.2] at firstD
  simp only [halfRound]
  refine ⟨?_, ?_, ?_, ?_⟩
  · rw [arx_other _ _ hac hab, firstA]
  · rw [arx_other _ _ hcd.symm hbd.symm, firstD]
  · rw [arx_sum _ _ hbc.symm, firstC, firstD]
  · rw [arx_rot _ _ hbc.symm, firstB, firstC, firstD, rotl32_eq_rotateLeft _ hk.1 hk.2]

/-- Half a quarter-round leaves every other word. -/
theorem halfRound_other {a b c d j : Fin 16} (ha : j ≠ a) (hb : j ≠ b) (hc : j ≠ c) (hd : j ≠ d) (n k : Nat) (x : Matrix) :
    (halfRound a b c d n k x)[j] = x[j] := by
  rw [halfRound, arx_other _ _ hc hb, arx_other _ _ ha hd]

/-- Settles O29: the quarter-round is two halves, each followed word by word (`halfRound_words`, `halfRound_other`). -/
theorem quarterRoundWords : Obligations.QuarterRoundWords := by
  intro x a b c d hab hac had hbc hbd hcd
  have halves : quarterRound a b c d x = halfRound a b c d 8 7 (halfRound a b c d 16 12 x) := rfl
  obtain ⟨a1, d1, c1, b1⟩ := halfRound_words hab hac had hbc hbd hcd (n := 16) (k := 12) (by decide) (by decide) x
  obtain ⟨a2, d2, c2, b2⟩ := halfRound_words hab hac had hbc hbd hcd (n := 8) (k := 7) (by decide) (by decide)
    (halfRound a b c d 16 12 x)
  rw [a1, b1, c1, d1] at b2
  rw [a1, b1, c1, d1] at c2
  rw [a1, b1, d1] at d2
  rw [a1, b1] at a2
  simp only [halves]
  exact ⟨a2, b2, c2, d2, fun k ka kb kc kd => by
    rw [halfRound_other ka kb kc kd, halfRound_other ka kb kc kd]⟩

/-- Settles O30: the ten double-rounds of the example's matrix, evaluated. -/
theorem keystreamKnownAnswer : Obligations.KeystreamKnownAnswer := by
  unfold Obligations.KeystreamKnownAnswer
  decide +kernel

/-! #### The block counter (R169) -/

/-- Settles O31: the new counter as a number, and the flag as a choice. -/
theorem counterAddRecordsTheWrap : Obligations.CounterAddRecordsTheWrap := by
  intro b k _
  have counter : add32 b.m[12] (BitVec.ofNat 32 k) = BitVec.ofNat 32 ((b.m[12].toNat + k) % 2 ^ 32) := by
    apply BitVec.eq_of_toNat_eq
    simp [add32]
  have flag : (b.wrap || counterWraps b.m[12] k) = if 2 ^ 32 ≤ b.m[12].toNat + k then true else b.wrap := by
    rw [counterWraps]
    split
    · next wraps => rw [decide_eq_true wraps, Bool.or_true]
    · next stays => rw [decide_eq_false stays, Bool.or_false]
  rw [ctrAdd, counter, flag]
  rfl

/-- Settles O32: four singles are a run of four blocks, which the four-block path is (`ksBlock4_eq`), and four advances by
one are one by four (`ctrAdd_ctrAdd`). -/
theorem fourBlocksEqualFourSingles : Obligations.FourBlocksEqualFourSingles := by
  intro b
  simp only [ksBlock4_eq, ksBlock_eq, ctrAdd_ctrAdd, ksRun_ctrAdd]
  rw [ksRun_add b.m 0 3 1, ksRun_add b.m 0 2 1, ksRun_add b.m 0 1 1]

/-! #### The keystream commands (R166, R168) -/

/-- `CtrAdd` is the advance of the closed forms (R229). -/
theorem ctrAdd_eq_afterBlocks (k : Nat) (b : EngineB) : ctrAdd k b = afterBlocks k b := rfl

/-- A run from the present counter, byte by byte (R229). -/
theorem getD_ksRun_zero (m : Matrix) {n j : Nat} (hj : j < 64 * n) : (ksRun m 0 n).getD j 0 = ksByte m j := by
  rw [getD_ksRun m 0 n j hj, Nat.zero_add]
  rfl

/-- XOR of two sequences of one length, byte by byte. -/
theorem getElem_xorBytes_getD {x y : Bytes} {j : Nat} (h : j < (xorBytes x y).length) :
    (xorBytes x y)[j] = x.getD j 0 ^^^ y.getD j 0 := by
  have hx : j < x.length := by simp at h; omega
  have hy : j < y.length := by simp at h; omega
  rw [getElem_xorBytes, List.getD_eq_getElem _ _ hx, List.getD_eq_getElem _ _ hy]

/-- A byte of `MemRead`, with no bound in its form. -/
theorem Memory.getD_readBytes (m : Memory) {a n j : Nat} (hj : j < n) : (m.readBytes a n).getD j 0 = m.read (a + j) := by
  rw [List.getD_eq_getElem _ _ (by simpa using hj), Memory.getElem_readBytes]

/-- A range of memory XORed with a key sequence at least as long and written: its bytes, and every other byte (R51). -/
theorem Memory.read_writeBytes_xor {m : Memory} (wf : m.wf = true) {src out n : Nat} {k : Bytes} (hk : n ≤ k.length) :
    (∀ j, j < n → (m.writeBytes out (xorBytes (m.readBytes src n) k)).read (out + j) =
      m.read (src + j) ^^^ k.getD j 0) ∧
    ∀ a, a < out ∨ out + n ≤ a → (m.writeBytes out (xorBytes (m.readBytes src n) k)).read a = m.read a := by
  have len : (xorBytes (m.readBytes src n) k).length = n := by simp [hk]
  refine ⟨fun j hj => ?_, fun a outside => Memory.read_writeBytes_outside m (by omega)⟩
  rw [Memory.read_writeBytes_inside (Memory.wf_iff.1 wf).1 (by omega), getElem_xorBytes_getD,
    Memory.getD_readBytes m hj]

/-- In the phases `ACTIVE` and `FINISHED` the checks of the keystream commands pass (R165). -/
theorem firstError_requireMatrixB_of_phase {s : State} (present : s.engB.present = true)
    (phase : s.engB.phase = .active ∨ s.engB.phase = .finished) : firstError (requireMatrixB s) = none := by
  rw [firstError_requireMatrixB present, if_pos phase]

/-- A keystream command of k blocks: engine, bytes and frame. -/
theorem keystreamEffect_spec {ks : EngineB → Bytes × EngineB} {k : Nat} (hk : KeystreamStep ks k) {s : State}
    (wf : s.mem.wf = true) :
    let t := keystreamEffect (64 * k) ks s
    t = { s with mem := t.mem, engB := afterBlocks k s.engB } ∧
    (∀ j, j < 64 * k → t.mem.read (s.argSrc.toNat + j) = s.mem.read (s.argSrc.toNat + j) ^^^ ksByte s.engB.m j) ∧
    ∀ a, a < s.argSrc.toNat ∨ s.argSrc.toNat + 64 * k ≤ a → t.mem.read a = s.mem.read a := by
  obtain ⟨inside, outside⟩ := Memory.read_writeBytes_xor wf (src := s.argSrc.toNat) (out := s.argSrc.toNat)
    (length_ksRun s.engB.m 0 k).ge
  have mem : (keystreamEffect (64 * k) ks s).mem =
      s.mem.writeBytes s.argSrc.toNat (xorBytes (s.mem.readBytes s.argSrc.toNat (64 * k)) (ksRun s.engB.m 0 k)) := by
    rw [keystreamEffect, hk]
    rfl
  refine ⟨?_, fun j hj => ?_, fun a ha => ?_⟩
  · rw [keystreamEffect_frame, hk, ctrAdd_eq_afterBlocks]
  · rw [mem, inside j hj, getD_ksRun_zero _ hj]
  · rw [mem, outside a ha]

/-- A command that completes with the effect of k keystream blocks, as the host sees it. -/
theorem keystreamCommand_spec {i : Instr} {ks : EngineB → Bytes × EngineB} {k : Nat} {s : State} (hk : KeystreamStep ks k)
    (wf : s.mem.wf = true) (answer : exec i s = .next (succeed (keystreamEffect (64 * k) ks s))) :
    ∃ t, exec i s = .next t ∧
      t = { s with last := 0x80000000, mem := t.mem, engB := afterBlocks k s.engB } ∧
      (∀ j, j < 64 * k → t.mem.read (s.argSrc.toNat + j) =
        s.mem.read (s.argSrc.toNat + j) ^^^ ksByte s.engB.m j) ∧
      ∀ a, a < s.argSrc.toNat ∨ s.argSrc.toNat + 64 * k ≤ a → t.mem.read a = s.mem.read a := by
  obtain ⟨frame, bytes⟩ := keystreamEffect_spec hk wf
  generalize keystreamEffect (64 * k) ks s = t at answer frame bytes
  exact ⟨succeed t, answer, congrArg succeed frame, bytes⟩

/-- Settles O33: the checks and the range pass, and the effect is that of a run of k blocks (`keystreamCommand_spec`). -/
theorem keystreamCommandsXorInPlace : Obligations.KeystreamCommandsXorInPlace := by
  rintro s i k (⟨rfl, rfl⟩ | ⟨rfl, rfl⟩) present phase wf fit
  · exact keystreamCommand_spec keystreamStep_one wf (exec_of_checks (i := .bChachaBlock) rfl
      (firstError_requireMatrixB_of_phase present phase) (firstBar_mustFit fit))
  · exact keystreamCommand_spec keystreamStep_four wf (exec_of_checks (i := .bChacha4Block) rfl
      (firstError_requireMatrixB_of_phase present phase) (firstBar_mustFit fit))

end Sys2Proof.Machine

/-! ### The AEAD driver (R222 to R233) -/

namespace Sys2Proof.Machine

/-! #### B_SET_KEY (R222) -/

/-- The matrix of a key, word by word: the fixed row, the key, row 3 zero. -/
theorem getD_keyMatrix (k : Bytes) {j : Nat} (hj : j < 16) (d : Word) :
    (keyMatrix k).toList.getD j d =
      if j < 4 then Config.sigma.toList.getD j 0 else if j < 12 then wordAt k (j - 4) else 0 := by
  rw [List.getD_eq_getElem _ _ (by simpa using hj), Vector.getElem_toList, keyMatrix, Vector.getElem_ofFn]

/-- A word of `MemRead` is `LE32` of its four bytes of memory (R53). -/
theorem wordAt_readBytes (m : Memory) (a : Nat) {n j : Nat} (h : 4 * j + 4 ≤ n) :
    wordAt (m.readBytes a n) j = le32 (m.readBytes (a + 4 * j) 4) := by
  rw [wordAt, slice_readBytes m h]

/-- The bytes at `ARG_AUX` (R66). -/
theorem memRead_auxRange (s : State) (n : Nat) : memRead s (s.auxRange n) = s.mem.readBytes s.argAux.toNat n := rfl

/-- A length check as its word says it. -/
theorem toNat_bne_of_ne {v : Word} {n : Nat} (hn : n < 2 ^ 32) (h : v ≠ BitVec.ofNat 32 n) : (v.toNat != n) = true := by
  rw [bne_iff_ne]
  rintro rfl
  exact h (by simp)

/-- The fixed row of a keyed matrix (R160). -/
theorem keyMatrix_sigma (k : Bytes) :
    (keyMatrix k)[0] = 0x61707865 ∧ (keyMatrix k)[1] = 0x3320646E ∧ (keyMatrix k)[2] = 0x79622D32 ∧
      (keyMatrix k)[3] = 0x6B206574 := by
  simp [keyMatrix, Config.sigma]

/-- Engine B after `B_SET_KEY`, field by field. -/
theorem keyEngineB_eq (k : Bytes) (b : EngineB) :
    keyEngineB k b =
      { present := b.present, phase := .keyed, wrap := false, m := keyMatrix k, r := Limbs.zero, u := Limbs.zero
        h := Limbs.zero, s := #v[0, 0, 0, 0] } := rfl

/-- Settles O41: the length check fails, or passes and the range fits; then the effect, its matrix word by word
(`getD_keyMatrix`). -/
theorem setKeyB : Obligations.SetKeyB := by
  intro s present
  have checks : firstError (checksOf .bSetKey s) =
      firstError [(s.argAuxlen.toNat != Config.aeadKeyLen, .keyLength)] := firstError_requirePresentB_append present _
  obtain ⟨m0, m1, m2, m3⟩ := keyMatrix_sigma (s.mem.readBytes s.argAux.toNat 32)
  refine ⟨fun wrong => ?_, fun right fit => ⟨_, ?_, m0, m1, m2, m3, fun j => ?_, fun j => ?_⟩⟩
  · rw [toNat_bne_of_ne (n := Config.aeadKeyLen) (by decide) wrong] at checks
    exact (exec_eq rfl s).trans (command_fails checks)
  · rw [right] at checks
    rw [exec_of_checks (i := .bSetKey) rfl checks (firstBar_mustFit fit), effectOf, memRead_auxRange, Config.aeadKeyLen,
      keyEngineB_eq, present, succeed, lastOk]
  · rw [getD_keyMatrix _ (by omega), if_neg (by omega), if_pos (by omega), Nat.add_sub_cancel_left]
    exact wordAt_readBytes s.mem _ (by omega)
  · rw [getD_keyMatrix _ (by omega), if_neg (by omega), if_neg (by omega)]

/-! #### B_INIT (R224 to R226) -/

/-- The counter of a message's row 3 set again (R225). -/
theorem withCounter_nonceRow (iv : Bytes) (m : Matrix) (c : Word) :
    withCounter (nonceRow iv m) c =
      (((m.set 12 c).set 13 (wordAt iv 0)).set 14 (wordAt iv 1)).set 15 (wordAt iv 2) := by
  rw [withCounter, nonceRow, Vector.set_comm (wordAt iv 2) c (by decide), Vector.set_comm (wordAt iv 1) c (by decide),
    Vector.set_comm (wordAt iv 0) c (by decide), Vector.set_set]

/-- A piece of the head of a sequence is a piece of the sequence. -/
theorem slice_slice_zero (bs : Bytes) {n i k : Nat} (h : i + k ≤ n) : slice (slice bs 0 n) i k = slice bs i k := by
  simp only [slice, List.drop_zero, List.drop_take, List.take_take, Nat.min_eq_left (show k ≤ n - i by omega)]

/-- Engine B after `B_INIT`: the MAC key of keystream block 0, the data counter at 1. -/
theorem initEngineB_eq (iv : Bytes) (b : EngineB) :
    initEngineB iv b =
      { macInit (slice (chachaCore (nonceRow iv b.m)) 0 32) b with
        phase := .active, wrap := false, m := withCounter (nonceRow iv b.m) 1 } := by
  have counter : add32 (0 : Word) (BitVec.ofNat 32 1) = 1 := rfl
  have flag : (false || counterWraps 0 1) = false := rfl
  simp only [initEngineB, ksBlock, ctrAdd, macInit, nonceRow_counter, counter, flag]

/-- Settles O42: the length check fails, or passes and the range fits; then engine B is `initEngineB_eq`, its MAC key that
of `macInit` on the block's first half. -/
theorem initB : Obligations.InitB := by
  intro s present keyed
  have checks : firstError (checksOf .bInit s) =
      firstError [(s.argAuxlen.toNat != Config.aeadIvLen, .ivLength)] := by
    rw [checksOf, firstError_requireKeyedB_append present, if_neg keyed]
  refine ⟨fun wrong => ?_, ?_⟩
  · rw [toNat_bne_of_ne (n := Config.aeadIvLen) (by decide) wrong] at checks
    exact (exec_eq rfl s).trans (command_fails checks)
  · intro right fit w row ks r
    rw [right] at checks
    have words : ∀ j < 3, wordAt (s.mem.readBytes s.argAux.toNat 12) j = w j := fun j hj =>
      wordAt_readBytes s.mem _ (by omega)
    have rows : ∀ c, withCounter (nonceRow (s.mem.readBytes s.argAux.toNat 12) s.engB.m) c = row c := fun c => by
      rw [withCounter_nonceRow, words 0 (by omega), words 1 (by omega), words 2 (by omega)]
    have start : nonceRow (s.mem.readBytes s.argAux.toNat 12) s.engB.m = row 0 := by
      rw [← rows, ← nonceRow_counter (s.mem.readBytes s.argAux.toNat 12) s.engB.m, withCounter_self]
    have after : effectOf .bInit s =
        { s with engB := { macInit (slice ks 0 32) s.engB with phase := .active, wrap := false, m := row 1 } } := by
      rw [effectOf, memRead_auxRange, Config.aeadIvLen, initEngineB_eq, rows, start]
    have len : (slice ks 0 32).length = 32 := by
      rw [length_slice, length_chachaCore]
      rfl
    have key : (macInit (slice ks 0 32) s.engB).r.val = r := by
      rw [macInit_r_val, slice_slice_zero ks (by omega)]
      rfl
    have mask := macInit_maskVal len s.engB
    rw [slice_slice_zero ks (by omega)] at mask
    have square := macInit_u_val (slice ks 0 32) s.engB
    rw [key] at square
    rw [exec_of_checks (i := .bInit) rfl checks (firstBar_mustFit fit), after]
    exact ⟨_, rfl, present, rfl, rfl, rfl, key, square, rfl, mask, macInit_r_canonical _ s.engB,
      macInit_u_canonical _ s.engB⟩

/-! #### B_ENCRYPT and B_DECRYPT (R228 to R231) -/

/-- 4n MAC blocks are 2n pairs. -/
theorem macUpdate_four_mul (n : Nat) (d : Bytes) (b : EngineB) : macUpdate (4 * n) d b = macPairs (2 * n) d b := by
  rw [show 4 * n = 2 * (2 * n) by omega, macUpdate_even]

/-- Settles O43: both transforms are one XOR with a run of n blocks and one absorption (`encTransform_eq`,
`decTransform_eq`). -/
theorem aeadClosedForm : Obligations.AeadClosedForm := by
  intro n d b hd
  refine ⟨⟨length_encTransform n d b hd, fun j hj => ?_, ?_⟩, ?_, ?_⟩
  · have len : j < (xorBytes d (ksRun b.m 0 n)).length := by simp; omega
    rw [encTransform_eq n d b hd, List.getD_eq_getElem _ _ len, getElem_xorBytes_getD, List.getD_eq_getElem _ _ hj,
      getD_ksRun_zero _ (by omega)]
  · rw [encTransform_eq n d b hd, macUpdate_four_mul]
    rfl
  · rw [encTransform_eq n d b hd, decTransform_eq n d b hd]
  · rw [decTransform_eq n d b hd, macUpdate_four_mul]
    rfl

/-- The effect of a transform on the source range: engine and memory. -/
theorem aeadEffect_eq (f : Nat → Bytes → EngineB → Bytes × EngineB) (s : State) :
    aeadEffect f s =
      { s with
        engB := (f s.argLen.toNat (s.mem.readBytes s.argSrc.toNat (64 * s.argLen.toNat)) s.engB).2
        mem := s.mem.writeBytes s.argSrc.toNat
          (f s.argLen.toNat (s.mem.readBytes s.argSrc.toNat (64 * s.argLen.toNat)) s.engB).1 } := rfl

/-- The data `B_ENCRYPT` and `B_DECRYPT` read. -/
abbrev aeadInput (s : State) : Bytes := s.mem.readBytes s.argSrc.toNat (64 * s.argLen.toNat)

/-- The data they write (R229). -/
abbrev aeadOutput (s : State) : Bytes := xorBytes (aeadInput s) (ksRun s.engB.m 0 s.argLen.toNat)

/-- Either command writes the XOR with the keystream and absorbs the ciphertext. -/
theorem effectOf_aead {i : Instr} (crypt : i = .bEncrypt ∨ i = .bDecrypt) (s : State) :
    effectOf i s =
      { s with
        engB := { afterBlocks s.argLen.toNat s.engB with
          h := (macUpdate (4 * s.argLen.toNat) (if i = .bEncrypt then aeadOutput s else aeadInput s) s.engB).h }
        mem := s.mem.writeBytes s.argSrc.toNat (aeadOutput s) } := by
  have len : (aeadInput s).length = 64 * s.argLen.toNat := Memory.length_readBytes ..
  rw [macUpdate_four_mul]
  rcases crypt with rfl | rfl
  · rw [effectOf, aeadEffect_eq, encTransform_eq _ _ _ len]
    rfl
  · rw [effectOf, aeadEffect_eq, decTransform_eq _ _ _ len]
    rfl

/-- The data written are read back. -/
theorem readBytes_aeadOutput {s : State} (wf : s.mem.wf = true) :
    (s.mem.writeBytes s.argSrc.toNat (aeadOutput s)).readBytes s.argSrc.toNat (64 * s.argLen.toNat) = aeadOutput s := by
  have back := Memory.readBytes_writeBytes wf s.argSrc.toNat (aeadOutput s)
  have len : (aeadOutput s).length = 64 * s.argLen.toNat := by simp
  rwa [len] at back

/-- Settles O44: the checks and the range pass, and the effect is `effectOf_aead`; the ciphertext absorbed is read back from
the memory left. -/
theorem aeadCommands : Obligations.AeadCommands := by
  intro s i crypt present active wf fit
  have answer : exec i s = .next (succeed (effectOf i s)) := by
    have checks := firstError_requireActiveB_of_active present active
    rcases crypt with rfl | rfl
    · exact exec_of_checks (i := .bEncrypt) rfl checks (firstBar_mustFit fit)
    · exact exec_of_checks (i := .bDecrypt) rfl checks (firstBar_mustFit fit)
  obtain ⟨inside, outside⟩ := Memory.read_writeBytes_xor wf (src := s.argSrc.toNat) (out := s.argSrc.toNat)
    (length_ksRun s.engB.m 0 s.argLen.toNat).ge
  have absorbed : (if i = .bEncrypt then s.mem.writeBytes s.argSrc.toNat (aeadOutput s) else s.mem).readBytes
      s.argSrc.toNat (64 * s.argLen.toNat) = if i = .bEncrypt then aeadOutput s else aeadInput s := by
    split
    · exact readBytes_aeadOutput wf
    · rfl
  rw [effectOf_aead crypt, ← absorbed] at answer
  exact ⟨_, answer, rfl, fun j hj => (inside j hj).trans (congrArg _ (getD_ksRun_zero _ hj)), outside⟩

/-- Bytes written over others and then put back leave the memory as data (R51, log entry 4). -/
theorem Memory.writeBytes_restore {m : Memory} (wf : m.wf = true) {a n : Nat} {bs : Bytes} (len : bs.length = n)
    (fit : a + n ≤ 2 ^ 32) : (m.writeBytes a bs).writeBytes a (m.readBytes a n) = m := by
  have wf' : (m.writeBytes a bs).wf = true := Memory.wf_writeBytes wf (len ▸ fit)
  refine memoryFormIsCanonical _ _ (Memory.wf_writeBytes wf' (by rwa [Memory.length_readBytes])) wf fun x => ?_
  by_cases inside : a ≤ x ∧ x < a + n
  · obtain ⟨k, rfl⟩ := Nat.exists_eq_add_of_le inside.1
    rw [Memory.read_writeBytes_inside (Memory.wf_iff.1 wf').1 (by simp; omega), Memory.getElem_readBytes]
  · rw [Memory.read_writeBytes_outside _ (by simp; omega), Memory.read_writeBytes_outside _ (by omega)]

/-- A command that succeeded took its effect, and its tests and ranges had passed. -/
theorem exec_succeeded {i : Instr} {s t : State} (h : exec i s = .next t) (ok : t.last = lastOk) :
    reportedError i s = none ∧ firstBar (barsOf i s) = none ∧ t = succeed (effectOf i (s.cleared i)) := by
  rcases exec_next_cases h with ⟨e, -, rfl⟩ | taken
  · exact absurd ok (lastErr_ne_lastOk e)
  · exact taken

/-- Settles O45: the decrypt reads what the encrypt wrote, so it absorbs the same ciphertext and XORs the same run again. -/
theorem aeadRoundTrip : Obligations.AeadRoundTrip := by
  intro s t wf h ok
  obtain ⟨passed, meaningful, rfl⟩ := exec_succeeded h ok
  have checks := checks_of_reportedError_none passed
  have fit : s.argSrc.toNat + 64 * s.argLen.toNat ≤ 2 ^ 32 := rangesFit_of_firstBar checks meaningful _ (.head _)
  rw [cleared_of_not_construct rfl, effectOf_aead (.inl rfl)]
  let s' : State := { s with mem := s.mem.writeBytes s.argSrc.toNat (aeadOutput s) }
  have input : aeadInput s' = aeadOutput s := readBytes_aeadOutput wf
  have output : aeadOutput s' = aeadInput s := by
    rw [aeadOutput, input]
    exact xorBytes_xorBytes (by simp)
  refine ⟨_, exec_of_checks (i := .bDecrypt) (s := s') rfl checks meaningful, rfl, ?_, ?_⟩
  · rw [effectOf_aead (.inr rfl), input]
    rfl
  · rw [effectOf_aead (.inr rfl), output]
    exact Memory.writeBytes_restore wf (by simp) fit

/-! #### B_FINISH (R201, R232) -/

/-- The tag as a number (R201). -/
theorem leNat_macFinish (b : EngineB) :
    leNat (macFinish b) = (b.h.val % Config.prime % 2 ^ 128 + maskVal b.s) % 2 ^ 128 := by
  rw [macFinish, leNat_toLE]
  exact Nat.mod_eq_of_lt (Nat.mod_lt _ (by decide))

/-- Settles O46: the checks and the range pass, and the tag written is read back as its number (`leNat_macFinish`). -/
theorem finishWritesTheTag : Obligations.FinishWritesTheTag := by
  intro s present active wf fit
  have effect : effectOf .bFinish s =
      { s with
        mem := s.mem.writeBytes s.argDst.toNat (macFinish s.engB), engB := { s.engB with phase := .finished } } := rfl
  have len : (macFinish s.engB).length = 16 := length_toLE _ _
  have back := Memory.readBytes_writeBytes wf s.argDst.toNat (macFinish s.engB)
  have tag := leNat_macFinish s.engB
  rw [exec_of_checks (i := .bFinish) rfl (firstError_requireActiveB_of_active present active) (firstBar_mustFit fit),
    effect]
  generalize macFinish s.engB = bs at len back tag
  rw [len] at back
  exact ⟨_, rfl, rfl, (congrArg leNat back).trans tag,
    fun a outside => Memory.read_writeBytes_outside s.mem (by rwa [len])⟩

end Sys2Proof.Machine

/-! ### The counter-mode driver (R131 to R145) -/

namespace Sys2Proof.Machine

open Sys2Proof.Config (Cipher)

/-! #### A_SET_KEY (R131) -/

theorem firstError_requirePresentA_append {s : State} (present : s.engA.present = true) (cs : List Check) :
    firstError (requirePresentA s ++ cs) = firstError cs := by
  simp [requirePresentA, present]

/-- The key material of `A_SET_KEY` in the registers (R131). -/
theorem installKey_eq (C : Cipher) (k : Bytes) (a : EngineA) :
    installKey C k a =
      { a with
        keyValid := true, nonce := toVec 4 (slice k a.variant.ks 4)
        rk := loadSchedule a.variant.len (C.keyExpand (slice k 0 a.variant.ks)) } := rfl

/-- Settles O22: the length check fails, or passes and the range fits; then the nonce and the data key are pieces of the
bytes read (`slice_readBytes`). -/
theorem setKeyA : Obligations.SetKeyA := by
  intro s present
  have checks : firstError (checksOf .aSetKey s) =
      firstError [(s.argAuxlen.toNat != keyOperandLen s, .keyLength)] := firstError_requirePresentA_append present _
  refine ⟨fun wrong => ?_, fun right fit => ?_⟩
  · rw [bne_iff_ne.2 (show s.argAuxlen.toNat ≠ keyOperandLen s from wrong)] at checks
    exact (exec_eq rfl s).trans (command_fails checks)
  · rw [show s.argAuxlen.toNat = keyOperandLen s from right, bne_self_eq_false] at checks
    have len : keyOperandLen s = s.engA.variant.ks + 4 := rfl
    rw [exec_of_checks (i := .aSetKey) rfl checks (firstBar_mustFit fit), effectOf, memRead_auxRange, installKey_eq, len,
      slice_readBytes _ (Nat.le_refl _), slice_readBytes _ (by omega), Nat.add_zero]
    refine ⟨_, _, rfl, fun j => ?_, fun i => ?_⟩
    · exact (getElem_toVec 4 _ j.val j.isLt).trans (Memory.getD_readBytes _ j.isLt)
    · simp [loadSchedule]

/-! #### The transform (R133, R134) -/

/-- The run of a call's counter blocks, byte by byte (R134). -/
theorem getD_ctrRun_one (C : Cipher) (rk : Schedule) (len : Nat) (nonce : Nonce) (iv : CtrIv) {n j : Nat} (hj : j < 16 * n) :
    (ctrRun C rk len nonce iv 1 n).getD j 0 = ctrKeystream C rk len nonce iv j := by
  have counter : BitVec.ofNat 32 (1 + j / 16) = BitVec.ofNat 32 ((1 + j / 16) % 2 ^ 32) :=
    BitVec.eq_of_toNat_eq (by simp)
  rw [getD_ctrRun C rk len nonce iv 1 n j hj, counter]
  rfl

/-- Settles O23: the transform is one XOR with the run of its counter blocks (`ctrTransform_eq`), read byte by byte. -/
theorem ctrTransformClosedForm : Obligations.CtrTransformClosedForm := by
  intro C rk len nonce iv inp t
  have ht : t = _ := ctrTransform_eq C rk len nonce iv inp
  have out : t.1.length = inp.length := length_ctrTransform C rk len nonce iv inp
  refine ⟨out, fun j hj => ?_, ?_⟩
  · rw [List.getD_eq_getElem _ _ (out ▸ hj)]
    simp only [ht]
    rw [getElem_xorBytes_getD, getD_ctrRun_one _ _ _ _ _ (by omega), List.getD_eq_getElem _ _ hj, BitVec.xor_comm]
  · rw [ht]
    refine congrArg (csEncode nonce iv) (BitVec.eq_of_toNat_eq ?_)
    simp

/-! #### A_ENCRYPT and A_DECRYPT (R133, R139) -/

/-- The data the two commands read. -/
abbrev ctrInput (s : State) : Bytes := s.mem.readBytes s.argSrc.toNat s.argLen.toNat

/-- The keystream they take. -/
abbrev ctrStream (C : Cipher) (s : State) : Bytes :=
  ctrRun C s.engA.rk s.engA.variant.len s.engA.nonce (ctrIv s) 1 ((s.argLen.toNat + 15) / 16)

/-- The effect of counter mode: the input XOR keystream written, the counter state one past the last block. -/
theorem ctrEffect_eq (C : Cipher) (inPlace : Bool) (s : State) :
    ctrEffect C inPlace s =
      { s with
        engA := { s.engA with
          cs := csEncode s.engA.nonce (ctrIv s) (BitVec.ofNat 32 (1 + (s.argLen.toNat + 15) / 16)) }
        mem := s.mem.writeBytes (s.ctrOutRange inPlace).1.toNat (xorBytes (ctrInput s) (ctrStream C s)) } := by
  have input : memRead s (s.srcRange 1) = ctrInput s := by
    rw [memRead, State.srcRange, Nat.one_mul]
  rw [ctrEffect, input, ctrTransform_eq, Memory.length_readBytes, xorBytes_comm]
  rfl

/-- The keystream is as long as the data, or a part of a block longer. -/
theorem length_ctrStream (C : Cipher) (s : State) : s.argLen.toNat ≤ (ctrStream C s).length := by
  rw [length_ctrRun]
  omega

/-- The IV, byte by byte (R132). -/
theorem ctrIv_eq (s : State) : ctrIv s = Vector.ofFn fun j => s.mem.read (s.argAux.toNat + j.val) := by
  apply Vector.ext
  intro j hj
  rw [ctrIv, getElem_toVec, Vector.getElem_ofFn]
  exact Memory.getD_readBytes _ hj

/-- Both commands complete with the effect of counter mode. -/
theorem exec_crypt {s : State} {inPlace : Bool} {i : Instr} (crypt : i = .aEncrypt inPlace ∨ i = .aDecrypt inPlace)
    (present : s.engA.present = true) (keyed : s.engA.keyValid = true) (ivLen : s.argAuxlen = 8) (fit : rangesFit i s)
    (compat : rangesCompatible i s) : exec i s = .next (succeed (ctrEffect aes inPlace s)) := by
  classical
  have checks : firstError (checksOf i s) = none := by
    have all : firstError (checksOf (.aEncrypt inPlace) s) = none := by
      rw [checksOf, firstError_requirePresentA_append present, keyed, ivLen]
      rfl
    rcases crypt with rfl | rfl <;> exact all
  have bars : firstBar (barsOf i s) = none := by rw [firstBar_barsOf checks, if_pos fit, if_pos compat]
  rcases crypt with rfl | rfl
  · exact exec_of_checks (by cases inPlace <;> rfl) checks bars
  · exact exec_of_checks (by cases inPlace <;> rfl) checks bars

/-- Settles O24: the effect is that of counter mode (`exec_crypt`, `ctrEffect_eq`), its bytes those of the keystream. -/
theorem cryptXorsTheKeystream : Obligations.CryptXorsTheKeystream := by
  intro s inPlace i crypt present keyed ivLen wf fit compat src out n iv
  have hiv : iv = ctrIv s := (ctrIv_eq s).symm
  obtain ⟨inside, outside⟩ := Memory.read_writeBytes_xor wf (src := src) (out := out) (length_ctrStream aes s)
  rw [exec_crypt crypt present keyed ivLen fit compat, ctrEffect_eq, hiv]
  exact ⟨_, rfl, rfl, fun j hj => (inside j hj).trans (congrArg _ (getD_ctrRun_one _ _ _ _ _ (by omega))), outside⟩

/-- Ranges of no bytes share none (log entry 11). -/
theorem rangesCompatible_of_empty {s : State} (len : s.argLen.toNat = 0) (i : Instr) : rangesCompatible i s := by
  cases i with
  | aEncrypt inPlace | aDecrypt inPlace =>
    cases inPlace with
    | false => exact .inr fun a ⟨⟨low, high⟩, _⟩ => by simp only [len] at low high; omega
    | true => trivial
  | _ => trivial

/-- Settles O25: ranges of no bytes fit and share no byte, and the effect writes no byte and takes no block. -/
theorem zeroLengthCrypt : Obligations.ZeroLengthCrypt := by
  intro s inPlace i crypt present keyed ivLen empty fit
  have len : s.argLen.toNat = 0 := by rw [empty]; rfl
  have start := fun a : Word => a.isLt.le
  have fits : rangesFit i s := by
    rcases crypt with rfl | rfl <;> simpa [rangesFit, readRanges, writeRange, len, start] using fit
  have noBytes : xorBytes (ctrInput s) (ctrStream aes s) = [] := by rw [ctrInput, len]; rfl
  rw [exec_crypt crypt present keyed ivLen fits (rangesCompatible_of_empty len i), ctrEffect_eq, noBytes, len, ← ctrIv_eq]
  rfl

/-- Settles O26: the second run takes the same IV and counter, so the same keystream, and its input is the first's output. -/
theorem cryptRoundTrip : Obligations.CryptRoundTrip := by
  intro s t wf apart h ok
  obtain ⟨passed, meaningful, ht⟩ := exec_succeeded h ok
  have checks := checks_of_reportedError_none passed
  have fit : s.argSrc.toNat + s.argLen.toNat ≤ 2 ^ 32 :=
    rangesFit_of_firstBar checks meaningful (s.argSrc, s.argLen.toNat) (by simp [readRanges])
  rw [cleared_of_not_construct rfl, effectOf, ctrEffect_eq] at ht
  have len : (xorBytes (ctrInput s) (ctrStream aes s)).length = s.argLen.toNat := by
    rw [length_xorBytes, Memory.length_readBytes, Nat.min_eq_left (length_ctrStream aes s)]
  have mem : t.mem = s.mem.writeBytes s.argSrc.toNat (xorBytes (ctrInput s) (ctrStream aes s)) := by rw [ht]; rfl
  have iv : ctrIv t = ctrIv s := by
    rw [ctrIv_eq, ctrIv_eq, mem]
    apply Vector.ext
    intro j hj
    have outside := apart (s.argAux.toNat + j)
    simp only [inRange] at outside
    rw [ht]
    simpa using Memory.read_writeBytes_outside s.mem (by omega)
  have stream : ctrStream aes t = ctrStream aes s := by
    rw [ctrStream, iv, ht]
    rfl
  have input : ctrInput t = xorBytes (ctrInput s) (ctrStream aes s) := by
    have back := Memory.readBytes_writeBytes wf s.argSrc.toNat (xorBytes (ctrInput s) (ctrStream aes s))
    rw [len] at back
    rw [ctrInput, mem, ht]
    exact back
  have again : checksOf (.aDecrypt true) t = checksOf (.aEncrypt true) s := by rw [ht]; rfl
  have bars : barsOf (.aDecrypt true) t = barsOf (.aEncrypt true) s := by rw [ht]; rfl
  refine ⟨_, exec_of_checks (i := .aDecrypt true) rfl (again ▸ checks) (bars ▸ meaningful), rfl, ?_⟩
  rw [effectOf, ctrEffect_eq, input, stream, xorBytes_xorBytes (by simpa using length_ctrStream aes s), mem]
  have same : (t.ctrOutRange true).1 = s.argSrc := by rw [ht]; rfl
  rw [same]
  exact Memory.writeBytes_restore wf len fit

end Sys2Proof.Machine

/-! ### The standard cipher (R110 to R118) -/

namespace Sys2Proof.Machine

/-! #### Known answers and the table -/

/-- Settles O17: the three key sizes, evaluated. -/
theorem cipherKnownAnswers : Obligations.CipherKnownAnswers := by
  refine ⟨?_, ?_, ?_⟩ <;> decide +kernel

/-- The power 254 in GF(2^8), by squaring: the inverse of every byte but 0, and 0 of 0 (R111). -/
def gfInverse (v : Byte) : Byte :=
  let v2 := gfMul v v 8
  let v4 := gfMul v2 v2 8
  let v8 := gfMul v4 v4 8
  let v16 := gfMul v8 v8 8
  let v32 := gfMul v16 v16 8
  let v64 := gfMul v32 v32 8
  let v128 := gfMul v64 v64 8
  gfMul v2 (gfMul v4 (gfMul v8 (gfMul v16 (gfMul v32 (gfMul v64 v128 8) 8) 8) 8) 8) 8

/-- The power 254 is the inverse and the table its affine map, for each of the 256 bytes. -/
theorem gfInverse_sbox : ∀ v : Byte, (v = 0 → gfInverse v = 0) ∧ (v ≠ 0 → gfMul v (gfInverse v) 8 = 1) ∧
    sbox v = gfInverse v ^^^ (gfInverse v).rotateLeft 1 ^^^ (gfInverse v).rotateLeft 2 ^^^
      (gfInverse v).rotateLeft 3 ^^^ (gfInverse v).rotateLeft 4 ^^^ 0x63 := by
  decide +kernel

/-- Settles O19: the inverse of a byte is its power 254 (`gfInverse_sbox`). -/
theorem substitutionTableFormula : Obligations.SubstitutionTableFormula := fun v => ⟨gfInverse v, gfInverse_sbox v⟩

/-! #### The round functions, byte by byte (R112 to R116) -/

/-- Doubling in GF(2^8) is doubling reduced by 0x11B, for each of the 256 bytes (R114). -/
theorem toNat_mul2 : ∀ a : Byte, (mul2 a).toNat = if 0x80 ≤ a.toNat then (2 * a.toNat) ^^^ 0x11B else 2 * a.toNat := by
  decide +kernel

theorem getD_xorBlock (x y : Block) {j : Nat} (hj : j < 16) :
    (xorBlock x y).toList.getD j 0 = x.toList.getD j 0 ^^^ y.toList.getD j 0 := by
  simp [List.getD_eq_getElem?_getD, hj]

theorem getD_subBytes (t : Block) {j : Nat} (hj : j < 16) :
    (subBytes t).toList.getD j 0 = sbox (t.toList.getD j 0) := by
  simp [List.getD_eq_getElem?_getD, hj, subBytes]

/-- Row rw, column c of the shifted array is row rw, column c + rw of the array (R113). -/
theorem getD_shiftRows (t : Block) {rw c : Nat} (hr : rw < 4) (hc : c < 4) :
    (shiftRows t).toList.getD (rw + 4 * c) 0 = t.toList.getD (rw + 4 * ((c + rw) % 4)) 0 := by
  rw [List.getD_eq_getElem _ _ (by simp; omega), Vector.getElem_toList, shiftRows, Vector.getElem_ofFn]
  simp only [show (rw + 4 * c) % 4 = rw by omega, show (rw + 4 * c) / 4 = c by omega]

/-- Byte rw, c of the shifted, substituted block (R112, R113). -/
theorem getD_shiftRows_subBytes (t : Block) {rw c : Nat} (hr : rw < 4) (hc : c < 4) :
    (shiftRows (subBytes t)).toList.getD (rw + 4 * c) 0 = sbox (t.toList.getD (rw + 4 * ((c + rw) % 4)) 0) := by
  rw [getD_shiftRows _ hr hc, getD_subBytes _ (by omega)]

/-- Column c of the mixed array is the mixed column c (R114). -/
theorem getD_mixColumns (t : Block) (c rw : Fin 4) :
    (mixColumns t).toList.getD (4 * c.val + rw.val) 0 =
      (mixColumn (t.toList.getD (4 * c.val) 0) (t.toList.getD (4 * c.val + 1) 0) (t.toList.getD (4 * c.val + 2) 0)
        (t.toList.getD (4 * c.val + 3) 0)).getD rw.val 0 := by
  rw [mixColumns, toList_toVec (by simp [mixColumn])]
  simp only [mixColumn, List.cons_append, List.nil_append]
  fin_cases c <;> fin_cases rw <;> simp

/-- Settles O20: the round functions read from the outside in: the XOR, the mixed column, the shifted row, the table. -/
theorem cipherRoundBytes : Obligations.CipherRoundBytes := by
  refine ⟨fun a => ⟨toNat_mul2 a, rfl⟩, ?_⟩
  intro t k s
  refine ⟨fun rw c => ?_, fun c => ?_⟩
  · rw [aesFinal, getD_xorBlock _ _ (by omega), getD_shiftRows_subBytes t rw.isLt c.isLt]
  · have row : ∀ rw : Nat, rw < 4 → (shiftRows (subBytes t)).toList.getD (4 * c.val + rw) 0 = s rw c := fun rw h => by
      rw [Nat.add_comm, getD_shiftRows_subBytes t h c.isLt]
    have mixed : ∀ rw : Fin 4, (aesRound t k).toList.getD (4 * c.val + rw.val) 0 =
        (mixColumn (s 0 c) (s 1 c) (s 2 c) (s 3 c)).getD rw.val 0 ^^^ k.toList.getD (4 * c.val + rw.val) 0 := fun rw => by
      rw [aesRound, getD_xorBlock _ _ (by omega), getD_mixColumns, row 1 (by omega), row 2 (by omega), row 3 (by omega),
        ← row 0 (by omega), Nat.add_zero]
    exact ⟨mixed 0, mixed 1, mixed 2, mixed 3⟩

/-! #### The key expansion (R117) -/

/-- The round constant of the k-th key-length step: 2 to the power k in GF(2^8) (R117). -/
def roundConst : Nat → Byte
  | 0 => 1
  | k + 1 => mul2 (roundConst k)

/-- The round constant kept by the loop at index i is the one of the last multiple of Nk before i. -/
theorem roundConst_step {nk i : Nat} (hi : 0 < i) :
    (if i % nk = 0 then mul2 (roundConst ((i - 1) / nk)) else roundConst ((i - 1) / nk)) = roundConst (i / nk) := by
  obtain ⟨k, rfl⟩ := Nat.exists_eq_add_of_lt hi
  simp only [Nat.zero_add, Nat.add_sub_cancel, Nat.succ_div, Nat.dvd_iff_mod_eq_zero]
  split <;> rfl

/-- The word the loop adds at index i to the words before, newest first (R117). -/
def nextWord (nk i : Nat) (ws : List Bytes) : Bytes :=
  xorBytes (ws.getD (nk - 1) []) (expandWord nk i (roundConst ((i - 1) / nk)) (ws.getD 0 []))

/-- Word j once the loop has added n words from index i on (R117). -/
def expandedWord (nk n i : Nat) (ws : List Bytes) (j : Nat) : Bytes :=
  (expandWords nk n i (roundConst ((i - 1) / nk)) ws).reverse.getD j []

/-- The loop adds the next word, then the others. -/
theorem expandedWord_succ (nk n : Nat) {i : Nat} (hi : 0 < i) (ws : List Bytes) :
    expandedWord nk (n + 1) i ws = expandedWord nk n (i + 1) (nextWord nk i ws :: ws) := by
  funext j
  rw [expandedWord, expandWords, roundConst_step hi]
  rfl

/-- Word j of the words newest first. -/
theorem getD_reverse {ws : List Bytes} {j : Nat} (hj : j < ws.length) :
    ws.reverse.getD j [] = ws.getD (ws.length - 1 - j) [] := by
  rw [List.getD_eq_getElem _ _ (by simpa using hj), List.getElem_reverse, List.getD_eq_getElem]

/-- The loop keeps the words it is given. -/
theorem expandedWord_old {nk n i : Nat} {ws : List Bytes} (hi : 0 < i) (hws : ws.length = i) {j : Nat} (hj : j < i) :
    expandedWord nk n i ws j = ws.reverse.getD j [] := by
  induction n generalizing i ws with
  | zero => rfl
  | succ n ih =>
    rw [expandedWord_succ nk n hi, ih (by omega) (by simp [hws]) (by omega), List.reverse_cons,
      List.getD_append _ _ _ _ (by simpa [hws] using hj)]

/-- Every word the loop adds is the recurrence's, from the words before it (R117). -/
theorem expandedWord_new {nk n i : Nat} {ws : List Bytes} (hnk : 0 < nk) (hi : nk ≤ i) (hws : ws.length = i) {j : Nat}
    (hj : i ≤ j) (hj' : j < i + n) :
    expandedWord nk n i ws j =
      xorBytes (expandedWord nk n i ws (j - nk))
        (expandWord nk j (roundConst ((j - 1) / nk)) (expandedWord nk n i ws (j - 1))) := by
  induction n generalizing i ws with
  | zero => omega
  | succ n ih =>
    have len : (nextWord nk i ws :: ws).length = i + 1 := by simp [hws]
    rw [expandedWord_succ nk n (by omega)]
    rcases hj.eq_or_lt with rfl | later
    · rw [expandedWord_old (by omega) len (by omega), expandedWord_old (by omega) len (by omega),
        expandedWord_old (by omega) len (by omega), getD_reverse (by omega), getD_reverse (by omega),
        getD_reverse (by omega), len, show i + 1 - 1 - i = 0 by omega, show i + 1 - 1 - (i - nk) = (nk - 1) + 1 by omega,
        show i + 1 - 1 - (i - 1) = 0 + 1 by omega, List.getD_cons_succ, List.getD_cons_succ]
      rfl
    · exact ih (by omega) len later (by omega)

/-- What is combined with the word nk before has four bytes, as the word before has (R117). -/
theorem length_expandWord {nk i : Nat} {rc : Byte} {t : Bytes} (ht : t.length = 4) : (expandWord nk i rc t).length = 4 := by
  unfold expandWord
  split
  · simp [ht]
  · split <;> simp [ht]

/-- Word j of the expansion of a key (R117). -/
def keyWord (nk : Nat) (key : Bytes) : Nat → Bytes :=
  expandedWord nk (4 * (nk + 7) - nk) nk (keyWords key nk).reverse

section
variable {nk : Nat} {key : Bytes} (hnk : 0 < nk) (hkey : key.length = 4 * nk)
include hnk

/-- The first words are the key's (R117). -/
theorem keyWord_key {i : Nat} (hi : i < nk) : keyWord nk key i = slice key (4 * i) 4 := by
  rw [keyWord, expandedWord_old hnk (by simp [keyWords]) hi, List.reverse_reverse, keyWords,
    List.getD_eq_getElem _ _ (by simpa using hi)]
  simp

/-- The other words are the recurrence's (R117). -/
theorem keyWord_step {i : Nat} (hi : nk ≤ i) (hi' : i < 4 * (nk + 7)) :
    keyWord nk key i =
      xorBytes (keyWord nk key (i - nk)) (expandWord nk i (roundConst ((i - 1) / nk)) (keyWord nk key (i - 1))) :=
  expandedWord_new hnk (Nat.le_refl _) (by simp [keyWords]) hi (by omega)

include hkey

/-- Every word has four bytes. -/
theorem length_keyWord {i : Nat} (hi : i < 4 * (nk + 7)) : (keyWord nk key i).length = 4 := by
  induction i using Nat.strong_induction_on with
  | _ i ih =>
    by_cases first : i < nk
    · rw [keyWord_key hnk first, length_slice, hkey]
      omega
    · rw [keyWord_step hnk (by omega) hi, length_xorBytes, length_expandWord (ih (i - 1) (by omega) (by omega)),
        ih (i - nk) (by omega) (by omega), Nat.min_self]

/-- The sub-keys are the words four by four (R117). -/
theorem aesKeyExpand_eq :
    aesKeyExpand key = (List.range (nk + 7)).map fun j => toVec 16
      (keyWord nk key (4 * j) ++ keyWord nk key (4 * j + 1) ++ keyWord nk key (4 * j + 2) ++ keyWord nk key (4 * j + 3)) := by
  have size : key.length / 4 = nk := by omega
  have start : roundConst ((nk - 1) / nk) = 1 := by
    rw [Nat.div_eq_of_lt (by omega)]
    rfl
  simp only [aesKeyExpand, size, keyWord, expandedWord, start]

end

/-- The recurrence as R117 writes it, on four-byte words. -/
theorem expandWord_eq {nk i : Nat} (hnk : 0 < nk) (hi : nk ≤ i) {t : Bytes} (ht : t.length = 4) :
    expandWord nk i (roundConst ((i - 1) / nk)) t =
      if i % nk = 0 then xorBytes ((slice t 1 3 ++ slice t 0 1).map sbox) [roundConst (i / nk - 1), 0, 0, 0]
      else if nk = 8 ∧ i % nk = 4 then t.map sbox else t := by
  unfold expandWord
  split
  · next multiple =>
    obtain ⟨q, rfl⟩ := Nat.dvd_of_mod_eq_zero multiple
    obtain ⟨p, rfl⟩ : ∃ p, q = p + 1 := Nat.exists_eq_succ_of_ne_zero (by rintro rfl; omega)
    have rotated : slice t 1 3 ++ slice t 0 1 = t.drop 1 ++ t.take 1 := by
      rw [slice, List.take_of_length_le (by simp [ht])]
      rfl
    have constant : (nk * (p + 1) - 1) / nk = nk * (p + 1) / nk - 1 := by
      rw [Nat.mul_div_cancel_left _ hnk, show nk * (p + 1) - 1 = nk * p + (nk - 1) by rw [Nat.mul_add]; omega,
        Nat.mul_add_div hnk, Nat.div_eq_of_lt (show nk - 1 < nk by omega)]
      rfl
    rw [rotated, constant]
  · rfl

/-- Settles O18: the words are `keyWord`, whose recurrence is `keyWord_step`, and the sub-keys are `aesKeyExpand_eq`. -/
theorem keyExpansionRecurrence : Obligations.KeyExpansionRecurrence := by
  intro nk key hnk hkey
  have pos : 0 < nk := by omega
  refine ⟨keyWord nk key, roundConst, fun i hi => keyWord_key pos hi, rfl, fun k => rfl, fun i hi hi' => ?_, ?_,
    fun j hj => ?_⟩
  · rw [keyWord_step pos hi hi', expandWord_eq pos hi (length_keyWord pos hkey (by omega))]
  · rw [aesKeyExpand_eq pos hkey, List.length_map, List.length_range]
  · have bound : j < nk + 7 := by simpa [aesKeyExpand_eq pos hkey] using hj
    have len := fun k (h : k < 4 * (nk + 7)) => length_keyWord pos hkey h
    simp only [aesKeyExpand_eq pos hkey, List.getElem_map, List.getElem_range]
    refine toList_toVec ?_
    rw [List.length_append, List.length_append, List.length_append, len _ (by omega), len _ (by omega), len _ (by omega),
      len _ (by omega)]

end Sys2Proof.Machine

/-! ### The invariant (R25, R32, R35 to R40, R44, R51) -/

namespace Sys2Proof.Machine

/-! #### LAST -/

/-- A failure leaves a legal `LAST` (R283). -/
theorem lastLegal_lastErr (e : CmdError) : LastLegal (lastErr e) :=
  .inr (.inr (List.mem_map_of_mem (by cases e <;> decide)))

/-! #### Engine A -/

theorem EngineA.reset_inv : EngineA.reset.Inv :=
  ⟨fun _ => rfl, nofun, fun _ => ⟨rfl, rfl, rfl⟩, nofun⟩

/-- A fresh instance holds no key (R262). -/
theorem EngineA.construct_inv {v : Variant} (hv : v ≠ .none) :
    EngineA.Inv { EngineA.reset with present := true, keyValid := false, variant := v } :=
  ⟨nofun, fun _ => hv, fun _ => ⟨rfl, rfl, rfl⟩, nofun⟩

/-- A key fills the sub-keys of its variant and no others (R131). -/
theorem EngineA.installKey_inv {a : EngineA} (inv : a.Inv) (present : a.present = true) (C : Config.Cipher) (k : Bytes) :
    (installKey C k a).Inv := by
  obtain ⟨_, variant, _, _⟩ := inv
  refine ⟨fun absent => absurd (present.symm.trans absent) nofun, variant, nofun, fun i _ unused => ?_⟩
  exact (Vector.getElem_ofFn i.isLt).trans (if_neg (Nat.not_lt.2 unused))

/-- The counter state of a keyed engine is free (R34). -/
theorem EngineA.withCs_inv {a : EngineA} (inv : a.Inv) (present : a.present = true) (keyed : a.keyValid = true) (cs : Block) :
    EngineA.Inv { a with cs := cs } := by
  obtain ⟨_, variant, _, unused⟩ := inv
  exact ⟨fun absent => absurd (present.symm.trans absent) nofun, variant,
    fun noKey => absurd (keyed.symm.trans noKey) nofun, unused⟩

theorem present_of_passed_A {s : State} {cs : List Check} (passed : firstError (requirePresentA s ++ cs) = none) :
    s.engA.present = true := by
  simpa using firstError_eq_none.1 passed (!s.engA.present, .absent) (.head _)

/-- Every effect keeps the invariant of engine A. -/
theorem effectOf_engA_inv {i : Instr} {s : State} (inv : s.engA.Inv) (passed : firstError (checksOf i s) = none)
    (absent : i = .aConstruct → s.engA.present = false) : (effectOf i s).engA.Inv := by
  cases i with
  | aConstruct =>
    have hv : Variant.ofKeySize s.argAuxlen ≠ .none := by
      have size := firstError_eq_none.1 passed (Variant.ofKeySize s.argAuxlen == .none, .keySize) (by simp [checksOf])
      simpa using size
    have fresh := EngineA.construct_inv hv
    rw [← inv.1 (absent rfl)] at fresh
    exact fresh
  | aSetKey => exact EngineA.installKey_inv inv (present_of_passed_A passed) aes _
  | aEncrypt | aDecrypt =>
    have keyed : s.engA.keyValid = true := by
      simpa using firstError_eq_none.1 passed (!s.engA.keyValid, .noKey) (.tail _ (.head _))
    exact EngineA.withCs_inv inv (present_of_passed_A passed) keyed _
  | aDestroy => exact EngineA.reset_inv
  | aGetBlockSize | aGetIvSize | aGetKeySize => exact inv
  | _ =>
    rw [effectOf_engA_of_onEngineB rfl]
    exact inv

/-! #### Engine B -/

theorem Limbs.zero_canonical : Limbs.zero.canonical = true := by decide

/-- Zero limbs are a clamped key, its own square (R193, R194). -/
theorem Limbs.zero_key : Limbs.zero.val = Limbs.zero.val * Limbs.zero.val % Config.prime ∧
    Limbs.zero.val &&& Config.clamp = Limbs.zero.val := by decide

/-- An engine that holds nothing, present or not (R44, R263). -/
theorem EngineB.reset_inv (present : Bool) : EngineB.Inv { EngineB.reset with present := present } := by
  refine ⟨fun absent => ?_, ⟨Limbs.zero_canonical, Limbs.zero_canonical, Limbs.zero_canonical⟩,
    Limbs.zero_key.1, Limbs.zero_key.2, fun _ => rfl, fun keyed => absurd rfl keyed,
    fun _ => ⟨rfl, rfl, rfl, rfl, rfl, ?_, ?_, ?_, ?_⟩⟩
  · cases absent
    rfl
  all_goals simp [EngineB.reset]

/-- A key fills the matrix but for row 3 (R222). -/
theorem EngineB.keyEngineB_inv {b : EngineB} (present : b.present = true) (k : Bytes) : (keyEngineB k b).Inv := by
  rw [keyEngineB_eq, present]
  refine ⟨nofun, ⟨Limbs.zero_canonical, Limbs.zero_canonical, Limbs.zero_canonical⟩, Limbs.zero_key.1, Limbs.zero_key.2, nofun,
    fun _ i => ?_, fun _ => ⟨rfl, rfl, rfl, rfl, rfl, ?_, ?_, ?_, ?_⟩⟩
  · have hi := i.isLt
    rw [getD_keyMatrix k (by omega), if_pos hi, List.getD_eq_getElem _ _ (by simp), Vector.getElem_toList]
    rfl
  all_goals simp [keyMatrix]

/-- In the phases of a message an engine has a key row, a MAC key with its square, and a canonical hash. -/
theorem EngineB.inv_of_message {b : EngineB} (present : b.present = true) (phase : b.phase = .active ∨ b.phase = .finished)
    (canonical : b.r.canonical = true ∧ b.u.canonical = true ∧ b.h.canonical = true) (square : b.Square)
    (clamped : b.r.val &&& Config.clamp = b.r.val) (row : ∀ i : Fin 4, b.m.toList.getD i.val 0 = Config.sigma[i]) : b.Inv := by
  refine ⟨fun absent => absurd (present.symm.trans absent) nofun, canonical, square, clamped, fun none => ?_, fun _ => row,
    fun early => ?_⟩
  · rw [none] at phase
    simp at phase
  · rcases phase with h | h <;> simp [h] at early

/-- Within a message the counter, the nonce words and the hash are free, the hash in canonical limbs. -/
theorem EngineB.inv_of_same_key {b b' : EngineB} (inv : b.Inv) (keyed : b.phase ≠ .noKey) (present : b'.present = true)
    (phase : b'.phase = .active ∨ b'.phase = .finished) (hr : b'.r = b.r) (hu : b'.u = b.u) (hh : b'.h.canonical = true)
    (row : ∀ i : Fin 4, b'.m.toList.getD i.val 0 = b.m.toList.getD i.val 0) : b'.Inv := by
  obtain ⟨_, ⟨r, u, _⟩, square, clamped, _, sigma, _⟩ := inv
  refine EngineB.inv_of_message present phase ⟨hr ▸ r, hu ▸ u, hh⟩ ?_ (hr ▸ clamped) fun i => (row i).trans (sigma keyed i)
  rw [EngineB.Square, hr, hu]
  exact square

/-- The counter is no word of the first row (R35). -/
theorem withCounter_row (m : Matrix) (c : Word) (i : Fin 4) :
    (withCounter m c).toList.getD i.val 0 = m.toList.getD i.val 0 := by
  have hi := i.isLt
  rw [List.getD_eq_getElem _ _ (by simp; omega), List.getD_eq_getElem _ _ (by simp; omega), Vector.getElem_toList,
    Vector.getElem_toList, withCounter_get_ne m c i (by omega) (by omega)]

/-- Row 3 is not the first row (R224). -/
theorem nonceRow_row (iv : Bytes) (m : Matrix) (i : Fin 4) :
    (nonceRow iv m).toList.getD i.val 0 = m.toList.getD i.val 0 := by
  have hi := i.isLt
  rw [List.getD_eq_getElem _ _ (by simp; omega), List.getD_eq_getElem _ _ (by simp; omega), Vector.getElem_toList,
    Vector.getElem_toList, nonceRow, Vector.getElem_set_ne _ _ (by omega), Vector.getElem_set_ne _ _ (by omega),
    Vector.getElem_set_ne _ _ (by omega), Vector.getElem_set_ne _ _ (by omega)]

/-- A message's MAC key is clamped, its square beside it (R193, R194, R224). -/
theorem EngineB.initEngineB_inv {b : EngineB} (inv : b.Inv) (present : b.present = true) (keyed : b.phase ≠ .noKey)
    (iv : Bytes) : (initEngineB iv b).Inv := by
  obtain ⟨_, _, _, _, _, sigma, _⟩ := inv
  rw [initEngineB_eq]
  generalize slice (chachaCore (nonceRow iv b.m)) 0 32 = k
  refine EngineB.inv_of_message present (.inl rfl) ⟨macInit_r_canonical k b, macInit_u_canonical k b, Limbs.zero_canonical⟩
    (macInit_u_val k b) ?_ fun i => ((withCounter_row _ _ i).trans (nonceRow_row iv b.m i)).trans (sigma keyed i)
  show (macInit k b).r.val &&& Config.clamp = (macInit k b).r.val
  rw [macInit_r_val, Nat.and_assoc, Nat.and_self]

theorem setHash_canonical (v : Nat) (b : EngineB) : (setHash v b).h.canonical = true :=
  Limbs.canonical_ofVal (mod_prime_lt v)

/-- Pairs leave a canonical hash (R40). -/
theorem macPairs_canonical {b : EngineB} (canonical : b.h.canonical = true) (n : Nat) (d : Bytes) :
    (macPairs n d b).h.canonical = true := by
  induction n generalizing d b with
  | zero => exact canonical
  | succ n ih =>
    rw [macPairs, absorbPair]
    exact ih (setHash_canonical _ b) _

/-- `MacUpdate` leaves a canonical hash (R40). -/
theorem macUpdate_canonical {b : EngineB} (canonical : b.h.canonical = true) (n : Nat) (d : Bytes) :
    (macUpdate n d b).h.canonical = true := by
  simp only [macUpdate, absorbOne]
  split
  · exact setHash_canonical _ _
  · exact macPairs_canonical canonical _ d

/-- What it says of an engine that its checks pass (R221). -/
theorem present_of_requirePresentB {s : State} {cs : List Check} (passed : firstError (requirePresentB s ++ cs) = none) :
    s.engB.present = true := by
  simpa using firstError_eq_none.1 passed (!s.engB.present, .absent) (.head _)

theorem keyed_of_requireKeyedB {s : State} {cs : List Check} (passed : firstError (requireKeyedB s ++ cs) = none) :
    s.engB.present = true ∧ s.engB.phase ≠ .noKey := by
  have present : s.engB.present = true := by
    rw [requireKeyedB, List.append_assoc] at passed
    exact present_of_requirePresentB passed
  refine ⟨present, fun noKey => ?_⟩
  rw [firstError_requireKeyedB_append present, if_pos noKey] at passed
  cases passed

theorem phase_of_requireMatrixB {s : State} (passed : firstError (requireMatrixB s) = none) :
    s.engB.present = true ∧ (s.engB.phase = .active ∨ s.engB.phase = .finished) := by
  have present : s.engB.present = true := (keyed_of_requireKeyedB passed).1
  rw [firstError_requireMatrixB present] at passed
  exact ⟨present, by_contra fun other => by rw [if_neg other] at passed; cases passed⟩

theorem active_of_requireActiveB {s : State} (passed : firstError (requireActiveB s) = none) :
    s.engB.present = true ∧ s.engB.phase = .active := by
  have present : s.engB.present = true := by
    rw [requireActiveB, requireMatrixB, List.append_assoc] at passed
    exact (keyed_of_requireKeyedB passed).1
  rw [firstError_requireActiveB present] at passed
  exact ⟨present, by_contra fun other => by rw [if_neg other] at passed; cases passed⟩

/-- A keystream command advances the counter and nothing else (R169). -/
theorem EngineB.ctrAdd_inv {b : EngineB} (inv : b.Inv) (present : b.present = true)
    (phase : b.phase = .active ∨ b.phase = .finished) (k : Nat) : (ctrAdd k b).Inv := by
  have keyed : b.phase ≠ .noKey := by rcases phase with h | h <;> simp [h]
  exact EngineB.inv_of_same_key inv keyed present phase rfl rfl inv.2.1.2.2 (withCounter_row b.m _)

/-- Either in-place transform advances the counter and absorbs pairs (R229). -/
theorem effectOf_crypt_inv {i : Instr} (crypt : i = .bEncrypt ∨ i = .bDecrypt) {s : State} (inv : s.engB.Inv)
    (present : s.engB.present = true) (active : s.engB.phase = .active) : (effectOf i s).engB.Inv := by
  obtain ⟨d, after⟩ := effectOf_crypt_engB crypt s
  rw [after]
  exact EngineB.inv_of_same_key inv (by simp [active]) present (.inl active) rfl rfl
    (macPairs_canonical inv.2.1.2.2 _ d) (withCounter_row s.engB.m _)

/-- Every effect keeps the invariant of engine B. -/
theorem effectOf_engB_inv {i : Instr} {s : State} (inv : s.engB.Inv) (passed : firstError (checksOf i s) = none)
    (absent : i = .bConstruct → s.engB.present = false) : (effectOf i s).engB.Inv := by
  have canonical := inv.2.1.2.2
  cases i with
  | bConstruct =>
    show EngineB.Inv { s.engB with present := true, phase := .noKey, wrap := false }
    rw [inv.1 (absent rfl)]
    exact EngineB.reset_inv true
  | bSetKey => exact EngineB.keyEngineB_inv (present_of_requirePresentB passed) _
  | bInit =>
    obtain ⟨present, keyed⟩ := keyed_of_requireKeyedB passed
    exact EngineB.initEngineB_inv inv present keyed _
  | bMacUpdate =>
    obtain ⟨present, active⟩ := active_of_requireActiveB passed
    rw [effectOf, macUpdate_frame]
    exact EngineB.inv_of_same_key inv (by simp [active]) present (.inl active) rfl rfl (macUpdate_canonical canonical _ _)
      fun _ => rfl
  | bChachaBlock =>
    obtain ⟨present, phase⟩ := phase_of_requireMatrixB passed
    rw [effectOf, keystreamEffect_engB keystreamStep_one]
    exact EngineB.ctrAdd_inv inv present phase 1
  | bChacha4Block =>
    obtain ⟨present, phase⟩ := phase_of_requireMatrixB passed
    rw [effectOf, keystreamEffect_engB keystreamStep_four]
    exact EngineB.ctrAdd_inv inv present phase 4
  | bEncrypt | bDecrypt =>
    obtain ⟨present, active⟩ := active_of_requireActiveB passed
    exact effectOf_crypt_inv (by simp) inv present active
  | bFinish =>
    obtain ⟨present, active⟩ := active_of_requireActiveB passed
    exact EngineB.inv_of_same_key inv (by simp [active]) present (.inr rfl) rfl rfl canonical fun _ => rfl
  | bDestroy => exact EngineB.reset_inv false
  | bGetIvSize | bGetBlockSize | bGetIcvSize => exact inv
  | aEncrypt inPlace | aDecrypt inPlace => exact inv
  | _ =>
    rw [effectOf_engB_of_onEngineA rfl]
    exact inv

/-! #### Memory -/

/-- Every effect writes its range, which fits, and so keeps the canonical form (R51, R66). -/
theorem effectOf_mem_wf {i : Instr} {s : State} (wf : s.mem.wf = true) (passed : firstError (checksOf i s) = none)
    (fit : rangesFit i s) : (effectOf i s).mem.wf = true := by
  obtain ⟨out, len, within⟩ := effectOf_within passed
  have written : (effectOf i s).mem = s.mem.writeBytes (writeRange i s).1.toNat out :=
    congrArg State.mem (within s.mem fun _ _ _ _ => rfl)
  rw [written]
  exact Memory.wf_writeBytes wf (by rw [len]; exact fit _ (by simp))

/-! #### Steps -/

/-- No check reads `RESULT`, which a factory has cleared. -/
theorem checksOf_cleared (i : Instr) (s : State) : checksOf i (s.cleared i) = checksOf i s := by
  unfold State.cleared
  split
  · cases i <;> rfl
  · rfl

/-- Nor does a range. -/
theorem barsOf_cleared (i : Instr) (s : State) : barsOf i (s.cleared i) = barsOf i s := by
  unfold State.cleared
  split
  · cases i <;> rfl
  · rfl

/-- Every command keeps the invariant. -/
theorem exec_inv {i : Instr} {s t : State} (inv : s.Inv) (h : exec i s = .next t) : t.Inv := by
  obtain ⟨-, invA, invB, wf⟩ := inv
  rcases exec_next_cases h with ⟨e, -, rfl⟩ | ⟨passed, meaningful, rfl⟩
  · exact ⟨lastLegal_lastErr e, invA, invB, wf⟩
  · have checks : firstError (checksOf i (s.cleared i)) = none := by
      rw [checksOf_cleared]
      exact checks_of_reportedError_none passed
    have fit : rangesFit i (s.cleared i) := rangesFit_of_firstBar checks (by rw [barsOf_cleared]; exact meaningful)
    rw [← cleared_engA i s] at invA
    rw [← cleared_engB i s] at invB
    rw [← cleared_mem i s] at wf
    refine ⟨.inr (.inl rfl), effectOf_engA_inv invA checks ?_, effectOf_engB_inv invB checks ?_, effectOf_mem_wf wf checks fit⟩
    · rintro rfl
      exact (congrArg EngineA.present (cleared_engA _ s)).trans (absent_of_passed_A passed)
    · rintro rfl
      exact (congrArg EngineB.present (cleared_engB _ s)).trans (absent_of_passed_B passed)

/-- Every written word keeps the invariant, the illegal ones too (R284). -/
theorem runCommand_inv {w : Word} {s t : State} (inv : s.Inv) (h : runCommand w s = .next t) : t.Inv := by
  unfold runCommand at h
  split at h
  · obtain ⟨-, rest⟩ := inv
    cases h
    exact ⟨lastLegal_lastErr _, rest⟩
  · exact exec_inv inv h

/-- An operand is no part of the invariant (R21). -/
theorem portWrite_inv {s : State} (inv : s.Inv) (n : Nat) (v : Word) : (portWrite n v s).Inv := by
  rw [portWrite_eq]
  exact inv

theorem resetCore_inv {s : State} (wf : s.mem.wf = true) : (resetCore s).Inv :=
  ⟨.inl rfl, EngineA.reset_inv, EngineB.reset_inv false, wf⟩

/-- Every host action keeps the invariant. -/
theorem hostStep_inv {act : HostAction} {s t : State} (inv : s.Inv) (h : hostStep act s = .next t) : t.Inv := by
  cases act with
  | write n v =>
    rw [hostStep] at h
    split at h
    · exact runCommand_inv inv h
    · cases h
      exact portWrite_inv inv n v
  | store addr b =>
    cases h
    obtain ⟨last, invA, invB, wf⟩ := inv
    exact ⟨last, invA, invB, Memory.wf_write b wf addr.isLt⟩
  | reset =>
    cases h
    exact resetCore_inv inv.2.2.2
  | read | load | setCapA | setCapB =>
    cases h
    exact inv

/-- Settles O54: the step is the host's oldest action (`hostStep_inv`), a command's by its failure or by its effect on each
engine and on memory (`exec_inv`). -/
theorem stepKeepsTheInvariant : Obligations.StepKeepsTheInvariant := by
  intro s t inv h
  cases pending : s.pending with
  | nil =>
    rw [step, takeAction, pending] at h
    cases h
    exact inv
  | cons act rest =>
    rw [step_of_pending pending] at h
    exact hostStep_inv (s := { s with pending := rest }) inv h

/-- Settles O53: a reset state, its memory empty. -/
theorem resetMeetsTheInvariant : Obligations.ResetMeetsTheInvariant :=
  resetCore_inv (s := State.reset) rfl

end Sys2Proof.Machine
